-- ==== Sys2Proof/Word.lean ====
section
/-! DEFINITION. The word types of the engine, one name for each width the spec gives (00_scope.md R6, R14). -/

namespace Sys2Proof

/-- A byte value, also a symbol (00_scope.md R6, R17). -/
abbrev Byte := BitVec 8

/-- A frequency count, `W_FREQ` = 64 bits (00_scope.md R6). -/
abbrev Count := BitVec 64

/-- A buffer length or offset, `W_LEN` = 64 bits (00_scope.md R6). -/
abbrev Len := BitVec 64

/-- A tree node weight, `W_WEIGHT` = 72 bits (00_scope.md R6). -/
abbrev Weight := BitVec 72

/-- A code register, `W_CODE` = 255 bits (00_scope.md R6). -/
abbrev Code := BitVec 255

/-- A node index or node count, 9 bits (10_state.md R28, R42). -/
abbrev NodeIndex := BitVec 9

/-- A table with one entry for each of the `NSYM` = 256 symbols (00_scope.md R6). -/
abbrev ByteTable (α : Type) := Vector α 256

end Sys2Proof
end

