-- ==== Sys2Proof/Syntax.lean ====
section
/-! DEFINITION. The commands of the engine and the format of a command byte (30_encoding.md R91 to R96). -/

namespace Sys2Proof

/-- The eleven commands, one constructor for each row of the command table (30_encoding.md R96). No command has an operand
field (R92): each works on the state its rule names. -/
inductive Instr where
  /-- `NOP`, 46_sequencer.md R227. -/
  | nop
  /-- `CLEAR`, 46_sequencer.md R228. -/
  | clear
  /-- `COUNT`, 40_frequency_counter.md R120. -/
  | count
  /-- `BUILD`, 41_tree_builder.md R130. -/
  | build
  /-- `DERIVE`, 42_code_table.md R150. -/
  | derive
  /-- `PACK`, 43_bit_packer.md R170. -/
  | pack
  /-- `HDRENC`, 45_header_codec.md R200. -/
  | hdrenc
  /-- `HDRDEC`, 45_header_codec.md R202. -/
  | hdrdec
  /-- `UNPACK`, 44_bit_unpacker.md R185. -/
  | unpack
  /-- `COMPRESS`, 46_sequencer.md R229. -/
  | compress
  /-- `DECOMPRESS`, 46_sequencer.md R230. -/
  | decompress
deriving DecidableEq, Repr

/-- Format `C8` of a command byte: group in bits 7:4, function in bits 3:0 (30_encoding.md R91). -/
structure C8 where
  grp : BitVec 4
  fn  : BitVec 4
deriving DecidableEq, Repr

end Sys2Proof
end

