-- ==== Sys2Proof/WellFormed.lean ====
section
/-! DEFINITION. Which `C8` words are commands (30_encoding.md R93, R95). An `Instr` carries no operand (R92), so every term of it is
well-formed; what can be ill-formed is the word, and each check below is about one of its fields. -/

namespace Sys2Proof

/-- The group is control, stage or composite (30_encoding.md R91). -/
def C8.groupKnown (c : C8) : Bool :=
  c.grp = 0 || c.grp = 1 || c.grp = 2

/-- In group 0 only `fn` 0 and 1 are assigned (30_encoding.md R93). -/
def C8.controlKnown (c : C8) : Bool :=
  c.grp ≠ 0 || c.fn = 0 || c.fn = 1

/-- In group 1 only `fn` 0 to 4, 8 and 9 are assigned (30_encoding.md R93). -/
def C8.stageKnown (c : C8) : Bool :=
  c.grp ≠ 1 || c.fn.toNat ≤ 4 || c.fn = 8 || c.fn = 9

/-- In group 2 only `fn` 0 and 1 are assigned (30_encoding.md R93). -/
def C8.compositeKnown (c : C8) : Bool :=
  c.grp ≠ 2 || c.fn = 0 || c.fn = 1

/-- The word is a command, not one of the 245 reserved values (30_encoding.md R95). -/
def C8.wellFormed (c : C8) : Bool :=
  c.groupKnown && c.controlKnown && c.stageKnown && c.compositeKnown

end Sys2Proof
end

