-- ==== Sys2Proof/Decode.lean ====
section
/-! DEFINITION. The decoder of command bytes, total on all 256 values (30_encoding.md R91, R94, R95), the encoder beside it, and the
host's view of the decoder. Both are written from the command table of R96. -/

namespace Sys2Proof

/-- Why a byte is not a command. -/
inductive DecodeError where
  /-- The byte is a reserved encoding (30_encoding.md R95). -/
  | reserved (b : Byte)
deriving DecidableEq, Repr

/-- The `C8` fields of a byte (30_encoding.md R91). -/
def byteFields (b : Byte) : C8 where
  grp := b.extractLsb' 4 4
  fn := b.extractLsb' 0 4

/-- The byte of a `C8` word (30_encoding.md R91). -/
def fieldsByte (c : C8) : Byte :=
  c.grp ++ c.fn

/-- The command table: command, group, function (30_encoding.md R96). -/
def commandTable : List (Instr × C8) :=
  [ (.nop,        ⟨0, 0⟩),
    (.clear,      ⟨0, 1⟩),
    (.count,      ⟨1, 0⟩),
    (.build,      ⟨1, 1⟩),
    (.derive,     ⟨1, 2⟩),
    (.pack,       ⟨1, 3⟩),
    (.hdrenc,     ⟨1, 4⟩),
    (.hdrdec,     ⟨1, 8⟩),
    (.unpack,     ⟨1, 9⟩),
    (.compress,   ⟨2, 0⟩),
    (.decompress, ⟨2, 1⟩) ]

/-- Decoding is by exact match of all eight bits (30_encoding.md R94); every value the table does not list is reserved (R95). -/
def decode (b : Byte) : Except DecodeError Instr :=
  match commandTable.find? (fun row => row.2 = byteFields b) with
  | some row => .ok row.1
  | none => .error (.reserved b)

/-- The command byte of each command (30_encoding.md R96, column `byte`). -/
def encode : Instr → Byte
  | .nop        => 0x00
  | .clear      => 0x01
  | .count      => 0x10
  | .build      => 0x11
  | .derive     => 0x12
  | .pack       => 0x13
  | .hdrenc     => 0x14
  | .hdrdec     => 0x18
  | .unpack     => 0x19
  | .compress   => 0x20
  | .decompress => 0x21

/-- What the decoder reads from the opcode table's word `w` of `nbits` bits. A command is the one byte in bits 7:0; a word with a bit
set above them is no command of this hardware (DESIGN CHOICE, notes/assumptions/16.md). -/
def decodeTableWord (nbits w : Nat) : Option Instr :=
  if w % 2 ^ nbits < 256 then
    match decode (BitVec.ofNat 8 (w % 2 ^ nbits)) with
    | .ok i => some i
    | .error _ => none
  else none

end Sys2Proof
end

