-- ==== Sys2Proof/Config.lean ====
section
/-! DEFINITION. The engine's parameters: the fixed ones of 00_scope.md R6 and the open ones of R7. -/

namespace Sys2Proof

/-- `MAX_NODES`: capacity of the node store (00_scope.md R6). -/
def maxNodes : Nat := 511

/-- `HDR_CAP`: capacity in bytes of the header buffer (00_scope.md R6). -/
def hdrCap : Nat := 2313

/-- The open parameters a model takes as arguments (00_scope.md R7, D22). Both range over 0 .. 2^64 - 1, so each is a 64-bit
word. `BUS` is left out: no rule reads it. They are held in the machine's state, where no step changes them
(notes/assumptions/5.md). -/
structure Config where
  /-- `IN_CAP`: capacity in bytes of the input buffer. -/
  inCap : Len
  /-- `OUT_CAP`: capacity in bytes of the output buffer. -/
  outCap : Len
deriving DecidableEq, Repr

/-- Both capacities at 2^64 - 1, "the natural default" (92_eei_decisions.md, open parameters). DESIGN CHOICE, unsafe for claims
that need these very capacities: notes/assumptions/5.md. -/
def Config.natural : Config where
  inCap := BitVec.allOnes 64
  outCap := BitVec.allOnes 64

end Sys2Proof
end

