-- ==== Sys2Proof/Machine/State.lean ====
section
/-! DEFINITION. The machine's state, all of it plain data (10_state.md R20), the reasons a step can stop, and the state after reset
(10_state.md R47). -/

namespace Sys2Proof.Machine

/-- `PHASE`, the sequencer state (10_state.md R32). -/
inductive Phase where
  | notStarted
  | processing
  | ready
  | faulted
deriving DecidableEq, Repr

/-- `MODE`, the direction of the session (10_state.md R34). -/
inductive Mode where
  | enc
  | dec
deriving DecidableEq, Repr

/-- The codes `ERR` can hold (60_exceptions.md R261); the other 4-bit values are never written. -/
inductive ErrCode where
  | none
  | hdrTrunc
  | hdrTsize
  | hdrFbc
  | hdrEntry
  | bits
  | internal
  | cap
deriving DecidableEq, Repr

/-- The codes `LASTREF` can hold (60_exceptions.md R272); the other 4-bit values are never written. -/
inductive RefReason where
  | none
  | illegal
  | seq
  | full
  | frozen
deriving DecidableEq, Repr

/-- The field `kind` of a node (10_state.md R42). -/
inductive NodeKind where
  | leaf
  | internal
deriving DecidableEq, Repr

/-- One record of the node store (10_state.md R42). -/
structure Node where
  kind   : NodeKind
  weight : Weight
  sym    : Byte
  left   : NodeIndex
  right  : NodeIndex
  minsym : Byte
deriving DecidableEq, Repr

/-- A byte buffer: the bytes that have a value, by index, in rising order. A byte that is not listed has no value
(20_memory.md R61 to R63; notes/assumptions/2.md). -/
abbrev Memory := List Host.Cell

/-- The canonical form: indices strictly rising, so that equal buffers are equal data. Every listed byte differs from an unlisted one,
which has no value at all. -/
abbrev Memory.wf (m : Memory) : Prop :=
  m.Pairwise (fun c d => c.1 < d.1)

/-- The address spaces of 20_memory.md R60; `CODE` and `CLEN`, one row there, are two here (notes/assumptions/17.md). -/
inductive Space where
  | reg
  | inbuf
  | outbuf
  | hdrbuf
  | artbuf
  | freq
  | node
  | code
  | clen
deriving DecidableEq, Repr

/-- What the host can do to the engine (00_scope.md R13; notes/assumptions/13.md). -/
inductive HostOp where
  /-- Reset (70_reset_and_hazards.md R300). -/
  | reset
  /-- A write of a byte to element `index` of `space`; `CMD` is register 0 and `IN_PUSH` register 2 of `reg`. -/
  | write (space : Space) (index : Nat) (data : Byte)
  /-- A read of element `index` of `space` (20_memory.md R68). -/
  | read (space : Space) (index : Nat)
deriving DecidableEq, Repr

/-- The value a host read returns, with the width of the element read (20_memory.md R69). -/
structure Reply where
  width : Nat
  value : BitVec width
deriving DecidableEq, Repr

/-- Everything the spec gives the machine (10_state.md R20), and three fields of the model's own: `cfg`, `hostIn`, `reply`. A register the
spec gives no value at some moment still holds one here, which nothing can read then (notes/assumptions/1.md). -/
structure State where
  /-- `STATUS` bits 1:0 (10_state.md R32). -/
  phase   : Phase
  /-- `STATUS` bit 2 (10_state.md R34). -/
  mode    : Mode
  /-- `STATUS` bit 3: `FREQ` holds the session's table (10_state.md R35). -/
  fv      : Bool
  /-- `STATUS` bit 4: the tree is valid (10_state.md R35). -/
  tv      : Bool
  /-- `STATUS` bit 5: the code table is valid (10_state.md R35). -/
  cv      : Bool
  /-- `STATUS` bit 6: `OUT` is valid (10_state.md R35). -/
  pv      : Bool
  /-- `STATUS` bit 7: the header is valid (10_state.md R35). -/
  hv      : Bool
  /-- `STATUS` bit 8: the tree is empty (10_state.md R36). -/
  te      : Bool
  /-- `STATUS` bit 9 (10_state.md R33). A command is one atomic step, so no step leaves it set (notes/assumptions/6.md). -/
  busy    : Bool
  /-- `STATUS` bits 15:12 (10_state.md R37). -/
  err     : ErrCode
  /-- `STATUS` bits 19:16 (10_state.md R38). -/
  lastref : RefReason
  /-- Register 3 (10_state.md R22). -/
  inLen   : Len
  /-- Register 4 (10_state.md R23). -/
  outLen  : Len
  /-- Register 5 (10_state.md R24). -/
  hdrLen  : BitVec 12
  /-- Register 6 (10_state.md R25). -/
  fbc     : BitVec 4
  /-- Register 7 (10_state.md R26). -/
  tsize   : Len
  /-- Register 8 (10_state.md R27). -/
  payOff  : Len
  /-- Register 9 (10_state.md R28). -/
  nleaf   : NodeIndex
  /-- Register 10 (10_state.md R28). -/
  nnode   : NodeIndex
  /-- Register 11 (10_state.md R28). -/
  root    : NodeIndex
  /-- Register 12 (10_state.md R29). -/
  finfo   : BitVec 64
  /-- `FREQ[0..255]` (10_state.md R41). -/
  freq    : ByteTable Count
  /-- `NODE[0 .. NNODE)`, the entries in use by index (10_state.md R42; notes/assumptions/2.md). -/
  node    : List Node
  /-- `CODE[0..255]` (10_state.md R43). -/
  code    : ByteTable Code
  /-- `CLEN[0..255]` (10_state.md R43). -/
  clen    : ByteTable Byte
  /-- `IN` (10_state.md R44, 20_memory.md R61). -/
  inBuf   : Memory
  /-- `OUT` (10_state.md R44, 20_memory.md R62). -/
  outBuf  : Memory
  /-- `HDR` (10_state.md R44, 20_memory.md R63). -/
  hdrBuf  : Memory
  /-- The open parameters (00_scope.md R7; notes/assumptions/5.md). -/
  cfg     : Config
  /-- The host transactions still to be made, oldest first (20_memory.md R75; notes/assumptions/3.md). -/
  hostIn  : List HostOp
  /-- What the last host read returned; `none` where it was refused or none was made (20_memory.md R68; notes/assumptions/4.md). -/
  reply   : Option Reply
deriving DecidableEq, Repr

/-- The machine right after reset (10_state.md R47). The registers and tables that rule gives no value hold zero: DESIGN CHOICE, unsafe,
notes/assumptions/1.md. -/
def State.reset : State where
  phase   := .notStarted
  mode    := .enc
  fv      := false
  tv      := false
  cv      := false
  pv      := false
  hv      := false
  te      := false
  busy    := false
  err     := .none
  lastref := .none
  inLen   := 0
  outLen  := 0
  hdrLen  := 0
  fbc     := 0
  tsize   := 0
  payOff  := 0
  nleaf   := 0
  nnode   := 0
  root    := 0
  finfo   := 0
  freq    := Vector.replicate 256 0
  node    := []
  code    := Vector.replicate 256 0
  clen    := Vector.replicate 256 0
  inBuf   := []
  outBuf  := []
  hdrBuf  := []
  cfg     := Config.natural
  hostIn  := []
  reply   := none

/-- The code table `CODE`, `CLEN` while the derive stage fills it (42_code_table.md R150). -/
structure CodeTable where
  code : ByteTable Code
  clen : ByteTable Byte
deriving DecidableEq, Repr

/-- The output buffer while a stage fills it: `OUT` and `OUT_LEN` (20_memory.md R62, R64). -/
structure OutBuffer where
  mem : Memory
  len : Len
deriving DecidableEq, Repr

/-- `raise code(info)`: a fault of the data (00_scope.md R15, 60_exceptions.md R274). -/
structure Raise where
  code : ErrCode
  info : BitVec 64
deriving DecidableEq, Repr

/-- The reasons the machine stops. None is a condition of the spec's fault table (those are next states with `PHASE` = FAULTED); each marks a
state the spec gives no further behaviour. -/
inductive Fault where
  /-- The host makes an access other than a `STATUS` read or a reset while `BUSY` = 1. Raised by `hostTransaction`. The spec gives it no
  meaning, "the model has no such move (`stuck`)" (93_implementation_defined.md item 23, 70_reset_and_hazards.md R308). Safe: the model
  stops. Not reachable from reset. -/
  | hostNotQuiet
  /-- A stage reads a byte of `IN` that has no value. Raised by the stages of `COUNT`, `PACK`, `HDRDEC`, `UNPACK`. The spec says it cannot
  happen (20_memory.md R61; notes/assumptions/8.md). Safe: the model stops. Not reachable from reset. -/
  | byteWithoutValue
  /-- The walk of the derive stage meets an index with no node, or goes deeper than the store has nodes. Raised by the derive stage. The tree
  the build stage makes rules it out (41_tree_builder.md R134; notes/assumptions/9.md). Safe: the model stops. Not reachable from reset. -/
  | treeBroken
deriving DecidableEq, Repr

/-- The reasons the model gives no answer for an instruction. -/
inductive Refusal where
  /-- The instruction has no meaning in this model yet. Raised by `exec` alone; no arm raises it now. Safe: the model stops. -/
  | notModelled (mnemonic : String)
deriving DecidableEq, Repr

/-- How a stage of a command ends (46_sequencer.md R231). -/
inductive Stage where
  /-- It completed, in this state. -/
  | done (s : State)
  /-- It raised a fault of the data, in this state (60_exceptions.md R274). -/
  | raised (r : Raise) (s : State)
  /-- The machine stops. -/
  | stuck (f : Fault)
deriving DecidableEq, Repr

end Sys2Proof.Machine
end

