-- ==== Sys2Proof/Machine/Ops.lean ====
section
/-! DEFINITION. The shared operations: byte buffers (20_memory.md), tables, `Append`, the refusal, the fault entry, the return from a fault, and
how a command is issued (00_scope.md R15; 46_sequencer.md R226; 60_exceptions.md R271, R274). -/

namespace Sys2Proof

/-- The 256 symbols in ascending order (00_scope.md R17). -/
def allBytes : List Byte :=
  (List.range 256).map (BitVec.ofNat 8)

/-- Entry `s` of a table (00_scope.md R15, `T[i]`). -/
def ByteTable.get {α : Type} (t : ByteTable α) (s : Byte) : α :=
  t[s.toNat]'(s.isLt)

/-- A table with entry `s` written (00_scope.md R15, `T[i] <- v`). -/
def ByteTable.put {α : Type} (t : ByteTable α) (s : Byte) (v : α) : ByteTable α :=
  t.set s.toNat v (s.isLt)

end Sys2Proof

namespace Sys2Proof.Machine

/-- The byte at index `a`; `none` where the buffer has no value there. -/
def Memory.read : Memory → Nat → Option Byte
  | [], _ => none
  | (c, v) :: m, a => if c = a then some v else Memory.read m a

/-- The buffer with byte `a` written, in canonical form. -/
def Memory.write : Memory → Nat → Byte → Memory
  | [], a, b => [(a, b)]
  | (c, v) :: m, a, b =>
    if a < c then (a, b) :: (c, v) :: m
    else if a = c then (a, b) :: m
    else (c, v) :: Memory.write m a b

/-- `MemRead(S, a, n)` (00_scope.md R15): the `n` bytes from index `a`, lowest first; `none` where one of them has no value. -/
def Memory.readN (m : Memory) : Nat → Nat → Option (List Byte)
  | _, 0 => some []
  | a, n + 1 =>
    match m.read a with
    | none => none
    | some b =>
      match Memory.readN m (a + 1) n with
      | none => none
      | some bs => some (b :: bs)

/-- `MemWrite(S, a, n, v)` (00_scope.md R15): the bytes `v` from index `a`. -/
def Memory.writeN : Memory → Nat → List Byte → Memory
  | m, _, [] => m
  | m, a, b :: bs => Memory.writeN (m.write a b) (a + 1) bs

/-- The empty output buffer a stage starts from (20_memory.md R62; notes/assumptions/12.md). -/
def OutBuffer.empty : OutBuffer where
  mem := []
  len := 0

/-- `Append(OUT, b)` under the capacity `outCap` (20_memory.md R64). -/
def OutBuffer.append (outCap : Len) (o : OutBuffer) (b : Byte) : Except Raise OutBuffer :=
  if o.len = outCap then .error ⟨.cap, o.len⟩
  else .ok ⟨o.mem.write o.len.toNat b, o.len + 1⟩

/-- `refuse reason`: the whole effect of a refusal (60_exceptions.md R271). -/
def State.refuse (s : State) (r : RefReason) : State :=
  { s with lastref := r }

/-- What every accepted write of `CMD` or `IN_PUSH` does last (10_state.md R38). -/
def State.accept (s : State) : State :=
  { s with lastref := .none }

/-- Fault entry (60_exceptions.md R274): `ERR`, `FINFO`, `PHASE`, `LASTREF`, and nothing else. -/
def State.enterFault (s : State) (r : Raise) : State :=
  { s with err := r.code, finfo := r.info, phase := .faulted, lastref := .none }

/-- The state of 10_state.md R47, which reset (70_reset_and_hazards.md R300) and `CLEAR` (46_sequencer.md R228) both give and which is the only
return from a fault (60_exceptions.md R276). The model's own fields are kept: notes/assumptions/10.md. -/
def State.cleared (s : State) : State :=
  { State.reset with cfg := s.cfg, hostIn := s.hostIn, reply := s.reply }

/-- The next stage of a composite command runs where the one before completed (46_sequencer.md R231). -/
def Stage.andThen (r : Stage) (next : State → Stage) : Stage :=
  match r with
  | .done s => next s
  | .raised e s => .raised e s
  | .stuck f => .stuck f

/-- The end of an accepted command: `LASTREF <- 0`, or the fault entry. -/
def Stage.finish (r : Stage) : Host.Outcome State Fault Refusal :=
  match r with
  | .done s => .next s.accept
  | .raised e s => .next (s.enterFault e)
  | .stuck f => .fault f

/-- The issue of a decoded command (46_sequencer.md R226): with its guard false it is refused, else its body runs to its end. -/
def issue (guard : State → Bool) (body : State → Stage) (s : State) : Host.Outcome State Fault Refusal :=
  if guard s then (body s).finish else .next (s.refuse .seq)

end Sys2Proof.Machine
end

