-- ==== Sys2Proof/Machine/Flags.lean ====
section
/-! DEFINITION. The status word, the guards and the final-byte bit count (10_state.md R31 to R38; 46_sequencer.md R226; 43_bit_packer.md R170). -/

namespace Sys2Proof.Machine

/-- The 2-bit code of `PHASE` (10_state.md R31). -/
def Phase.bits : Phase → BitVec 2
  | .notStarted => 0
  | .processing => 1
  | .ready => 2
  | .faulted => 3

/-- The bit of `MODE` (10_state.md R31). -/
def Mode.bit : Mode → BitVec 1
  | .enc => 0
  | .dec => 1

/-- The codes of `ERR` (60_exceptions.md R261). -/
def ErrCode.bits4 : ErrCode → BitVec 4
  | .none => 0
  | .hdrTrunc => 1
  | .hdrTsize => 2
  | .hdrFbc => 3
  | .hdrEntry => 4
  | .bits => 5
  | .internal => 8
  | .cap => 9

/-- The codes of `LASTREF` (60_exceptions.md R272). -/
def RefReason.bits4 : RefReason → BitVec 4
  | .none => 0
  | .illegal => 1
  | .seq => 2
  | .full => 3
  | .frozen => 4

/-- The `STATUS` word, from bit 31 down to bit 0 (10_state.md R31); the reserved bits read 0. -/
def State.status (s : State) : BitVec 32 :=
  (0#12 ++ s.lastref.bits4 ++ s.err.bits4 ++ 0#2 ++ BitVec.ofBool s.busy ++ BitVec.ofBool s.te ++ BitVec.ofBool s.hv
    ++ BitVec.ofBool s.pv ++ BitVec.ofBool s.cv ++ BitVec.ofBool s.tv ++ BitVec.ofBool s.fv ++ s.mode.bit ++ s.phase.bits)

/-- The guard of `NOP` and `CLEAR`: always accepted (46_sequencer.md R226). -/
def guardAlways (_ : State) : Bool := true

/-- The guard of the four session-opening commands `COUNT`, `HDRDEC`, `COMPRESS`, `DECOMPRESS` (46_sequencer.md R226). -/
def guardOpen (s : State) : Bool :=
  s.phase = .notStarted

/-- The guard of `BUILD` (46_sequencer.md R226). -/
def guardBuild (s : State) : Bool :=
  s.phase = .processing && s.fv && !s.tv

/-- The guard of `DERIVE` (46_sequencer.md R226). -/
def guardDerive (s : State) : Bool :=
  s.phase = .processing && s.tv && !s.cv

/-- The guard of `PACK` (46_sequencer.md R226). -/
def guardPack (s : State) : Bool :=
  s.phase = .processing && s.mode = .enc && s.cv && !s.pv

/-- The guard of `HDRENC` (46_sequencer.md R226). -/
def guardHdrenc (s : State) : Bool :=
  s.phase = .processing && s.mode = .enc && s.pv && !s.hv

/-- The guard of `UNPACK` (46_sequencer.md R226). -/
def guardUnpack (s : State) : Bool :=
  s.phase = .processing && s.mode = .dec && s.hv && !s.pv

/-- `FBC` after the last input byte: the `n` bits of a partial last byte; 8 where the last byte is full; 0 where there is no payload
(43_bit_packer.md R170, R171; 90_conflicts.md C2). -/
def finalBitCount (n : Nat) (outLen : Len) : BitVec 4 :=
  if n > 0 then BitVec.ofNat 4 n else if outLen ≠ 0 then 8 else 0

end Sys2Proof.Machine
end

