-- ==== Sys2Proof/Machine/Operands.lean ====
section
/-! DEFINITION. The operands of the commands. A command byte names none (30_encoding.md R92); what a command works on is the state its rule lists:
the input bytes, the payload bytes, big-endian fields of the input, and the bits of bytes and of code words. -/

namespace Sys2Proof.Machine

/-- `IN[0 .. IN_LEN)`, the operand of `COUNT`, `PACK` and `HDRDEC` (20_memory.md R61). -/
def State.inBytes (s : State) : Option (List Byte) :=
  s.inBuf.readN 0 s.inLen.toNat

/-- `IN[PAY_OFF .. IN_LEN)`, the payload operand of `UNPACK` (44_bit_unpacker.md R185). -/
def State.payloadBytes (s : State) : Option (List Byte) :=
  s.inBuf.readN s.payOff.toNat (s.inLen.toNat - s.payOff.toNat)

/-- The number whose bytes, most significant first, are `bs` (00_scope.md R14). -/
def bigEndian (bs : List Byte) : Nat :=
  bs.foldl (fun acc b => acc * 256 + b.toNat) 0

/-- `BE64(s, a)` (00_scope.md R14): the number in the 8 bytes from index `a`, most significant first. -/
def be64At (bs : List Byte) (a : Nat) : Nat :=
  bigEndian ((bs.drop a).take 8)

/-- `be64(v)` (00_scope.md R14): the 8 bytes of `v`, most significant first. -/
def be64 (v : BitVec 64) : List Byte :=
  [ v.extractLsb' 56 8, v.extractLsb' 48 8, v.extractLsb' 40 8, v.extractLsb' 32 8,
    v.extractLsb' 24 8, v.extractLsb' 16 8, v.extractLsb' 8 8, v.extractLsb' 0 8 ]

/-- Byte `a` of a sequence; used only after a bounds check (45_header_codec.md R204). -/
def byteAt (bs : List Byte) (a : Nat) : Byte :=
  bs.getD a 0

/-- The `n` low bits of a word, bit 0 first: the order of a payload byte and of a code word (20_memory.md R71). -/
def lowBits {w : Nat} (v : BitVec w) (n : Nat) : List Bool :=
  (List.range n).map v.getLsbD

/-- The bits of one code word in emission order (30_encoding.md R104). -/
def codeWord (t : CodeTable) (s : Byte) : List Bool :=
  lowBits (t.code.get s) (t.clen.get s).toNat

/-- The bits `UNPACK` reads: all 8 of every byte but the last, `fbc` of the last (44_bit_unpacker.md R187). -/
def payloadBits (fbc : Nat) : List Byte → List Bool
  | [] => []
  | [b] => lowBits b fbc
  | b :: c :: bs => lowBits b 8 ++ payloadBits fbc (c :: bs)

/-- The code table the engine holds. -/
def State.codeTable (s : State) : CodeTable where
  code := s.code
  clen := s.clen

end Sys2Proof.Machine
end

