-- ==== Sys2Proof/Machine/BitPacker.lean ====
section
/-! DEFINITION. Unit BP, command `PACK` (43_bit_packer.md). -/

namespace Sys2Proof.Machine

/-- The packer inside its loop: the output so far, and the transient byte `acc` with its `n` bits (43_bit_packer.md R170). -/
structure Packer where
  out : OutBuffer
  acc : Byte
  n   : Nat
deriving DecidableEq, Repr

/-- One bit into the output byte, least significant first; a full byte is appended (43_bit_packer.md R170). -/
def Packer.emit (outCap : Len) (p : Packer) (bit : Bool) : Except Raise Packer :=
  let acc := p.acc ||| ((BitVec.ofBool bit).setWidth 8 <<< p.n)
  if p.n + 1 = 8 then
    match p.out.append outCap acc with
    | .error r => .error r
    | .ok out => .ok ⟨out, 0, 0⟩
  else .ok ⟨p.out, acc, p.n + 1⟩

/-- The bits of one code word. -/
def Packer.emitAll (outCap : Len) : Packer → List Bool → Except Raise Packer
  | p, [] => .ok p
  | p, bit :: bits =>
    match p.emit outCap bit with
    | .error r => .error r
    | .ok p' => Packer.emitAll outCap p' bits

/-- The loop over the input bytes from index `i`; a byte with no code raises `E_INTERNAL(i)` (43_bit_packer.md R170, R173). -/
def packFrom (outCap : Len) (t : CodeTable) : Nat → Packer → List Byte → Except Raise Packer
  | _, p, [] => .ok p
  | i, p, b :: bs =>
    if t.clen.get b = 0 then .error ⟨.internal, BitVec.ofNat 64 i⟩
    else
      match p.emitAll outCap (codeWord t b) with
      | .error r => .error r
      | .ok p' => packFrom outCap t (i + 1) p' bs

/-- The partial last byte, padded with zeros (43_bit_packer.md R170, R172). -/
def Packer.flush (outCap : Len) (p : Packer) : Except Raise OutBuffer :=
  if p.n > 0 then p.out.append outCap p.acc else .ok p.out

/-- The packed payload and `FBC` of an input (43_bit_packer.md R170). -/
def packBytes (outCap : Len) (t : CodeTable) (bs : List Byte) : Except Raise (OutBuffer × BitVec 4) :=
  match packFrom outCap t 0 ⟨OutBuffer.empty, 0, 0⟩ bs with
  | .error r => .error r
  | .ok p =>
    match p.flush outCap with
    | .error r => .error r
    | .ok out => .ok (out, finalBitCount p.n out.len)

/-- `PackStage` (43_bit_packer.md R170). A fault leaves `OUT`, `OUT_LEN` and `FBC` as they were before the stage, unreadable
(60_exceptions.md R275; notes/assumptions/7.md). -/
def packStage (s : State) : Stage :=
  match s.inBytes with
  | none => .stuck .byteWithoutValue
  | some bs =>
    match packBytes s.cfg.outCap s.codeTable bs with
    | .error r => .raised r s
    | .ok (out, fbc) => .done { s with outBuf := out.mem, outLen := out.len, fbc := fbc, pv := true }

/-- `PACK` (43_bit_packer.md R170). -/
def execPack (s : State) : Host.Outcome State Fault Refusal :=
  issue guardPack packStage s

end Sys2Proof.Machine
end

