-- ==== Sys2Proof/Machine/CodeGenerator.lean ====
section
/-! DEFINITION. Unit CG, command `DERIVE` and the lookup `DecodeStep` (42_code_table.md). -/

namespace Sys2Proof.Machine

/-- The table with no code: every entry (0, 0) (42_code_table.md R153). -/
def emptyCodes : CodeTable where
  code := Vector.replicate 256 0
  clen := Vector.replicate 256 0

/-- The entry of a leaf reached at `depth` with the bits `code`; a lone leaf, at depth 0, gets the 1-bit code 0
(42_code_table.md R150, R152). -/
def CodeTable.record (t : CodeTable) (s : Byte) (code : Code) (depth : Nat) : CodeTable :=
  if depth = 0 then ⟨t.code.put s 0, t.clen.put s 1⟩
  else ⟨t.code.put s code, t.clen.put s (BitVec.ofNat 8 depth)⟩

/-- `Walk(i, code, depth)` over the node store, left before right (42_code_table.md R150, R155). The first argument bounds the levels still
to go; `none` where an index has no node or the bound is used up, which a built tree never meets. -/
def walk (nodes : List Node) : Nat → Nat → Code → Nat → CodeTable → Option CodeTable
  | 0, _, _, _, _ => none
  | fuel + 1, i, code, depth, t =>
    match nodes[i]? with
    | none => none
    | some n =>
      match n.kind with
      | .leaf => some (t.record n.sym code depth)
      | .internal =>
        match walk nodes fuel n.left.toNat code (depth + 1) t with
        | none => none
        | some t' => walk nodes fuel n.right.toNat (code ||| (1#255 <<< depth)) (depth + 1) t'

/-- The code table of a tree; the empty tree has none of the codes (42_code_table.md R150, R153). -/
def deriveCodes (te : Bool) (nodes : List Node) (root : NodeIndex) : Option CodeTable :=
  if te then some emptyCodes else walk nodes nodes.length root.toNat 0 0 emptyCodes

/-- `DeriveStage` (42_code_table.md R150). -/
def deriveStage (s : State) : Stage :=
  match deriveCodes s.te s.node s.root with
  | none => .stuck .treeBroken
  | some t => .done { s with code := t.code, clen := t.clen, cv := true }

/-- `DERIVE` (42_code_table.md R150). -/
def execDerive (s : State) : Host.Outcome State Fault Refusal :=
  issue guardDerive deriveStage s

/-- `DecodeStep(len, code)` (42_code_table.md R156): the symbol whose entry is exactly this pair, or `none` for `KeepReading`. It is keyed by the
true length (R157). -/
def decodeStep (t : CodeTable) (len code : Nat) : Option Byte :=
  allBytes.find? (fun s => (t.clen.get s).toNat = len && t.clen.get s ≠ 0 && (t.code.get s).toNat = code)

end Sys2Proof.Machine
end

