-- ==== Sys2Proof/Machine/TreeBuilder.lean ====
section
/-! DEFINITION. Unit TB, command `BUILD` (41_tree_builder.md): the two-least merge under the key (weight, smallest byte value). -/

namespace Sys2Proof.Machine

/-- A member of the priority queue: a node index, with the record `NODE` holds there (41_tree_builder.md R130). -/
structure Member where
  index : NodeIndex
  node  : Node
deriving DecidableEq, Repr

/-- The leaf of symbol `s` (41_tree_builder.md R130). -/
def leafNode (freq : ByteTable Count) (s : Byte) : Node where
  kind   := .leaf
  weight := (freq.get s).setWidth 72
  sym    := s
  left   := 0
  right  := 0
  minsym := s

/-- The symbols with a count other than 0, in ascending order (10_state.md R41). -/
def presentSymbols (freq : ByteTable Count) : List Byte :=
  allBytes.filter (fun s => freq.get s ≠ 0)

/-- The leaf loop: one leaf for each present symbol (41_tree_builder.md R130). -/
def leafNodes (freq : ByteTable Count) : List Node :=
  (presentSymbols freq).map (leafNode freq)

/-- The order of `Key` (41_tree_builder.md R131): ascending weight, then ascending `minsym`. -/
def keyLess (a b : Node) : Bool :=
  a.weight < b.weight || (a.weight = b.weight && a.minsym < b.minsym)

/-- `PopMin` on the queue with member `m` and the members `pq`: the member of least key, and the others (41_tree_builder.md R130). -/
def popMin : Member → List Member → Member × List Member
  | m, [] => (m, [])
  | m, x :: xs =>
    if keyLess x.node m.node then
      let r := popMin x xs
      (r.1, m :: r.2)
    else
      let r := popMin m xs
      (r.1, x :: r.2)

/-- The internal node over the first pop `a` and the second pop `b` (41_tree_builder.md R130). -/
def combine (a b : Member) : Node where
  kind   := .internal
  weight := a.node.weight + b.node.weight
  sym    := 0
  left   := a.index
  right  := b.index
  minsym := if a.node.minsym < b.node.minsym then a.node.minsym else b.node.minsym

/-- The build stage's working state: the nodes made so far and the queue. -/
structure Merge where
  nodes : List Node
  queue : List Member
deriving DecidableEq, Repr

/-- One round of the merge loop; a queue of fewer than two members is left as it is (41_tree_builder.md R130). -/
def mergeRound (w : Merge) : Merge :=
  match w.queue with
  | m :: x :: xs =>
    let first := popMin m (x :: xs)
    match first.2 with
    | [] => w
    | y :: ys =>
      let second := popMin y ys
      let made := combine first.1 second.1
      ⟨w.nodes ++ [made], second.2 ++ [⟨BitVec.ofNat 9 w.nodes.length, made⟩]⟩
  | _ => w

/-- `k` rounds. -/
def mergeRounds : Nat → Merge → Merge
  | 0, w => w
  | k + 1, w => mergeRounds k (mergeRound w)

/-- The members the leaf loop leaves in the queue, leaf i at index i (41_tree_builder.md R133). -/
def leafMembers (leaves : List Node) : List Member :=
  leaves.zipIdx.map (fun p => ⟨BitVec.ofNat 9 p.2, p.1⟩)

/-- The tree of a frequency table: the leaves, then `NLEAF` - 1 rounds of merging (41_tree_builder.md R130, R138). -/
def buildTree (freq : ByteTable Count) : Merge :=
  let leaves := leafNodes freq
  mergeRounds (leaves.length - 1) ⟨leaves, leafMembers leaves⟩

/-- `ROOT`: the one element of the queue; an empty tree writes no `ROOT` (41_tree_builder.md R130, R136;
notes/assumptions/11.md). -/
def rootOf (old : NodeIndex) (queue : List Member) : NodeIndex :=
  match queue with
  | [] => old
  | m :: _ => m.index

/-- `BuildStage` (41_tree_builder.md R130). No width is exceeded: notes/assumptions/15.md. -/
def buildState (s : State) : State :=
  let tree := buildTree s.freq
  { s with
    node := tree.nodes
    nleaf := BitVec.ofNat 9 (presentSymbols s.freq).length
    nnode := BitVec.ofNat 9 tree.nodes.length
    root := rootOf s.root tree.queue
    te := (presentSymbols s.freq).isEmpty
    tv := true }

/-- `BuildStage` as a stage: it raises no fault. -/
def buildStage (s : State) : Stage :=
  .done (buildState s)

/-- `BUILD` (41_tree_builder.md R130). -/
def execBuild (s : State) : Host.Outcome State Fault Refusal :=
  issue guardBuild buildStage s

end Sys2Proof.Machine
end

