-- ==== Sys2Proof/Machine/BitUnpacker.lean ====
section
/-! DEFINITION. Unit BU, command `UNPACK` (44_bit_unpacker.md). -/

namespace Sys2Proof.Machine

/-- The bit loop with the accumulator (`code`, `len`), natural numbers without bound (44_bit_unpacker.md R185, R191). A match is appended and
empties the accumulator; a non-empty accumulator after the last bit raises `E_BITS` with the number of symbols decoded (R189). -/
def unpackBits (outCap : Len) (t : CodeTable) : Nat → Nat → OutBuffer → List Bool → Except Raise OutBuffer
  | _, len, out, [] => if len ≠ 0 then .error ⟨.bits, out.len⟩ else .ok out
  | code, len, out, bit :: bits =>
    let code' := code ||| (bit.toNat <<< len)
    let len' := len + 1
    match decodeStep t len' code' with
    | none => unpackBits outCap t code' len' out bits
    | some s =>
      match out.append outCap s with
      | .error r => .error r
      | .ok out' => unpackBits outCap t 0 0 out' bits

/-- `if TV = 0: BuildStage` (44_bit_unpacker.md R185, R186). -/
def ensureTree (s : State) : Stage :=
  if s.tv then .done s else buildStage s

/-- `if CV = 0: DeriveStage` (44_bit_unpacker.md R185, R186). -/
def ensureCodes (s : State) : Stage :=
  if s.cv then .done s else deriveStage s

/-- The rest of `UnpackStage`, from `OUT_LEN <- 0` on (44_bit_unpacker.md R185). A fault leaves `OUT` and `OUT_LEN` as they were before it,
unreadable (60_exceptions.md R275; notes/assumptions/7.md). -/
def unpackPayload (s : State) : Stage :=
  match s.payloadBytes with
  | none => .stuck .byteWithoutValue
  | some bs =>
    match unpackBits s.cfg.outCap s.codeTable 0 0 OutBuffer.empty (payloadBits s.fbc.toNat bs) with
    | .error r => .raised r s
    | .ok out => .done { s with outBuf := out.mem, outLen := out.len, pv := true, phase := .ready }

/-- `UnpackStage` (44_bit_unpacker.md R185). -/
def unpackStage (s : State) : Stage :=
  ((ensureTree s).andThen ensureCodes).andThen unpackPayload

/-- `UNPACK` (44_bit_unpacker.md R185). -/
def execUnpack (s : State) : Host.Outcome State Fault Refusal :=
  issue guardUnpack unpackStage s

end Sys2Proof.Machine
end

