-- ==== Sys2Proof/Machine/FrequencyCounter.lean ====
section
/-! DEFINITION. Unit FC, command `COUNT` (40_frequency_counter.md). -/

namespace Sys2Proof.Machine

/-- The loop of `COUNT`: each byte adds one to its counter, from all counters 0 (40_frequency_counter.md R120, R122). -/
def countBytes (bs : List Byte) : ByteTable Count :=
  bs.foldl (fun t b => t.put b (t.get b + 1)) (Vector.replicate 256 0)

/-- `COUNT-body` (40_frequency_counter.md R120). -/
def countStage (s : State) : Stage :=
  match s.inBytes with
  | none => .stuck .byteWithoutValue
  | some bs => .done { s with freq := countBytes bs, mode := .enc, fv := true, phase := .processing }

/-- `COUNT` (40_frequency_counter.md R120). -/
def execCount (s : State) : Host.Outcome State Fault Refusal :=
  issue guardOpen countStage s

end Sys2Proof.Machine
end

