-- ==== Sys2Proof/Machine/HeaderCodec.lean ====
section
/-! DEFINITION. Unit HC, commands `HDRENC` and `HDRDEC` (45_header_codec.md); the layout is 30_encoding.md R97. -/

namespace Sys2Proof.Machine

/-- table_size of a frequency table: 1 + 9 × N (45_header_codec.md R201). -/
def tableSize (freq : ByteTable Count) : Nat :=
  1 + 9 * (presentSymbols freq).length

/-- One entry: the value, then its count, big-endian (30_encoding.md R100). -/
def headerEntry (freq : ByteTable Count) (s : Byte) : List Byte :=
  s :: be64 (freq.get s)

/-- The header bytes in order: table_size, the final-byte bit count, the entries in ascending byte order (45_header_codec.md R200). -/
def headerBytes (freq : ByteTable Count) (fbc : BitVec 4) : List Byte :=
  be64 (BitVec.ofNat 64 (tableSize freq)) ++ [fbc.setWidth 8] ++ (presentSymbols freq).flatMap (headerEntry freq)

/-- `HdrEncStage` (45_header_codec.md R200): `HDR` holds exactly the header bytes afterwards (20_memory.md R63). -/
def hdrencStage (s : State) : Stage :=
  .done { s with
    hdrBuf := Memory.writeN [] 0 (headerBytes s.freq s.fbc)
    hdrLen := BitVec.ofNat 12 (8 + tableSize s.freq)
    tsize := BitVec.ofNat 64 (tableSize s.freq)
    hv := true
    phase := .ready }

/-- `HDRENC` (45_header_codec.md R200). -/
def execHdrenc (s : State) : Host.Outcome State Fault Refusal :=
  issue guardHdrenc hdrencStage s

/-- What a header holds: the table, the final-byte bit count, table_size. -/
structure Header where
  freq  : ByteTable Count
  fbc   : BitVec 4
  tsize : Nat
deriving DecidableEq, Repr

/-- The entry loop of `HDRDEC` from entry `k`, `n` entries to go, `prev` the value of the entry before (none for the first)
(45_header_codec.md R202, R207). -/
def parseEntries (bs : List Byte) : Nat → Nat → Option Byte → ByteTable Count → Except Raise (ByteTable Count)
  | _, 0, _, freq => .ok freq
  | k, n + 1, prev, freq =>
    let v := byteAt bs (9 + 9 * k)
    let c := be64At bs (10 + 9 * k)
    if prev.any (fun p => v ≤ p) || c = 0 then .error ⟨.hdrEntry, BitVec.ofNat 64 (9 + 9 * k)⟩
    else parseEntries bs (k + 1) n (some v) (freq.put v (BitVec.ofNat 64 c))

/-- The checks and reads of `HDRDEC` on the whole input, in order (45_header_codec.md R202, R203). -/
def parseHeader (bs : List Byte) : Except Raise Header :=
  if bs.length < 8 then .error ⟨.hdrTrunc, BitVec.ofNat 64 bs.length⟩
  else
    let ts := be64At bs 0
    if ts = 0 || (ts - 1) % 9 ≠ 0 then .error ⟨.hdrTsize, 0⟩
    else if bs.length - 8 < ts then .error ⟨.hdrTrunc, BitVec.ofNat 64 bs.length⟩
    else
      let f := (byteAt bs 8).toNat
      if f > 8 then .error ⟨.hdrFbc, 8⟩
      else
        match parseEntries bs 0 ((ts - 1) / 9) none (Vector.replicate 256 0) with
        | .error r => .error r
        | .ok freq =>
          if decide (bs.length - 8 - ts = 0) != decide (f = 0) then .error ⟨.hdrFbc, 8⟩
          else .ok ⟨freq, BitVec.ofNat 4 f, ts⟩

/-- `HdrDecStage` (45_header_codec.md R202). `MODE` is DEC from the start; a fault leaves `FREQ`, `FBC`, `TSIZE` and `PAY_OFF` as they were
before the stage, unreadable (60_exceptions.md R275; notes/assumptions/7.md). -/
def hdrdecStage (s : State) : Stage :=
  match s.inBytes with
  | none => .stuck .byteWithoutValue
  | some bs =>
    match parseHeader bs with
    | .error r => .raised r { s with mode := .dec }
    | .ok h =>
      .done { s with
        mode := .dec
        freq := h.freq
        tsize := BitVec.ofNat 64 h.tsize
        fbc := h.fbc
        payOff := BitVec.ofNat 64 (8 + h.tsize)
        fv := true
        hv := true
        phase := .processing }

/-- `HDRDEC` (45_header_codec.md R202). -/
def execHdrdec (s : State) : Host.Outcome State Fault Refusal :=
  issue guardOpen hdrdecStage s

end Sys2Proof.Machine
end

