-- ==== Sys2Proof/Machine/Sequencer.lean ====
section
/-! DEFINITION. The control commands `NOP` and `CLEAR` and the composite commands `COMPRESS` and `DECOMPRESS` (46_sequencer.md). -/

namespace Sys2Proof.Machine

/-- `NOP` (46_sequencer.md R227): `LASTREF <- 0`, which every accepted command does, and nothing else. -/
def execNop (s : State) : Host.Outcome State Fault Refusal :=
  issue guardAlways Stage.done s

/-- The body of `CLEAR` (46_sequencer.md R228). -/
def clearStage (s : State) : Stage :=
  .done s.cleared

/-- `CLEAR` (46_sequencer.md R228). -/
def execClear (s : State) : Host.Outcome State Fault Refusal :=
  issue guardAlways clearStage s

/-- The five stages of the compression flow (46_sequencer.md R229). -/
def compressStage (s : State) : Stage :=
  ((((countStage s).andThen buildStage).andThen deriveStage).andThen packStage).andThen hdrencStage

/-- `COMPRESS` (46_sequencer.md R229). -/
def execCompress (s : State) : Host.Outcome State Fault Refusal :=
  issue guardOpen compressStage s

/-- The two stages of the decompression flow (46_sequencer.md R230). -/
def decompressStage (s : State) : Stage :=
  (hdrdecStage s).andThen unpackStage

/-- `DECOMPRESS` (46_sequencer.md R230). -/
def execDecompress (s : State) : Host.Outcome State Fault Refusal :=
  issue guardOpen decompressStage s

end Sys2Proof.Machine
end

