-- ==== Sys2Proof/Machine/HostAccess.lean ====
section
/-! DEFINITION. The host transactions (20_memory.md R60 to R69): reset, the writes of `CMD` and `IN_PUSH`, every other write, and reads. -/

namespace Sys2Proof.Machine

/-- The 107-bit word of a node record, bit 106 first: kind, minsym, right, left, sym, weight (20_memory.md R69). -/
def Node.word (n : Node) : BitVec 107 :=
  (match n.kind with | .leaf => 0#1 | .internal => 1#1) ++ n.minsym ++ n.right ++ n.left ++ n.sym ++ n.weight

/-- A read of register `n` under its "readable when" condition (10_state.md R21); `none` where it is refused. -/
def readRegister (s : State) (n : Nat) : Option Reply :=
  match n with
  | 1 => some ⟨32, s.status⟩
  | 3 => some ⟨64, s.inLen⟩
  | 4 => if s.pv then some ⟨64, s.outLen⟩ else none
  | 5 => if s.mode = .enc && s.hv then some ⟨12, s.hdrLen⟩ else none
  | 6 => if (s.mode = .enc && s.pv) || (s.mode = .dec && s.hv) then some ⟨4, s.fbc⟩ else none
  | 7 => if s.hv then some ⟨64, s.tsize⟩ else none
  | 8 => if s.mode = .dec && s.hv then some ⟨64, s.payOff⟩ else none
  | 9 => if s.tv then some ⟨9, s.nleaf⟩ else none
  | 10 => if s.tv then some ⟨9, s.nnode⟩ else none
  | 11 => if s.tv && !s.te then some ⟨9, s.root⟩ else none
  | 12 => if s.phase = .faulted then some ⟨64, s.finfo⟩ else none
  | _ => none

/-- The reply to a read of one byte. -/
def byteReply (b : Option Byte) : Option Reply :=
  b.map (fun v => ⟨8, v⟩)

/-- Byte `i` of the artifact view `HDR ++ OUT` (20_memory.md R65). -/
def readArtifact (s : State) (i : Nat) : Option Byte :=
  if i < s.hdrLen.toNat then s.hdrBuf.read i
  else if i < s.hdrLen.toNat + s.outLen.toNat then s.outBuf.read (i - s.hdrLen.toNat)
  else none

/-- What a host read returns; `none` where it is refused (20_memory.md R60, R68, R69). -/
def hostRead (s : State) (space : Space) (i : Nat) : Option Reply :=
  match space with
  | .reg => readRegister s i
  | .inbuf => none
  | .outbuf => if s.pv && i < s.outLen.toNat then byteReply (s.outBuf.read i) else none
  | .hdrbuf => if s.mode = .enc && s.hv && i < s.hdrLen.toNat then byteReply (s.hdrBuf.read i) else none
  | .artbuf => if s.phase = .ready && s.mode = .enc then byteReply (readArtifact s i) else none
  | .freq => if s.fv && i < 256 then some ⟨64, s.freq.get (BitVec.ofNat 8 i)⟩ else none
  | .node => if s.tv && i < s.nnode.toNat then s.node[i]?.map (fun n => ⟨107, n.word⟩) else none
  | .code => if s.cv && i < 256 then some ⟨255, s.code.get (BitVec.ofNat 8 i)⟩ else none
  | .clen => if s.cv && i < 256 then some ⟨8, s.clen.get (BitVec.ofNat 8 i)⟩ else none

/-- A write of byte `b` to `IN_PUSH` (20_memory.md R66). -/
def pushInput (s : State) (b : Byte) : State :=
  if s.phase ≠ .notStarted then s.refuse .frozen
  else if s.inLen = s.cfg.inCap then s.refuse .full
  else { s with inBuf := s.inBuf.write s.inLen.toNat b, inLen := s.inLen + 1, lastref := .none }

/-- A write of byte `c` to `CMD` (46_sequencer.md R226): a reserved byte is refused, a command is issued. -/
def writeCommand (s : State) (c : Byte) : Host.Outcome State Fault Refusal :=
  match decode c with
  | .error _ => .next (s.refuse .illegal)
  | .ok i => exec i s

/-- A host write; only `CMD` (register 0) and `IN_PUSH` (register 2) act (20_memory.md R67). -/
def hostWrite (s : State) (space : Space) (index : Nat) (data : Byte) : Host.Outcome State Fault Refusal :=
  match space, index with
  | .reg, 0 => writeCommand s data
  | .reg, 2 => .next (pushInput s data)
  | _, _ => .next s

/-- The accesses allowed while a command runs: a `STATUS` read, and reset (70_reset_and_hazards.md R302, R308; notes/assumptions/6.md). -/
def HostOp.quiet : HostOp → Bool
  | .reset => true
  | .write _ _ _ => false
  | .read space index => space = .reg && index = 1

/-- One host transaction (20_memory.md section 2). -/
def hostTransaction (s : State) (op : HostOp) : Host.Outcome State Fault Refusal :=
  if s.busy && !op.quiet then .fault .hostNotQuiet
  else
    match op with
    | .reset => .next s.cleared
    | .write space index data => hostWrite s space index data
    | .read space index => .next { s with reply := hostRead s space index }

/-- The host's next transaction, and the state without it (20_memory.md R75). -/
def takeTransaction (s : State) : Option (HostOp × State) :=
  match s.hostIn with
  | [] => none
  | op :: ops => some (op, { s with hostIn := ops })

/-- The command byte in the low 8 bits of a word of `nbits` bits (30_encoding.md R91). -/
def wordByte (nbits w : Nat) : Byte :=
  BitVec.ofNat 8 (w % 2 ^ nbits)

end Sys2Proof.Machine
end

