-- ==== Sys2Proof/Machine/Step.lean ====
section
/-! DEFINITION. One step of the machine: the host's next transaction takes effect (20_memory.md R75 (d)). -/

namespace Sys2Proof.Machine

/-- One step. Where the host makes no transaction the engine is idle and keeps all its state (70_reset_and_hazards.md R304,
60_exceptions.md R280; notes/assumptions/3.md). -/
def step (s : State) : Host.Outcome State Fault Refusal :=
  match takeTransaction s with
  | none => .next s
  | some (op, s') => hostTransaction s' op

/-- The state in which the host's next transaction is the `CMD` write of the opcode table's word `w`: that is where this machine takes its next
instruction from (20_memory.md R77). An engine that is idle takes it, so `BUSY` is 0. -/
def State.withFetchWord (s : State) (nbits w : Nat) : State :=
  { s with busy := false, hostIn := .write .reg 0 (wordByte nbits w) :: s.hostIn }

end Sys2Proof.Machine
end

