-- ==== Sys2Proof/Safety.lean ====
section
/-! DEFINITION. What the claims are stated in: the guard table, the invariant of every observable state, the host's view of a state, and the spec's
notions of a path in the tree, of a command sequence and of a well-formed header, each written apart from the functions that compute them. -/

namespace Sys2Proof.Machine

/-- The column "accepted if and only if" of the guard table (46_sequencer.md R226). -/
def Accepted (i : Instr) (s : State) : Prop :=
  match i with
  | .nop => True
  | .clear => True
  | .count => s.phase = .notStarted
  | .hdrdec => s.phase = .notStarted
  | .build => s.phase = .processing ∧ s.fv = true ∧ s.tv = false
  | .derive => s.phase = .processing ∧ s.tv = true ∧ s.cv = false
  | .pack => s.phase = .processing ∧ s.mode = .enc ∧ s.cv = true ∧ s.pv = false
  | .hdrenc => s.phase = .processing ∧ s.mode = .enc ∧ s.pv = true ∧ s.hv = false
  | .unpack => s.phase = .processing ∧ s.mode = .dec ∧ s.hv = true ∧ s.pv = false
  | .compress => s.phase = .notStarted
  | .decompress => s.phase = .notStarted

/-- The invariants (a) to (e) of 10_state.md R45. -/
structure FlagRules (s : State) : Prop where
  notStarted : s.phase = .notStarted ↔
    (s.fv = false ∧ s.tv = false ∧ s.cv = false ∧ s.pv = false ∧ s.hv = false ∧ s.err = .none)
  faulted : s.phase = .faulted ↔ s.err ≠ .none
  ready : s.phase = .ready ↔
    (s.err = .none ∧ ((s.mode = .enc ∧ s.hv = true) ∨ (s.mode = .dec ∧ s.pv = true)))
  tree : s.tv = true → s.fv = true
  codes : s.cv = true → s.tv = true
  encPayload : s.mode = .enc → s.pv = true → s.cv = true
  encHeader : s.mode = .enc → s.hv = true → s.pv = true
  decHeader : s.mode = .dec → (s.hv = true ↔ s.fv = true)
  decPayload : s.mode = .dec → s.pv = true → s.cv = true ∧ s.hv = true
  idle : s.busy = false

/-- A buffer holds exactly the bytes at indices 0 .. n-1 (20_memory.md R61 to R63). -/
abbrev Holds (m : Memory) (n : Nat) : Prop :=
  m.map Prod.fst = List.range n

/-- The buffers: each holds exactly its length in bytes, within its capacity; `OUT` and `HDR` hold nothing before the command that fills them
completes (20_memory.md R61 to R64). -/
structure BufferRules (s : State) : Prop where
  input : Holds s.inBuf s.inLen.toNat
  output : Holds s.outBuf s.outLen.toNat
  header : Holds s.hdrBuf s.hdrLen.toNat
  inputFits : s.inLen.toNat ≤ s.cfg.inCap.toNat
  outputFits : s.outLen.toNat ≤ s.cfg.outCap.toNat
  headerFits : s.hdrLen.toNat ≤ hdrCap
  outputEmpty : s.pv = false → s.outBuf = []
  headerEmpty : ¬ (s.mode = .enc ∧ s.hv = true) → s.hdrBuf = []

/-- The code table of a frequency table: tree, then codes (41_tree_builder.md R132, 42_code_table.md R150). -/
def codesOf (freq : ByteTable Count) : Option CodeTable :=
  deriveCodes (presentSymbols freq).isEmpty (buildTree freq).nodes (rootOf 0 (buildTree freq).queue)

/-- The bytes of `IN`, the empty sequence where one has no value. -/
def State.input (s : State) : List Byte :=
  s.inBytes.getD []

/-- What each valid flag vouches for (10_state.md R35): the state it guards is what the stage that sets it makes of the state before. -/
structure SessionRules (s : State) : Prop where
  encFreq : s.mode = .enc → s.fv = true → s.freq = countBytes s.input
  tree : s.tv = true →
    s.node = (buildTree s.freq).nodes ∧ s.nnode = BitVec.ofNat 9 (buildTree s.freq).nodes.length
      ∧ s.nleaf = BitVec.ofNat 9 (presentSymbols s.freq).length ∧ s.te = (presentSymbols s.freq).isEmpty
      ∧ (s.te = false → s.root = rootOf 0 (buildTree s.freq).queue)
  codes : s.cv = true → codesOf s.freq = some s.codeTable
  encPayload : s.mode = .enc → s.pv = true →
    packBytes s.cfg.outCap s.codeTable s.input = .ok (⟨s.outBuf, s.outLen⟩, s.fbc)
  encHeader : s.mode = .enc → s.hv = true →
    s.hdrBuf = Memory.writeN [] 0 (headerBytes s.freq s.fbc) ∧ s.tsize = BitVec.ofNat 64 (tableSize s.freq)
      ∧ s.hdrLen = BitVec.ofNat 12 (8 + tableSize s.freq)
  decHeader : s.mode = .dec → s.hv = true →
    parseHeader s.input = .ok ⟨s.freq, s.fbc, s.tsize.toNat⟩ ∧ s.payOff = BitVec.ofNat 64 (8 + s.tsize.toNat)
  decPayload : s.mode = .dec → s.pv = true →
    unpackBits s.cfg.outCap s.codeTable 0 0 OutBuffer.empty (payloadBits s.fbc.toNat (s.payloadBytes.getD []))
      = .ok ⟨s.outBuf, s.outLen⟩

/-- The invariant: it holds at reset and every step keeps it (10_state.md R45, R35; 20_memory.md R61 to R63). -/
structure State.Inv (s : State) : Prop where
  flags : FlagRules s
  buffers : BufferRules s
  session : SessionRules s

/-- The state is one in which a session has not started: the input is pushed, nothing else has happened (46_sequencer.md R225). -/
structure Fresh (s : State) (input : List Byte) : Prop where
  inv : s.Inv
  phase : s.phase = .notStarted
  input : s.inBytes = some input

/-- The transaction ends the session: reset, or a `CMD` write of `CLEAR` (46_sequencer.md R225). -/
def endsSession (op : HostOp) : Bool :=
  match op with
  | .reset => true
  | .write space index data => space = .reg && index = 0 && data = 0x01
  | .read _ _ => false

/-- The next transaction ends the session. -/
def State.aboutToEnd (s : State) : Prop :=
  s.hostIn.head?.any endsSession = true

/-- What the host can tell of two states, with the input the engine will run on: every read returns the same (20_memory.md R68). -/
structure SameView (s t : State) : Prop where
  reads : ∀ space i, hostRead s space i = hostRead t space i
  input : s.inBuf = t.inBuf
  cfg : s.cfg = t.cfg
  hostIn : s.hostIn = t.hostIn
  reply : s.reply = t.reply

/-- Commands issued one after the other, stopping where the machine stops. -/
def runCommands : List Instr → State → Host.Outcome State Fault Refusal
  | [], s => .next s
  | i :: is, s =>
    match exec i s with
    | .next t => runCommands is t
    | .fault f => .fault f
    | .refused r => .refused r

/-- The leaf of symbol `x` is reached from node `i` by these branches: false to `left`, true to `right` (42_code_table.md R151). -/
inductive PathTo (nodes : List Node) : Nat → List Bool → Byte → Prop where
  | leaf {i : Nat} {n : Node} (at_i : nodes[i]? = some n) (kind : n.kind = .leaf) : PathTo nodes i [] n.sym
  | left {i : Nat} {n : Node} {bits : List Bool} {x : Byte} (at_i : nodes[i]? = some n) (kind : n.kind = .internal)
      (rest : PathTo nodes n.left.toNat bits x) : PathTo nodes i (false :: bits) x
  | right {i : Nat} {n : Node} {bits : List Bool} {x : Byte} (at_i : nodes[i]? = some n) (kind : n.kind = .internal)
      (rest : PathTo nodes n.right.toNat bits x) : PathTo nodes i (true :: bits) x

/-- The number of bits the code words of an input have (43_bit_packer.md R171, B). -/
def bitCount (t : CodeTable) (bs : List Byte) : Nat :=
  (bs.map (fun b => (t.clen.get b).toNat)).sum

/-- The bitstream of an input (30_encoding.md R104). -/
def bitstream (t : CodeTable) (bs : List Byte) : List Bool :=
  bs.flatMap (codeWord t)

/-- The 8 bytes from index `a`, most significant first, as a number (00_scope.md R14, `BE64`). -/
def field64 (bs : List Byte) (a : Nat) : Nat :=
  ((List.range 8).map (fun k => (bs.getD (a + k) 0).toNat * 2 ^ (8 * (7 - k)))).sum

/-- The value of entry `k` of a header (30_encoding.md R97). -/
def entryValue (bs : List Byte) (k : Nat) : Byte :=
  bs.getD (9 + 9 * k) 0

/-- The count of entry `k` of a header (30_encoding.md R97). -/
def entryCount (bs : List Byte) (k : Nat) : Nat :=
  field64 bs (10 + 9 * k)

/-- Entry `k` breaks the ascending order or has count 0 (45_header_codec.md R207). -/
def entryBad (bs : List Byte) (k : Nat) : Prop :=
  (0 < k ∧ (entryValue bs k).toNat ≤ (entryValue bs (k - 1)).toNat) ∨ entryCount bs k = 0

/-- The first two length checks and the form of table_size pass (45_header_codec.md R203, checks 1 to 3). -/
def sizesGood (bs : List Byte) : Prop :=
  8 ≤ bs.length ∧ field64 bs 0 % 9 = 1 ∧ 8 + field64 bs 0 ≤ bs.length

/-- The number of entries table_size claims (30_encoding.md R97). -/
def entryTotal (bs : List Byte) : Nat :=
  (field64 bs 0 - 1) / 9

/-- The state a fault of the data leaves (60_exceptions.md R274), written out. -/
def faultState (s : State) (code : ErrCode) (info : Nat) : State :=
  { s with err := code, finfo := BitVec.ofNat 64 info, phase := .faulted, lastref := .none }

end Sys2Proof.Machine
end

