-- ==== Sys2Proof/Certificates/Slice0/Obligations.lean ====
section
/-! DEFINITION. The statements for the provers. Each docstring names the rule of spec/ it formalises. -/

open Sys2Proof Sys2Proof.Machine

/-! ### The command byte -/

/-- 30_encoding.md R96: command bytes written out bit by bit, group in bits 7:4 and function in bits 3:0, decode to their commands. -/
def Obligations.CommandTableDecodes : Prop :=
  decode 0b00000000 = .ok .nop ∧ decode 0b00000001 = .ok .clear ∧ decode 0b00010000 = .ok .count
    ∧ decode 0b00010001 = .ok .build ∧ decode 0b00010010 = .ok .derive ∧ decode 0b00010011 = .ok .pack
    ∧ decode 0b00010100 = .ok .hdrenc ∧ decode 0b00011000 = .ok .hdrdec ∧ decode 0b00011001 = .ok .unpack
    ∧ decode 0b00100000 = .ok .compress ∧ decode 0b00100001 = .ok .decompress

/-- 30_encoding.md R94: decoding is by exact match of all eight bits, so each command has exactly one byte. -/
def Obligations.DecodeAndEncodeAgree : Prop :=
  (∀ i, decode (encode i) = .ok i) ∧ ∀ b i, decode b = .ok i → b = encode i

/-- The byte is in the list of reserved values (30_encoding.md R95). -/
def reservedByte (b : Byte) : Prop :=
  (0x02 ≤ b.toNat ∧ b.toNat ≤ 0x0F) ∨ (0x15 ≤ b.toNat ∧ b.toNat ≤ 0x17) ∨ (0x1A ≤ b.toNat ∧ b.toNat ≤ 0x1F)
    ∨ (0x22 ≤ b.toNat ∧ b.toNat ≤ 0xFF)

/-- 30_encoding.md R95: a `CMD` write of a reserved value is refused with `R_ILLEGAL`, no other state changes, in any phase; exactly the values the rule
lists are reserved. -/
def Obligations.ReservedByteRefused : Prop :=
  (∀ (s : State) ops b, s.busy = false → s.hostIn = .write .reg 0 b :: ops → reservedByte b →
    step s = .next { s with hostIn := ops, lastref := .illegal })
  ∧ ∀ b, reservedByte b ↔ ∀ i, decode b ≠ .ok i

/-- 10_state.md R39: a `CMD` write of a command's byte issues that command; a state made by `withFetchWord` is one whose next step does so for the table's word
(notes/assumptions/3.md). -/
def Obligations.StepRunsDecodedCommand : Prop :=
  (∀ (s : State) ops b i, s.busy = false → s.hostIn = .write .reg 0 b :: ops → decode b = .ok i →
    step s = exec i { s with hostIn := ops })
  ∧ ∀ (s : State) w i, decodeTableWord 8 w = some i → step (s.withFetchWord 8 w) = exec i { s with busy := false }

/-! ### The guard table and the control commands -/

/-- 46_sequencer.md R226: a command whose guard is false is refused with `R_SEQ`, and a refused command changes nothing but `LASTREF`. -/
def Obligations.GuardFalseRefuses : Prop :=
  ∀ i s, ¬ Accepted i s → exec i s = .next { s with lastref := .seq }

/-- 46_sequencer.md R227: `NOP` is accepted in every phase and writes `LASTREF` alone. -/
def Obligations.NopWritesOnlyLastref : Prop :=
  decode 0x00 = .ok .nop ∧ ∀ s, exec .nop s = .next { s with lastref := .none }

/-- 10_state.md R48: reset and an accepted `CLEAR` lead to the same state, that of R47. The model's own fields are kept, and what a register without a
value holds is the model's choice (notes/assumptions/1.md, 10.md). -/
def Obligations.ClearGivesResetState : Prop :=
  ∀ s : State, exec .clear s = .next { State.reset with cfg := s.cfg, hostIn := s.hostIn, reply := s.reply }
    ∧ hostTransaction s .reset = exec .clear s

/-- 70_reset_and_hazards.md R301: after reset `STATUS` reads 0 and `IN_LEN` reads 0, and every other read is refused. -/
def Obligations.ReadsAfterReset : Prop :=
  ∀ space i, hostRead State.reset space i =
    if space = .reg ∧ i = 1 then some ⟨32, 0⟩ else if space = .reg ∧ i = 3 then some ⟨64, 0⟩ else none

/-! ### The invariant, and what every step does -/

/-- The invariant holds after reset, whatever the capacities are, and the reset buffers are in canonical form. The reset state's
values are 10_state.md R47's, and the model's where that rule gives none (notes/assumptions/1.md). -/
def Obligations.ResetMeetsInvariant : Prop :=
  (∀ cfg, ({ State.reset with cfg := cfg } : State).Inv)
    ∧ State.reset.inBuf.wf ∧ State.reset.outBuf.wf ∧ State.reset.hdrBuf.wf

/-- 10_state.md R45 and R35, 20_memory.md R61 to R63: every step keeps the invariant. -/
def Obligations.StepKeepsInvariant : Prop :=
  ∀ s s' : State, s.Inv → step s = .next s' → s'.Inv

/-- 46_sequencer.md R233: every command terminates; the model never stops in a state that meets the invariant, so no host transaction is left without an
answer. -/
def Obligations.StepAlwaysAnswers : Prop :=
  ∀ s : State, s.Inv → ∃ s', step s = .next s'

/-- 93_implementation_defined.md item 18: no result depends on state that has no value. Two states that look the same to the host, and have the same input,
still look the same after a step, whatever their unreadable registers and tables hold. -/
def Obligations.UnreadableStateNeverShows : Prop :=
  ∀ s t s' : State, s.Inv → t.Inv → SameView s t → step s = .next s' → ∃ t', step t = .next t' ∧ SameView s' t'

/-- 60_exceptions.md R276: the only exits from `FAULTED` are `CLEAR` and reset, and both discard the session; every other step keeps all of the session.
What a register without a value holds after the session ends is the model's choice (notes/assumptions/1.md, 10.md). -/
def Obligations.FaultedLeftOnlyByClearOrReset : Prop :=
  ∀ s s' : State, s.Inv → s.phase = .faulted → step s = .next s' →
    (¬ s.aboutToEnd → s' = { s with lastref := s'.lastref, hostIn := s'.hostIn, reply := s'.reply })
    ∧ (s.aboutToEnd → s' = { State.reset with cfg := s.cfg, hostIn := s.hostIn.tail, reply := s.reply })

/-- 10_state.md R35, R22: a valid flag is never cleared except by `CLEAR` and reset, what it guards stays as it was produced, and the input is constant once a session
has started. -/
def Obligations.ValidStateIsImmutable : Prop :=
  ∀ s s' : State, s.Inv → ¬ s.aboutToEnd → step s = .next s' →
    (s.fv = true → s'.fv = true ∧ s'.freq = s.freq ∧ s'.mode = s.mode)
    ∧ (s.tv = true → s'.tv = true ∧ s'.node = s.node ∧ s'.nleaf = s.nleaf ∧ s'.nnode = s.nnode ∧ s'.root = s.root ∧ s'.te = s.te)
    ∧ (s.cv = true → s'.cv = true ∧ s'.code = s.code ∧ s'.clen = s.clen)
    ∧ (s.pv = true → s'.pv = true ∧ s'.outBuf = s.outBuf ∧ s'.outLen = s.outLen ∧ s'.fbc = s.fbc)
    ∧ (s.hv = true → s'.hv = true ∧ s'.hdrBuf = s.hdrBuf ∧ s'.hdrLen = s.hdrLen ∧ s'.tsize = s.tsize ∧ s'.payOff = s.payOff
        ∧ s'.fbc = s.fbc)
    ∧ (s.phase ≠ .notStarted → s'.phase ≠ .notStarted ∧ s'.inBuf = s.inBuf ∧ s'.inLen = s.inLen)

/-- 10_state.md R37, R29: `ERR` is non-zero exactly when `PHASE` = FAULTED, and it is sticky; `ERR` and `FINFO` are written only at fault entry, or where the session ends. -/
def Obligations.ErrAndFinfoWrittenOnlyAtFaultEntry : Prop :=
  ∀ s s' : State, s.Inv → step s = .next s' →
    (s'.err ≠ .none ↔ s'.phase = .faulted)
    ∧ (¬ s.aboutToEnd → s.err ≠ .none → s'.err = s.err)
    ∧ (¬ s.aboutToEnd → (s'.err ≠ s.err ∨ s'.finfo ≠ s.finfo) → s.phase ≠ .faulted ∧ s'.phase = .faulted)
    ∧ ((hostRead s' .reg 12).isSome = true ↔ s'.phase = .faulted)

/-! ### Host access -/

/-- 10_state.md R38: what `LASTREF` holds after each kind of host transaction. -/
def Obligations.LastrefRecordsTheLastWrite : Prop :=
  ∀ (s s' : State) op ops, s.busy = false → s.hostIn = op :: ops → step s = .next s' →
    match op with
    | .write .reg 0 b =>
      match decode b with
      | .error _ => s'.lastref = .illegal
      | .ok i => (Accepted i s → s'.lastref = .none) ∧ (¬ Accepted i s → s'.lastref = .seq)
    | .write .reg 2 _ =>
      s'.lastref = if s.phase ≠ .notStarted then .frozen else if s.inLen = s.cfg.inCap then .full else .none
    | .reset => s'.lastref = .none
    | _ => s'.lastref = s.lastref

/-- 20_memory.md R66: a write of byte b to `IN_PUSH`, its three cases, with what the buffer reads afterwards. -/
def Obligations.PushAppendsToInput : Prop :=
  ∀ (s : State) ops b, s.busy = false → s.hostIn = .write .reg 2 b :: ops →
    (s.phase ≠ .notStarted → step s = .next { s with hostIn := ops, lastref := .frozen })
    ∧ (s.phase = .notStarted → s.inLen = s.cfg.inCap → step s = .next { s with hostIn := ops, lastref := .full })
    ∧ (s.phase = .notStarted → s.inLen ≠ s.cfg.inCap →
        ∃ buf, step s = .next { s with hostIn := ops, inBuf := buf, inLen := s.inLen + 1, lastref := .none }
          ∧ buf.read s.inLen.toNat = some b ∧ ∀ a, a ≠ s.inLen.toNat → buf.read a = s.inBuf.read a)

/-- 20_memory.md R67: a write to any other register, or to any other space, is refused with no effect at all. -/
def Obligations.OtherWritesHaveNoEffect : Prop :=
  ∀ (s : State) ops space index b, s.busy = false → s.hostIn = .write space index b :: ops →
    ¬ (space = .reg ∧ (index = 0 ∨ index = 2)) → step s = .next { s with hostIn := ops }

/-- 20_memory.md R68: a read changes no state; the reply is the model's own field. -/
def Obligations.ReadChangesNothing : Prop :=
  ∀ (s : State) ops space index, s.busy = false → s.hostIn = .read space index :: ops →
    step s = .next { s with hostIn := ops, reply := hostRead s space index }

/-- 20_memory.md R60 and 10_state.md R21: a read is answered exactly when the space's condition holds and the index is in its range. -/
def Obligations.ReadAnsweredExactlyWhenReadable : Prop :=
  ∀ (s : State) space i, s.Inv → ((hostRead s space i).isSome = true ↔
    match space with
    | .reg => i = 1 ∨ i = 3 ∨ (i = 4 ∧ s.pv = true) ∨ (i = 5 ∧ s.mode = .enc ∧ s.hv = true)
        ∨ (i = 6 ∧ ((s.mode = .enc ∧ s.pv = true) ∨ (s.mode = .dec ∧ s.hv = true))) ∨ (i = 7 ∧ s.hv = true)
        ∨ (i = 8 ∧ s.mode = .dec ∧ s.hv = true) ∨ (i = 9 ∧ s.tv = true) ∨ (i = 10 ∧ s.tv = true)
        ∨ (i = 11 ∧ s.tv = true ∧ s.te = false) ∨ (i = 12 ∧ s.phase = .faulted)
    | .inbuf => False
    | .outbuf => s.pv = true ∧ i < s.outLen.toNat
    | .hdrbuf => s.mode = .enc ∧ s.hv = true ∧ i < s.hdrLen.toNat
    | .artbuf => s.phase = .ready ∧ s.mode = .enc ∧ i < s.hdrLen.toNat + s.outLen.toNat
    | .freq => s.fv = true ∧ i < 256
    | .node => s.tv = true ∧ i < s.nnode.toNat
    | .code => s.cv = true ∧ i < 256
    | .clen => s.cv = true ∧ i < 256)

/-- 10_state.md R31: the `STATUS` word, field by field at its place, always readable; the bits no field holds are 0. 20_memory.md R69: what a read of a table returns, and
the places of the fields in the 107-bit word of a node. -/
def Obligations.ReadFormats : Prop :=
  (∀ s : State, hostRead s .reg 1 = some ⟨32, s.status⟩ ∧ s.status.toNat =
    (match s.phase with | .notStarted => 0 | .processing => 1 | .ready => 2 | .faulted => 3)
    + 2 ^ 2 * (match s.mode with | .enc => 0 | .dec => 1)
    + 2 ^ 3 * s.fv.toNat + 2 ^ 4 * s.tv.toNat + 2 ^ 5 * s.cv.toNat + 2 ^ 6 * s.pv.toNat + 2 ^ 7 * s.hv.toNat
    + 2 ^ 8 * s.te.toNat + 2 ^ 9 * s.busy.toNat
    + 2 ^ 12 * (match s.err with | .none => 0 | .hdrTrunc => 1 | .hdrTsize => 2 | .hdrFbc => 3 | .hdrEntry => 4 | .bits => 5 | .internal => 8 | .cap => 9)
    + 2 ^ 16 * (match s.lastref with | .none => 0 | .illegal => 1 | .seq => 2 | .full => 3 | .frozen => 4))
  ∧ (∀ (s : State) (x : Byte), (s.fv = true → hostRead s .freq x.toNat = some ⟨64, s.freq.get x⟩)
    ∧ (s.cv = true → hostRead s .code x.toNat = some ⟨255, s.code.get x⟩
        ∧ hostRead s .clen x.toNat = some ⟨8, s.clen.get x⟩))
  ∧ (∀ (s : State) i (n : Node), s.tv = true → i < s.nnode.toNat → s.node[i]? = some n →
      hostRead s .node i = some ⟨107, n.word⟩)
  ∧ ∀ n : Node, n.word.extractLsb' 0 72 = n.weight ∧ n.word.extractLsb' 72 8 = n.sym ∧ n.word.extractLsb' 80 9 = n.left
    ∧ n.word.extractLsb' 89 9 = n.right ∧ n.word.extractLsb' 98 8 = n.minsym
    ∧ n.word.getLsbD 106 = decide (n.kind = .internal)

/-- 20_memory.md R65: the artifact view is the header bytes followed by the payload bytes, defined in `READY` with `MODE` = ENC. -/
def Obligations.ArtifactIsHeaderThenPayload : Prop :=
  ∀ (s : State) i, s.Inv → s.phase = .ready → s.mode = .enc →
    (i < s.hdrLen.toNat → hostRead s .artbuf i = hostRead s .hdrbuf i)
    ∧ (s.hdrLen.toNat ≤ i → i < s.hdrLen.toNat + s.outLen.toNat →
        hostRead s .artbuf i = hostRead s .outbuf (i - s.hdrLen.toNat))
    ∧ (s.hdrLen.toNat + s.outLen.toNat ≤ i → hostRead s .artbuf i = none)

/-- 70_reset_and_hazards.md R308, R302 (notes/assumptions/6.md): with `BUSY` = 1, which no step leaves behind, the model stops on every transaction but a
`STATUS` read and reset. -/
def Obligations.BusyEngineTakesOnlyStatusReadAndReset : Prop :=
  ∀ (s : State) op, s.busy = true →
    (hostTransaction s op = .fault .hostNotQuiet ↔ op ≠ .reset ∧ op ≠ .read .reg 1)
    ∧ hostTransaction s (.read .reg 1) = .next { s with reply := some ⟨32, s.status⟩ }
    ∧ hostTransaction s .reset = .next s.cleared

/-! ### COUNT -/

/-- 40_frequency_counter.md R120, R122: `COUNT` completes, each counter is exactly the number of occurrences of its symbol, and nothing else changes but
the table and the flags named. -/
def Obligations.CountTabulatesInput : Prop :=
  ∀ (s : State) bs, s.phase = .notStarted → s.inBytes = some bs →
    ∃ freq, exec .count s =
        .next { s with freq := freq, mode := .enc, fv := true, phase := .processing, lastref := .none }
      ∧ ∀ x, (freq.get x).toNat = bs.count x

/-- 40_frequency_counter.md R121: after `COUNT` the counters sum to `IN_LEN`, and as many are non-zero as the input has distinct bytes. -/
def Obligations.CountsSumToInputLength : Prop :=
  ∀ (s t : State) bs, s.phase = .notStarted → s.inBytes = some bs → exec .count s = .next t →
    (allBytes.map (fun x => (t.freq.get x).toNat)).sum = t.inLen.toNat
    ∧ (allBytes.filter (fun x => t.freq.get x ≠ 0)).length = bs.dedup.length

/-! ### BUILD -/

/-- 10_state.md R28 with 41_tree_builder.md R135 and R136: `BUILD` completes whatever the counts are; the numbers it writes. -/
def Obligations.BuildCompletesWithTreeNumbers : Prop :=
  ∀ s : State, Accepted .build s →
    ∃ node nleaf nnode root te, exec .build s =
        .next { s with node := node, nleaf := nleaf, nnode := nnode, root := root, te := te, tv := true, lastref := .none }
      ∧ nleaf.toNat = (allBytes.filter (fun x => s.freq.get x ≠ 0)).length ∧ node.length = nnode.toNat
      ∧ (nleaf.toNat = 0 → nnode.toNat = 0 ∧ te = true
          ∧ ∀ t, exec .build s = .next t → hostRead t .reg 11 = none)
      ∧ (0 < nleaf.toNat → nnode.toNat = 2 * nleaf.toNat - 1 ∧ root.toNat = nnode.toNat - 1 ∧ te = false)

/-- 41_tree_builder.md R133: leaves take the first indices in ascending order of their byte value, with the record of R130; every later node is internal, with
`sym` 0 (10_state.md R42). -/
def Obligations.BuildNumbersLeavesFirst : Prop :=
  ∀ s t : State, Accepted .build s → exec .build s = .next t →
    (∀ (k : Nat) (x : Byte), (allBytes.filter (fun x => s.freq.get x ≠ 0))[k]? = some x →
      t.node[k]? = some ⟨.leaf, (s.freq.get x).setWidth 72, x, 0, 0, x⟩)
    ∧ ∀ (k : Nat) (n : Node), t.nleaf.toNat ≤ k → t.node[k]? = some n → n.kind = .internal ∧ n.sym = 0

/-- 41_tree_builder.md R134 (c) and R137: every internal node joins two earlier nodes, the lesser key to the left, with the exact sum of the weights and the
lesser `minsym`. -/
def Obligations.InternalNodesJoinTwoEarlierNodes : Prop :=
  ∀ (s t : State) (i : Nat) (n : Node), Accepted .build s → exec .build s = .next t → t.node[i]? = some n → n.kind = .internal →
    ∃ l r : Node, t.node[n.left.toNat]? = some l ∧ t.node[n.right.toNat]? = some r
      ∧ n.left.toNat < i ∧ n.right.toNat < i ∧ n.left ≠ n.right
      ∧ n.weight.toNat = l.weight.toNat + r.weight.toNat ∧ n.minsym.toNat = min l.minsym.toNat r.minsym.toNat
      ∧ (l.weight.toNat < r.weight.toNat ∨ (l.weight = r.weight ∧ l.minsym.toNat < r.minsym.toNat))

/-- 41_tree_builder.md R134 (d): every node except the root is the child of exactly one internal node, and the root of none. -/
def Obligations.EveryNodeButTheRootHasOneParent : Prop :=
  ∀ (s t : State) (j : Nat), Accepted .build s → exec .build s = .next t → j < t.node.length →
    (((List.range t.node.length).filter (fun i =>
        (t.node[i]?).any (fun n => n.kind = .internal && (n.left.toNat = j || n.right.toNat = j)))).length
      = if j = t.root.toNat then 0 else 1)

/-- 41_tree_builder.md R134 (b): the root's weight is the sum of all the counts, exactly (R137); in encode mode that is `IN_LEN`. -/
def Obligations.RootWeighsAllCounts : Prop :=
  ∀ (s t : State) (n : Node), Accepted .build s → exec .build s = .next t → t.te = false → t.node[t.root.toNat]? = some n →
    n.weight.toNat = (allBytes.map (fun x => (s.freq.get x).toNat)).sum
    ∧ (s.Inv → s.mode = .enc → n.weight.toNat = s.inLen.toNat)

/-- 41_tree_builder.md R131: `PopMin` takes a member no other member comes before, and leaves the others. -/
def Obligations.PopMinTakesTheLeastKey : Prop :=
  ∀ m pq, ((popMin m pq).1 :: (popMin m pq).2).Perm (m :: pq)
    ∧ ∀ x ∈ (popMin m pq).2, ¬ (x.node.weight.toNat < (popMin m pq).1.node.weight.toNat
        ∨ (x.node.weight = (popMin m pq).1.node.weight ∧ x.node.minsym.toNat < (popMin m pq).1.node.minsym.toNat))

/-- 41_tree_builder.md R132: with pairwise different `minsym`, the order the queue is held in cannot influence what `PopMin` returns. -/
def Obligations.QueueOrderPlaysNoPart : Prop :=
  ∀ m pq m' pq', (m :: pq).Perm (m' :: pq') → ((m :: pq).map (fun x => x.node.minsym)).Nodup →
    (popMin m pq).1 = (popMin m' pq').1 ∧ (popMin m pq).2.Perm (popMin m' pq').2

/-! ### DERIVE and DecodeStep -/

/-- 42_code_table.md R150, R151, R153: `DERIVE` completes; a leaf at depth 1 or more gets the branches of its path, a symbol that is no leaf gets nothing;
nothing changes but the code table and its flag. -/
def Obligations.DeriveRecordsPaths : Prop :=
  ∀ s : State, s.Inv → Accepted .derive s →
    ∃ code clen, exec .derive s = .next { s with code := code, clen := clen, cv := true, lastref := .none }
      ∧ (∀ x, s.freq.get x = 0 → code.get x = 0 ∧ clen.get x = 0)
      ∧ ∀ x, s.freq.get x ≠ 0 → ∃ p, PathTo s.node s.root.toNat p x ∧ p.length ≤ 255
          ∧ (p ≠ [] → (clen.get x).toNat = p.length ∧ ∀ i, (code.get x).getLsbD i = p.getD i false)

/-- 42_code_table.md R152: the tree of one leaf gives that leaf the 1-bit code 0 and gives no other symbol a code. -/
def Obligations.SingleLeafGetsOneBitCode : Prop :=
  ∀ s t : State, s.Inv → Accepted .derive s → s.nleaf.toNat = 1 → exec .derive s = .next t →
    ∃ x, s.freq.get x ≠ 0 ∧ t.code.get x = 0 ∧ t.clen.get x = 1 ∧ ∀ y, y ≠ x → t.code.get y = 0 ∧ t.clen.get y = 0

/-- 10_state.md R43: what a valid code table holds for present and for absent symbols. -/
def Obligations.CodeTableEntriesWellFormed : Prop :=
  ∀ s : State, s.Inv → s.cv = true → ∀ x,
    (s.clen.get x = 0 ↔ s.freq.get x = 0) ∧ (s.clen.get x = 0 → s.code.get x = 0)
    ∧ ∀ i, (s.clen.get x).toNat ≤ i → (s.code.get x).getLsbD i = false

/-- 42_code_table.md R154: the prefix-free property of every valid code table. -/
def Obligations.CodesArePrefixFree : Prop :=
  ∀ s : State, s.Inv → s.cv = true → ∀ x y, x ≠ y → s.freq.get x ≠ 0 → s.freq.get y ≠ 0 →
    ¬ ((s.clen.get x).toNat ≤ (s.clen.get y).toNat
        ∧ (s.code.get y).toNat % 2 ^ (s.clen.get x).toNat = (s.code.get x).toNat)

/-- 42_code_table.md R156: `DecodeStep` returns `Match` exactly for the symbol whose entry is the pair. -/
def Obligations.DecodeStepMatchesExactEntry : Prop :=
  ∀ s : State, s.Inv → s.cv = true → ∀ len code x, 1 ≤ len →
    (decodeStep s.codeTable len code = some x ↔ (s.clen.get x).toNat = len ∧ (s.code.get x).toNat = code)

/-! ### PACK -/

/-- 43_bit_packer.md R170 to R172, R175 (a) and 30_encoding.md R104: `PACK` completes where every input byte has a code and the payload fits; the payload is the
bitstream, bit k at bit k mod 8 of byte k div 8, padding 0; `OUT` holds no other byte; nothing else changes. -/
def Obligations.PackEmitsTheBitstream : Prop :=
  ∀ (s : State) bs, Accepted .pack s → s.inBytes = some bs → (∀ b ∈ bs, s.clen.get b ≠ 0) →
    (bitCount s.codeTable bs + 7) / 8 ≤ s.cfg.outCap.toNat →
    ∃ buf len fbc, exec .pack s =
        .next { s with outBuf := buf, outLen := len, fbc := fbc, pv := true, lastref := .none }
      ∧ len.toNat = (bitCount s.codeTable bs + 7) / 8
      ∧ fbc.toNat = (if bitCount s.codeTable bs = 0 then 0
          else if bitCount s.codeTable bs % 8 ≠ 0 then bitCount s.codeTable bs % 8 else 8)
      ∧ (∀ a, len.toNat ≤ a → buf.read a = none)
      ∧ ∀ a, a < len.toNat → ∃ v, buf.read a = some v
          ∧ ∀ j, j < 8 → v.getLsbD j = (bitstream s.codeTable bs).getD (8 * a + j) false

/-- 43_bit_packer.md R174 with 20_memory.md R64: a payload that does not fit faults with `E_CAP`, and the fault entry of 60_exceptions.md R274 is all that happens. That `OUT` keeps
its bytes from before, which cannot be read, is the model's choice (notes/assumptions/7.md). -/
def Obligations.PackCapacityFault : Prop :=
  ∀ (s : State) bs, Accepted .pack s → s.inBytes = some bs → (∀ b ∈ bs, s.clen.get b ≠ 0) →
    s.cfg.outCap.toNat < (bitCount s.codeTable bs + 7) / 8 →
    exec .pack s = .next (faultState s .cap s.cfg.outCap.toNat)

/-- 43_bit_packer.md R173, 60_exceptions.md R267: `E_INTERNAL` cannot happen in this engine. -/
def Obligations.InternalFaultUnreachable : Prop :=
  ∀ s s' : State, s.Inv → s.err ≠ .internal → step s = .next s' → s'.err ≠ .internal

/-! ### HDRENC and HDRDEC -/

/-- 45_header_codec.md R200, R201 and 30_encoding.md R97: `HDRENC` completes; every byte of the header; nothing else changes. -/
def Obligations.HdrencWritesTheLayout : Prop :=
  ∀ (s : State) (present : List Byte), present = allBytes.filter (fun x => s.freq.get x ≠ 0) → Accepted .hdrenc s →
    ∃ buf len tsize, exec .hdrenc s =
        .next { s with hdrBuf := buf, hdrLen := len, tsize := tsize, hv := true, phase := .ready, lastref := .none }
      ∧ tsize.toNat = 1 + 9 * present.length ∧ len.toNat = 9 + 9 * present.length
      ∧ (∀ a, a < 8 → (buf.read a).map BitVec.toNat = some (tsize.toNat / 256 ^ (7 - a) % 256))
      ∧ buf.read 8 = some (s.fbc.setWidth 8)
      ∧ (∀ (k : Nat) (x : Byte), present[k]? = some x → buf.read (9 + 9 * k) = some x
          ∧ ∀ a, a < 8 → (buf.read (10 + 9 * k + a)).map BitVec.toNat
              = some ((s.freq.get x).toNat / 256 ^ (7 - a) % 256))
      ∧ ∀ a, len.toNat ≤ a → buf.read a = none

/-- 45_header_codec.md R204, R205 in the order of R203: a stream too short, or a table_size no encoder can write. That the state the stage was filling keeps
its values from before, which cannot be read, is the model's choice (notes/assumptions/7.md). -/
def Obligations.HdrdecSizeFaults : Prop :=
  ∀ (s : State) bs, s.phase = .notStarted → s.inBytes = some bs →
    (bs.length < 8 → exec .hdrdec s = .next (faultState { s with mode := .dec } .hdrTrunc bs.length))
    ∧ (8 ≤ bs.length → (field64 bs 0 = 0 ∨ (field64 bs 0 - 1) % 9 ≠ 0) →
        exec .hdrdec s = .next (faultState { s with mode := .dec } .hdrTsize 0))
    ∧ (8 ≤ bs.length → field64 bs 0 ≠ 0 → (field64 bs 0 - 1) % 9 = 0 → bs.length < 8 + field64 bs 0 →
        exec .hdrdec s = .next (faultState { s with mode := .dec } .hdrTrunc bs.length))

/-- 45_header_codec.md R206, R207, R208 in the order of R203: a bit count above 8; the first bad entry; a bit count against the payload.
That `FREQ` keeps its values from before, which cannot be read, is the model's choice (notes/assumptions/7.md). -/
def Obligations.HdrdecFieldFaults : Prop :=
  ∀ (s : State) bs, s.phase = .notStarted → s.inBytes = some bs → sizesGood bs →
    (8 < (bs.getD 8 0).toNat → exec .hdrdec s = .next (faultState { s with mode := .dec } .hdrFbc 8))
    ∧ (∀ k, (bs.getD 8 0).toNat ≤ 8 → k < entryTotal bs → entryBad bs k → (∀ j, j < k → ¬ entryBad bs j) →
        exec .hdrdec s = .next (faultState { s with mode := .dec } .hdrEntry (9 + 9 * k)))
    ∧ ((bs.getD 8 0).toNat ≤ 8 → (∀ j, j < entryTotal bs → ¬ entryBad bs j) →
        ¬ (bs.length = 8 + field64 bs 0 ↔ bs.getD 8 0 = 0) →
        exec .hdrdec s = .next (faultState { s with mode := .dec } .hdrFbc 8))

/-- 45_header_codec.md R202, R209: a header that passes every check is decoded; the table, the bit count, the offset; nothing else changes. -/
def Obligations.HdrdecDecodesTheHeader : Prop :=
  ∀ (s : State) bs, s.phase = .notStarted → s.inBytes = some bs → sizesGood bs → (bs.getD 8 0).toNat ≤ 8 →
    (∀ j, j < entryTotal bs → ¬ entryBad bs j) → (bs.length = 8 + field64 bs 0 ↔ bs.getD 8 0 = 0) →
    ∃ freq tsize fbc payOff, exec .hdrdec s =
        .next { s with mode := .dec, freq := freq, tsize := tsize, fbc := fbc, payOff := payOff, fv := true, hv := true,
                       phase := .processing, lastref := .none }
      ∧ tsize.toNat = field64 bs 0 ∧ payOff.toNat = 8 + field64 bs 0 ∧ fbc.toNat = (bs.getD 8 0).toNat
      ∧ (∀ j, j < entryTotal bs → (freq.get (entryValue bs j)).toNat = entryCount bs j)
      ∧ ∀ x, (∀ j, j < entryTotal bs → entryValue bs j ≠ x) → freq.get x = 0

/-- 45_header_codec.md R200, R202, R207: decoding an encoded header gives back its table and bit count, and encoding a decoded header gives back its bytes. -/
def Obligations.HeaderDecodeAndEncodeAgree : Prop :=
  (∀ freq (fbc : BitVec 4) (payload : List Byte), fbc.toNat ≤ 8 → (payload = [] ↔ fbc = 0) →
    parseHeader (headerBytes freq fbc ++ payload) = .ok ⟨freq, fbc, tableSize freq⟩)
  ∧ ∀ bs h, parseHeader bs = .ok h → headerBytes h.freq h.fbc = bs.take (8 + h.tsize)

/-! ### UNPACK -/

/-- 44_bit_unpacker.md R185, R188: where the bits read spell code words, `UNPACK` completes and the output is the sequence of symbols matched; the tree and
the code table are those of `FREQ`; nothing else changes. -/
def Obligations.UnpackEmitsTheSymbolsSpelled : Prop :=
  ∀ (s : State) bs tab (xs : List Byte), s.Inv → Accepted .unpack s → s.payloadBytes = some bs → codesOf s.freq = some tab →
    payloadBits s.fbc.toNat bs = xs.flatMap (codeWord tab) → (∀ x ∈ xs, s.freq.get x ≠ 0) →
    xs.length ≤ s.cfg.outCap.toNat →
    ∃ node nleaf nnode root te buf len, exec .unpack s =
        .next { s with node := node, nleaf := nleaf, nnode := nnode, root := root, te := te, tv := true,
                       code := tab.code, clen := tab.clen, cv := true, outBuf := buf, outLen := len, pv := true,
                       phase := .ready, lastref := .none }
      ∧ node = (buildTree s.freq).nodes ∧ len.toNat = xs.length ∧ ∀ a, buf.read a = xs[a]?

/-- 44_bit_unpacker.md R189: where the bits after the last symbol matched never complete a code word, `UNPACK` raises `E_BITS` with the number of symbols decoded;
the tree and the code table stay set, `PV` stays 0. -/
def Obligations.UnpackExhaustionFault : Prop :=
  ∀ (s t : State) bs tab (xs : List Byte) (rest : List Bool), s.Inv → Accepted .unpack s → s.payloadBytes = some bs → codesOf s.freq = some tab →
    payloadBits s.fbc.toNat bs = xs.flatMap (codeWord tab) ++ rest → (∀ x ∈ xs, s.freq.get x ≠ 0) →
    xs.length ≤ s.cfg.outCap.toNat → rest ≠ [] →
    (∀ x n, s.freq.get x ≠ 0 → codeWord tab x ≠ rest.take n) → exec .unpack s = .next t →
    t.err = .bits ∧ t.finfo.toNat = xs.length ∧ t.phase = .faulted ∧ t.lastref = .none
      ∧ t.fv = true ∧ t.tv = true ∧ t.cv = true ∧ t.pv = false ∧ t.hv = true ∧ t.freq = s.freq

/-- 20_memory.md R64 in `UNPACK`: one symbol more than `OUT_CAP` raises `E_CAP`, whatever bits follow (60_exceptions.md R273). -/
def Obligations.UnpackCapacityFault : Prop :=
  ∀ (s t : State) bs tab (xs : List Byte) (rest : List Bool), s.Inv → Accepted .unpack s → s.payloadBytes = some bs → codesOf s.freq = some tab →
    payloadBits s.fbc.toNat bs = xs.flatMap (codeWord tab) ++ rest → (∀ x ∈ xs, s.freq.get x ≠ 0) →
    xs.length = s.cfg.outCap.toNat + 1 → exec .unpack s = .next t →
    t.err = .cap ∧ t.finfo = s.cfg.outCap ∧ t.phase = .faulted ∧ t.lastref = .none
      ∧ t.fv = true ∧ t.tv = true ∧ t.cv = true ∧ t.pv = false ∧ t.hv = true

/-- 44_bit_unpacker.md R190: an empty payload completes with no output whatever the table holds; a payload under an empty table is `E_BITS(0)`. -/
def Obligations.UnpackEmptyCases : Prop :=
  ∀ s t : State, s.Inv → Accepted .unpack s → exec .unpack s = .next t →
    (s.payOff = s.inLen → t.phase = .ready ∧ t.pv = true ∧ t.outLen = 0 ∧ t.outBuf = [] ∧ t.lastref = .none)
    ∧ (s.payOff ≠ s.inLen → (∀ x, s.freq.get x = 0) →
        t.phase = .faulted ∧ t.err = .bits ∧ t.finfo = 0 ∧ t.pv = false ∧ t.lastref = .none)

/-- 44_bit_unpacker.md R187: the bits `FBC` .. 7 of the last payload byte are ignored whatever their value. -/
def Obligations.UnpackIgnoresPadding : Prop :=
  ∀ (s t : State) b b' buf, s.Inv → Accepted .unpack s → s.payOff.toNat < s.inLen.toNat →
    s.inBuf.read (s.inLen.toNat - 1) = some b → (∀ k, k < s.fbc.toNat → b.getLsbD k = b'.getLsbD k) →
    buf = s.inBuf.write (s.inLen.toNat - 1) b' → exec .unpack s = .next t →
    exec .unpack { s with inBuf := buf } = .next { t with inBuf := buf }

/-- 44_bit_unpacker.md R186: whether the build and derive stages run inside `UNPACK` or before it cannot be observed in the result. -/
def Obligations.UnpackRebuildsWhatIsMissing : Prop :=
  ∀ s : State, s.Inv → Accepted .unpack s →
    (s.tv = false → runCommands [.build, .unpack] s = exec .unpack s ∧ runCommands [.build, .derive, .unpack] s = exec .unpack s)
    ∧ (s.tv = true → s.cv = false → runCommands [.derive, .unpack] s = exec .unpack s)

/-! ### The composite commands -/

/-- 46_sequencer.md R229, R231: `COMPRESS` has exactly the effect of its five stage commands, or of the four up to the one that faults. -/
def Obligations.CompressIsItsFiveStages : Prop :=
  ∀ s t : State, s.Inv → s.phase = .notStarted → exec .compress s = .next t →
    (t.phase = .ready ∧ runCommands [.count, .build, .derive, .pack, .hdrenc] s = .next t
      ∧ t.mode = .enc ∧ t.fv = true ∧ t.tv = true ∧ t.cv = true ∧ t.pv = true ∧ t.hv = true)
    ∨ (t.phase = .faulted ∧ runCommands [.count, .build, .derive, .pack] s = .next t
      ∧ t.mode = .enc ∧ t.fv = true ∧ t.tv = true ∧ t.cv = true ∧ t.pv = false ∧ t.hv = false)

/-- 46_sequencer.md R230, R231: `DECOMPRESS` has exactly the effect of `HDRDEC` then `UNPACK`, or of `HDRDEC` alone where that faults. -/
def Obligations.DecompressIsItsTwoStages : Prop :=
  ∀ s t : State, s.Inv → s.phase = .notStarted → exec .decompress s = .next t →
    (t.fv = true ∧ t.hv = true ∧ t.tv = true ∧ t.cv = true ∧ t.mode = .dec ∧ runCommands [.hdrdec, .unpack] s = .next t
      ∧ ((t.phase = .ready ∧ t.pv = true) ∨ (t.phase = .faulted ∧ t.pv = false)))
    ∨ (t.fv = false ∧ t.hv = false ∧ t.tv = false ∧ t.cv = false ∧ t.pv = false ∧ t.mode = .dec ∧ t.phase = .faulted
      ∧ exec .hdrdec s = .next t)

/-- 46_sequencer.md R229: a fresh session whose output buffer has room compresses to the end. A code word has at most 255 bits (42_code_table.md R151), so 32 bytes of
`OUT` for each input byte are enough; the artifact's header is that of R200. -/
def Obligations.CompressCompletes : Prop :=
  ∀ (s : State) bs, Fresh s bs → 32 * bs.length ≤ s.cfg.outCap.toNat →
    ∃ t, exec .compress s = .next t ∧ t.phase = .ready ∧ t.mode = .enc ∧ t.err = .none ∧ t.lastref = .none
      ∧ t.inBuf = s.inBuf ∧ t.inLen = s.inLen ∧ t.payOff = s.payOff ∧ t.finfo = s.finfo
      ∧ (∀ x, (t.freq.get x).toNat = bs.count x)
      ∧ t.outLen.toNat = (bitCount t.codeTable bs + 7) / 8 ∧ t.hdrLen.toNat = 9 + 9 * bs.dedup.length

/-- 46_sequencer.md R230 with 45_header_codec.md R200: an artifact, written out as header and payload, is decompressed to the symbols its payload spells. -/
def Obligations.DecompressCompletes : Prop :=
  ∀ (s : State) freq (fbc : BitVec 4) (payload : List Byte) tab (xs : List Byte), Fresh s (headerBytes freq fbc ++ payload) → fbc.toNat ≤ 8 →
    (payload = [] ↔ fbc = 0) → codesOf freq = some tab →
    payloadBits fbc.toNat payload = xs.flatMap (codeWord tab) → (∀ x ∈ xs, freq.get x ≠ 0) →
    xs.length ≤ s.cfg.outCap.toNat →
    ∃ t, exec .decompress s = .next t ∧ t.phase = .ready ∧ t.mode = .dec ∧ t.err = .none ∧ t.lastref = .none
      ∧ t.inBuf = s.inBuf ∧ t.inLen = s.inLen ∧ t.hdrBuf = s.hdrBuf ∧ t.hdrLen = s.hdrLen ∧ t.finfo = s.finfo
      ∧ t.freq = freq ∧ t.fbc = fbc ∧ t.outLen.toNat = xs.length ∧ ∀ a, t.outBuf.read a = xs[a]?

/-- 44_bit_unpacker.md R188, the round-trip law: the artifact of a completed compression, read by the host and pushed into a fresh session, decompresses to the input.
It holds for the empty input too. -/
def Obligations.RoundTrip : Prop :=
  ∀ (s t u : State) (input artifact : List Byte), Fresh s input → exec .compress s = .next t → t.phase = .ready →
    artifact.length = t.hdrLen.toNat + t.outLen.toNat →
    (∀ i b, artifact[i]? = some b → hostRead t .artbuf i = some ⟨8, b⟩) →
    Fresh u artifact → input.length ≤ u.cfg.outCap.toNat →
    ∃ v, exec .decompress u = .next v ∧ v.phase = .ready ∧ v.outLen.toNat = input.length
      ∧ ∀ i b, input[i]? = some b → hostRead v .outbuf i = some ⟨8, b⟩

/-! ### Frames -/

/-- Which bytes of the three buffers a command may store to (20_memory.md R44, R61 to R63): none but `CLEAR` stores to `IN`; `PACK`, `UNPACK` and the composite commands store to `OUT`
below the `OUT_LEN` they leave; `HDRENC` and `COMPRESS` store to `HDR` below the `HDR_LEN` they leave; every other byte reads as before. `CLEAR` takes every byte's value (notes/assumptions/2.md). -/
def Obligations.BuffersStoredOnlyByTheirCommands : Prop :=
  ∀ (s t : State) i, s.Inv → exec i s = .next t →
    (i ≠ .clear → (∀ a, t.inBuf.read a = s.inBuf.read a) ∧ t.inLen = s.inLen)
    ∧ (i = .nop ∨ i = .count ∨ i = .build ∨ i = .derive ∨ i = .hdrenc ∨ i = .hdrdec →
        (∀ a, t.outBuf.read a = s.outBuf.read a) ∧ t.outLen = s.outLen)
    ∧ (i = .pack ∨ i = .unpack ∨ i = .compress ∨ i = .decompress →
        ∀ a, t.outLen.toNat ≤ a → t.outBuf.read a = s.outBuf.read a)
    ∧ (i = .nop ∨ i = .count ∨ i = .build ∨ i = .derive ∨ i = .pack ∨ i = .hdrdec ∨ i = .unpack ∨ i = .decompress →
        (∀ a, t.hdrBuf.read a = s.hdrBuf.read a) ∧ t.hdrLen = s.hdrLen)
    ∧ (i = .hdrenc ∨ i = .compress → ∀ a, t.hdrLen.toNat ≤ a → t.hdrBuf.read a = s.hdrBuf.read a)
    ∧ (i = .clear → ∀ a, t.inBuf.read a = none ∧ t.outBuf.read a = none ∧ t.hdrBuf.read a = none)

/-- The registers and tables each command may write; all the others are unchanged (the operands lines of 40 to 46). What `CLEAR` leaves in a register without a
value is the model's choice (notes/assumptions/1.md, 10.md). -/
def Obligations.CommandsWriteOnlyTheirOperands : Prop :=
  ∀ (s t : State) i, exec i s = .next t →
    match i with
    | .nop => t = { s with lastref := t.lastref }
    | .clear => t = { State.reset with cfg := s.cfg, hostIn := s.hostIn, reply := s.reply }
    | .count => t = { s with freq := t.freq, fv := t.fv, mode := t.mode, phase := t.phase, lastref := t.lastref }
    | .build => t = { s with node := t.node, nleaf := t.nleaf, nnode := t.nnode, root := t.root, te := t.te, tv := t.tv,
                             lastref := t.lastref }
    | .derive => t = { s with code := t.code, clen := t.clen, cv := t.cv, lastref := t.lastref }
    | .pack => t = { s with outBuf := t.outBuf, outLen := t.outLen, fbc := t.fbc, pv := t.pv, phase := t.phase, err := t.err,
                            finfo := t.finfo, lastref := t.lastref }
    | .hdrenc => t = { s with hdrBuf := t.hdrBuf, hdrLen := t.hdrLen, tsize := t.tsize, hv := t.hv, phase := t.phase,
                              lastref := t.lastref }
    | .hdrdec => t = { s with freq := t.freq, fbc := t.fbc, tsize := t.tsize, payOff := t.payOff, mode := t.mode, fv := t.fv,
                              hv := t.hv, phase := t.phase, err := t.err, finfo := t.finfo, lastref := t.lastref }
    | .unpack => t = { s with node := t.node, nleaf := t.nleaf, nnode := t.nnode, root := t.root, te := t.te, tv := t.tv,
                              code := t.code, clen := t.clen, cv := t.cv, outBuf := t.outBuf, outLen := t.outLen, pv := t.pv,
                              phase := t.phase, err := t.err, finfo := t.finfo, lastref := t.lastref }
    | .compress => t = { t with inBuf := s.inBuf, inLen := s.inLen, payOff := s.payOff, busy := s.busy, cfg := s.cfg,
                                hostIn := s.hostIn, reply := s.reply }
    | .decompress => t = { t with inBuf := s.inBuf, inLen := s.inLen, hdrBuf := s.hdrBuf, hdrLen := s.hdrLen, busy := s.busy,
                                  cfg := s.cfg, hostIn := s.hostIn, reply := s.reply }

/-- 60_exceptions.md R274 and 10_state.md R45 (f): a command that faults writes `ERR`, `FINFO`, `PHASE` and `LASTREF`, keeps the flags of completed stages, and sets no flag of
its failing stage. That the failing stage's partial writes are discarded is the model's choice (notes/assumptions/7.md). -/
def Obligations.FaultKeepsCompletedStages : Prop :=
  ∀ (s t : State) i, s.Inv → exec i s = .next t → s.phase ≠ .faulted → t.phase = .faulted →
    t.err ≠ .none ∧ t.lastref = .none ∧
    match i with
    | .pack => t = { s with err := t.err, finfo := t.finfo, phase := .faulted, lastref := .none } ∧ s.pv = false
    | .hdrdec => t = { s with mode := .dec, err := t.err, finfo := t.finfo, phase := .faulted, lastref := .none }
    | .unpack => t.fv = true ∧ t.hv = true ∧ t.tv = true ∧ t.cv = true ∧ t.pv = false
    | .compress => t.fv = true ∧ t.tv = true ∧ t.cv = true ∧ t.pv = false ∧ t.hv = false
    | .decompress => (t.fv = false ∧ t.hv = false ∧ t.tv = false ∧ t.cv = false ∧ t.pv = false)
        ∨ (t.fv = true ∧ t.hv = true ∧ t.tv = true ∧ t.cv = true ∧ t.pv = false)
    | _ => False
end

