-- ==== Sys2Proof/Laws/Memory.lean ====
section
/-! SUPPORT. The laws of byte buffers and of tables: a read after a write, the canonical form, and the buffers that hold exactly their length. -/

namespace Sys2Proof

/-! ### Tables -/

@[simp] theorem ByteTable.get_put_same {α : Type} (t : ByteTable α) (x : Byte) (v : α) : (t.put x v).get x = v := by
  simp [ByteTable.get, ByteTable.put]

theorem ByteTable.get_put_other {α : Type} (t : ByteTable α) {x y : Byte} (v : α) (h : x ≠ y) : (t.put x v).get y = t.get y := by
  have hn : x.toNat ≠ y.toNat := fun e => h (BitVec.eq_of_toNat_eq e)
  simp [ByteTable.get, ByteTable.put, hn]

theorem ByteTable.get_put {α : Type} (t : ByteTable α) (x y : Byte) (v : α) :
    (t.put x v).get y = if x = y then v else t.get y := by
  by_cases h : x = y
  · simp [← h]
  · simp [h, ByteTable.get_put_other]

@[simp] theorem ByteTable.get_replicate {α : Type} (v : α) (x : Byte) : ByteTable.get (Vector.replicate 256 v) x = v := by
  simp [ByteTable.get]

theorem ByteTable.ext_get {α : Type} {t u : ByteTable α} (h : ∀ x, t.get x = u.get x) : t = u := by
  apply Vector.ext
  intro i hi
  have := h (BitVec.ofNat 8 i)
  simpa [ByteTable.get, Nat.mod_eq_of_lt hi] using this

/-! ### The list of all symbols -/

@[simp] theorem mem_allBytes (x : Byte) : x ∈ allBytes := by
  simp only [allBytes, List.mem_map, List.mem_range]
  exact ⟨x.toNat, x.isLt, by simp⟩

@[simp] theorem length_allBytes : allBytes.length = 256 := by
  simp [allBytes]

theorem getElem_allBytes (i : Nat) (h : i < allBytes.length) : allBytes[i] = BitVec.ofNat 8 i := by
  simp [allBytes]

end Sys2Proof

namespace Sys2Proof.Machine

/-! ### A read after a write -/

@[simp] theorem Memory.read_nil (i : Nat) : Memory.read [] i = none := rfl

@[simp] theorem Memory.read_write_same (m : Memory) (a : Nat) (b : Byte) : (m.write a b).read a = some b := by
  induction m with
  | nil => simp [Memory.write, Memory.read]
  | cons c m ih =>
    obtain ⟨c, v⟩ := c
    simp only [Memory.write]
    split
    · simp [Memory.read]
    · split
      · simp [Memory.read]
      · rename_i h
        simp [Memory.read, ih, Ne.symm h]

theorem Memory.read_write_other (m : Memory) {a i : Nat} (b : Byte) (h : a ≠ i) : (m.write a b).read i = m.read i := by
  induction m with
  | nil => simp [Memory.write, Memory.read, h]
  | cons c m ih =>
    obtain ⟨c, v⟩ := c
    simp only [Memory.write]
    split
    · simp [Memory.read, h]
    · split
      · rename_i e
        subst e
        simp [Memory.read, h]
      · simp [Memory.read, ih]

/-! ### The canonical form -/

theorem Memory.mem_write {m : Memory} {a : Nat} {b : Byte} {c : Host.Cell} (h : c ∈ m.write a b) : c = (a, b) ∨ c ∈ m := by
  induction m with
  | nil => simpa [Memory.write] using h
  | cons d m ih =>
    obtain ⟨d, v⟩ := d
    simp only [Memory.write] at h
    split at h
    · simpa using h
    · split at h
      · rcases List.mem_cons.mp h with h | h
        · exact .inl h
        · exact .inr (List.mem_cons_of_mem _ h)
      · rcases List.mem_cons.mp h with h | h
        · exact .inr (h ▸ List.mem_cons_self ..)
        · exact (ih h).imp id (List.mem_cons_of_mem _)

theorem Memory.wf_nil : Memory.wf [] := List.Pairwise.nil

/-- A write keeps the canonical form. -/
theorem Memory.wf_write {m : Memory} (a : Nat) (b : Byte) (h : m.wf) : (m.write a b).wf := by
  induction m with
  | nil => simp [Memory.write, Memory.wf]
  | cons d m ih =>
    obtain ⟨d, v⟩ := d
    obtain ⟨hd, hm⟩ := List.pairwise_cons.mp h
    simp only [Memory.write]
    split
    · rename_i lt
      refine List.pairwise_cons.mpr ⟨fun c hc => ?_, h⟩
      rcases List.mem_cons.mp hc with rfl | hc
      · exact lt
      · exact Nat.lt_trans lt (hd c hc)
    · split
      · rename_i e
        subst e
        exact List.pairwise_cons.mpr ⟨hd, hm⟩
      · refine List.pairwise_cons.mpr ⟨fun c hc => ?_, ih hm⟩
        rcases Memory.mem_write hc with rfl | hc
        · simp only
          omega
        · exact hd c hc

/-- A run of writes keeps the canonical form. -/
theorem Memory.wf_writeN {m : Memory} (a : Nat) (bs : List Byte) (h : m.wf) : (m.writeN a bs).wf := by
  induction bs generalizing m a with
  | nil => exact h
  | cons b bs ih => exact ih (a + 1) (Memory.wf_write a b h)

/-- The reset buffers are in canonical form: nothing is listed. -/
theorem reset_buffers_nil : State.reset.inBuf = [] ∧ State.reset.outBuf = [] ∧ State.reset.hdrBuf = [] := ⟨rfl, rfl, rfl⟩

/-! ### Runs of bytes -/

theorem Memory.read_writeN (m : Memory) (a : Nat) (bs : List Byte) (i : Nat) :
    (m.writeN a bs).read i = if a ≤ i ∧ i < a + bs.length then bs[i - a]? else m.read i := by
  induction bs generalizing m a with
  | nil => simp [Memory.writeN]
  | cons b bs ih =>
    simp only [Memory.writeN, ih, List.length_cons]
    by_cases h : a = i
    · subst h
      simp
    · rw [Memory.read_write_other m b h]
      by_cases h1 : a + 1 ≤ i ∧ i < a + 1 + bs.length
      · have h2 : a ≤ i ∧ i < a + (bs.length + 1) := by omega
        have e : i - a = (i - (a + 1)) + 1 := by omega
        rw [if_pos h1, if_pos h2, e, List.getElem?_cons_succ]
      · have h2 : ¬ (a ≤ i ∧ i < a + (bs.length + 1)) := by omega
        rw [if_neg h1, if_neg h2]

/-- `MemRead` answers exactly the bytes it found. -/
theorem Memory.readN_eq_some {m : Memory} {a n : Nat} {bs : List Byte} :
    m.readN a n = some bs ↔ bs.length = n ∧ ∀ i, i < n → m.read (a + i) = bs[i]? := by
  induction n generalizing a bs with
  | zero =>
    simp only [Memory.readN, Option.some.injEq]
    constructor
    · rintro rfl
      simp
    · rintro ⟨h, -⟩
      exact (List.length_eq_zero_iff.mp h).symm
  | succ n ih =>
    simp only [Memory.readN]
    constructor
    · intro h
      split at h
      · cases h
      · split at h
        · cases h
        · rename_i b hb _ cs hcs
          obtain ⟨hl, hr⟩ := ih.mp hcs
          cases h
          refine ⟨by simp [hl], fun i hi => ?_⟩
          cases i with
          | zero => simpa using hb
          | succ i => simpa [Nat.add_assoc, Nat.add_comm 1 i] using hr i (by omega)
    · rintro ⟨hl, hr⟩
      cases bs with
      | nil => simp at hl
      | cons b cs =>
        have h0 : m.read a = some b := by simpa using hr 0 (by omega)
        have hcs : m.readN (a + 1) n = some cs := by
          refine ih.mpr ⟨by simpa using hl, fun i hi => ?_⟩
          have := hr (i + 1) (by omega)
          simpa [Nat.add_assoc, Nat.add_comm 1 i] using this
        simp [h0, hcs]

theorem Memory.length_of_readN {m : Memory} {a n : Nat} {bs : List Byte} (h : m.readN a n = some bs) : bs.length = n :=
  (Memory.readN_eq_some.mp h).1

/-! ### Buffers that hold exactly their length -/

theorem holds_nil : Holds [] 0 := rfl

theorem Holds.length {m : Memory} {n : Nat} (h : Holds m n) : m.length = n := by
  have := congrArg List.length h
  simpa using this

theorem Holds.wf {m : Memory} {n : Nat} (h : Holds m n) : m.wf := by
  have : (m.map Prod.fst).Pairwise (· < ·) := by
    rw [h]
    exact List.pairwise_lt_range
  exact List.pairwise_map.mp this

theorem Memory.write_above {m : Memory} {a : Nat} (b : Byte) (h : ∀ c ∈ m, c.1 < a) : m.write a b = m ++ [(a, b)] := by
  induction m with
  | nil => rfl
  | cons d m ih =>
    obtain ⟨d, v⟩ := d
    have hd : d < a := h _ (List.mem_cons_self ..)
    have h1 : ¬ a < d := by omega
    have h2 : ¬ a = d := by omega
    simp only [Memory.write, if_neg h1, if_neg h2, List.cons_append]
    rw [ih (fun c hc => h c (List.mem_cons_of_mem _ hc))]

/-- A byte appended at the length goes to the end of the list. -/
theorem Holds.write_end {m : Memory} {n : Nat} (b : Byte) (h : Holds m n) : m.write n b = m ++ [(n, b)] := by
  apply Memory.write_above
  intro c hc
  have : c.1 ∈ m.map Prod.fst := List.mem_map_of_mem hc
  rw [h] at this
  exact List.mem_range.mp this

theorem Holds.append {m : Memory} {n : Nat} (b : Byte) (h : Holds m n) : Holds (m.write n b) (n + 1) := by
  have e : m.map Prod.fst = List.range n := h
  rw [h.write_end b]
  show (m ++ [(n, b)]).map Prod.fst = List.range (n + 1)
  rw [List.map_append, e, List.range_succ]
  rfl

theorem Holds.appendN {m : Memory} {n : Nat} (bs : List Byte) (h : Holds m n) : Holds (m.writeN n bs) (n + bs.length) := by
  induction bs generalizing m n with
  | nil => exact h
  | cons b bs ih =>
    have := ih (h.append b)
    simpa [Memory.writeN, Nat.add_assoc, Nat.add_comm 1 bs.length] using this

theorem Memory.read_isSome (m : Memory) (i : Nat) : (m.read i).isSome = true ↔ i ∈ m.map Prod.fst := by
  induction m with
  | nil => simp
  | cons d m ih =>
    obtain ⟨d, v⟩ := d
    simp only [Memory.read, List.map_cons, List.mem_cons]
    by_cases h : d = i
    · simp [h]
    · simp only [if_neg h, ih]
      constructor
      · exact .inr
      · rintro (e | e)
        · exact absurd e.symm h
        · exact e

/-- Such a buffer has a value at exactly the indices below its length. -/
theorem Holds.read_isSome {m : Memory} {n : Nat} (h : Holds m n) (i : Nat) : (m.read i).isSome = true ↔ i < n := by
  have e : m.map Prod.fst = List.range n := h
  rw [Memory.read_isSome, e, List.mem_range]

theorem Holds.read_above {m : Memory} {n : Nat} (h : Holds m n) {i : Nat} (hi : n ≤ i) : m.read i = none := by
  rw [← Option.not_isSome_iff_eq_none, h.read_isSome]
  omega

/-- Every run of bytes inside such a buffer can be read. -/
theorem Holds.readN_isSome {m : Memory} {n : Nat} (h : Holds m n) {a k : Nat} (hk : a + k ≤ n) : (m.readN a k).isSome = true := by
  induction k generalizing a with
  | zero => rfl
  | succ k ih =>
    have h1 := (h.read_isSome a).mpr (by omega)
    have h2 := ih (a := a + 1) (by omega)
    obtain ⟨b, hb⟩ := Option.isSome_iff_exists.mp h1
    obtain ⟨bs, hbs⟩ := Option.isSome_iff_exists.mp h2
    simp [Memory.readN, hb, hbs]

/-! ### Append -/

theorem OutBuffer.append_ok {cap : Len} {o o' : OutBuffer} {b : Byte} :
    o.append cap b = .ok o' ↔ o.len ≠ cap ∧ o' = ⟨o.mem.write o.len.toNat b, o.len + 1⟩ := by
  unfold OutBuffer.append
  split
  · simp_all
  · simp_all [eq_comm]

theorem OutBuffer.append_error {cap : Len} {o : OutBuffer} {b : Byte} {r : Raise} :
    o.append cap b = .error r ↔ o.len = cap ∧ r = ⟨.cap, o.len⟩ := by
  unfold OutBuffer.append
  split
  · simp_all [eq_comm]
  · simp_all

/-- `Append` keeps the output buffer exactly as long as its length says, and within its capacity. -/
theorem OutBuffer.append_holds {cap : Len} {o o' : OutBuffer} {b : Byte} (h : o.append cap b = .ok o')
    (ho : Holds o.mem o.len.toNat) (hc : o.len.toNat ≤ cap.toNat) :
    Holds o'.mem o'.len.toNat ∧ o'.len.toNat ≤ cap.toNat ∧ o'.len.toNat = o.len.toNat + 1 := by
  obtain ⟨hn, rfl⟩ := OutBuffer.append_ok.mp h
  have hlt : o.len.toNat < cap.toNat := by
    have : o.len.toNat ≠ cap.toNat := fun e => hn (BitVec.eq_of_toNat_eq e)
    omega
  have hs : (o.len + 1).toNat = o.len.toNat + 1 := by
    have := cap.isLt
    have h1 : (1 : Len).toNat = 1 := rfl
    rw [BitVec.toNat_add, h1]
    omega
  refine ⟨?_, by rw [hs]; omega, hs⟩
  rw [hs]
  exact ho.append b

end Sys2Proof.Machine
end

