-- ==== Sys2Proof/Laws/State.lean ====
section
/-! SUPPORT. What each update of the state leaves in each field, so that no proof unfolds a record update. -/

namespace Sys2Proof.Machine

/-! ### `State.refuse` -/

@[simp] theorem State.refuse_phase (s : State) (r : RefReason) : (s.refuse r).phase = s.phase := rfl
@[simp] theorem State.refuse_mode (s : State) (r : RefReason) : (s.refuse r).mode = s.mode := rfl
@[simp] theorem State.refuse_fv (s : State) (r : RefReason) : (s.refuse r).fv = s.fv := rfl
@[simp] theorem State.refuse_tv (s : State) (r : RefReason) : (s.refuse r).tv = s.tv := rfl
@[simp] theorem State.refuse_cv (s : State) (r : RefReason) : (s.refuse r).cv = s.cv := rfl
@[simp] theorem State.refuse_pv (s : State) (r : RefReason) : (s.refuse r).pv = s.pv := rfl
@[simp] theorem State.refuse_hv (s : State) (r : RefReason) : (s.refuse r).hv = s.hv := rfl
@[simp] theorem State.refuse_te (s : State) (r : RefReason) : (s.refuse r).te = s.te := rfl
@[simp] theorem State.refuse_busy (s : State) (r : RefReason) : (s.refuse r).busy = s.busy := rfl
@[simp] theorem State.refuse_err (s : State) (r : RefReason) : (s.refuse r).err = s.err := rfl
@[simp] theorem State.refuse_lastref (s : State) (r : RefReason) : (s.refuse r).lastref = r := rfl
@[simp] theorem State.refuse_inLen (s : State) (r : RefReason) : (s.refuse r).inLen = s.inLen := rfl
@[simp] theorem State.refuse_outLen (s : State) (r : RefReason) : (s.refuse r).outLen = s.outLen := rfl
@[simp] theorem State.refuse_hdrLen (s : State) (r : RefReason) : (s.refuse r).hdrLen = s.hdrLen := rfl
@[simp] theorem State.refuse_fbc (s : State) (r : RefReason) : (s.refuse r).fbc = s.fbc := rfl
@[simp] theorem State.refuse_tsize (s : State) (r : RefReason) : (s.refuse r).tsize = s.tsize := rfl
@[simp] theorem State.refuse_payOff (s : State) (r : RefReason) : (s.refuse r).payOff = s.payOff := rfl
@[simp] theorem State.refuse_nleaf (s : State) (r : RefReason) : (s.refuse r).nleaf = s.nleaf := rfl
@[simp] theorem State.refuse_nnode (s : State) (r : RefReason) : (s.refuse r).nnode = s.nnode := rfl
@[simp] theorem State.refuse_root (s : State) (r : RefReason) : (s.refuse r).root = s.root := rfl
@[simp] theorem State.refuse_finfo (s : State) (r : RefReason) : (s.refuse r).finfo = s.finfo := rfl
@[simp] theorem State.refuse_freq (s : State) (r : RefReason) : (s.refuse r).freq = s.freq := rfl
@[simp] theorem State.refuse_node (s : State) (r : RefReason) : (s.refuse r).node = s.node := rfl
@[simp] theorem State.refuse_code (s : State) (r : RefReason) : (s.refuse r).code = s.code := rfl
@[simp] theorem State.refuse_clen (s : State) (r : RefReason) : (s.refuse r).clen = s.clen := rfl
@[simp] theorem State.refuse_inBuf (s : State) (r : RefReason) : (s.refuse r).inBuf = s.inBuf := rfl
@[simp] theorem State.refuse_outBuf (s : State) (r : RefReason) : (s.refuse r).outBuf = s.outBuf := rfl
@[simp] theorem State.refuse_hdrBuf (s : State) (r : RefReason) : (s.refuse r).hdrBuf = s.hdrBuf := rfl
@[simp] theorem State.refuse_cfg (s : State) (r : RefReason) : (s.refuse r).cfg = s.cfg := rfl
@[simp] theorem State.refuse_hostIn (s : State) (r : RefReason) : (s.refuse r).hostIn = s.hostIn := rfl
@[simp] theorem State.refuse_reply (s : State) (r : RefReason) : (s.refuse r).reply = s.reply := rfl

/-! ### `State.accept` -/

@[simp] theorem State.accept_phase (s : State) : (s.accept).phase = s.phase := rfl
@[simp] theorem State.accept_mode (s : State) : (s.accept).mode = s.mode := rfl
@[simp] theorem State.accept_fv (s : State) : (s.accept).fv = s.fv := rfl
@[simp] theorem State.accept_tv (s : State) : (s.accept).tv = s.tv := rfl
@[simp] theorem State.accept_cv (s : State) : (s.accept).cv = s.cv := rfl
@[simp] theorem State.accept_pv (s : State) : (s.accept).pv = s.pv := rfl
@[simp] theorem State.accept_hv (s : State) : (s.accept).hv = s.hv := rfl
@[simp] theorem State.accept_te (s : State) : (s.accept).te = s.te := rfl
@[simp] theorem State.accept_busy (s : State) : (s.accept).busy = s.busy := rfl
@[simp] theorem State.accept_err (s : State) : (s.accept).err = s.err := rfl
@[simp] theorem State.accept_lastref (s : State) : (s.accept).lastref = .none := rfl
@[simp] theorem State.accept_inLen (s : State) : (s.accept).inLen = s.inLen := rfl
@[simp] theorem State.accept_outLen (s : State) : (s.accept).outLen = s.outLen := rfl
@[simp] theorem State.accept_hdrLen (s : State) : (s.accept).hdrLen = s.hdrLen := rfl
@[simp] theorem State.accept_fbc (s : State) : (s.accept).fbc = s.fbc := rfl
@[simp] theorem State.accept_tsize (s : State) : (s.accept).tsize = s.tsize := rfl
@[simp] theorem State.accept_payOff (s : State) : (s.accept).payOff = s.payOff := rfl
@[simp] theorem State.accept_nleaf (s : State) : (s.accept).nleaf = s.nleaf := rfl
@[simp] theorem State.accept_nnode (s : State) : (s.accept).nnode = s.nnode := rfl
@[simp] theorem State.accept_root (s : State) : (s.accept).root = s.root := rfl
@[simp] theorem State.accept_finfo (s : State) : (s.accept).finfo = s.finfo := rfl
@[simp] theorem State.accept_freq (s : State) : (s.accept).freq = s.freq := rfl
@[simp] theorem State.accept_node (s : State) : (s.accept).node = s.node := rfl
@[simp] theorem State.accept_code (s : State) : (s.accept).code = s.code := rfl
@[simp] theorem State.accept_clen (s : State) : (s.accept).clen = s.clen := rfl
@[simp] theorem State.accept_inBuf (s : State) : (s.accept).inBuf = s.inBuf := rfl
@[simp] theorem State.accept_outBuf (s : State) : (s.accept).outBuf = s.outBuf := rfl
@[simp] theorem State.accept_hdrBuf (s : State) : (s.accept).hdrBuf = s.hdrBuf := rfl
@[simp] theorem State.accept_cfg (s : State) : (s.accept).cfg = s.cfg := rfl
@[simp] theorem State.accept_hostIn (s : State) : (s.accept).hostIn = s.hostIn := rfl
@[simp] theorem State.accept_reply (s : State) : (s.accept).reply = s.reply := rfl

/-! ### `State.enterFault` -/

@[simp] theorem State.enterFault_phase (s : State) (r : Raise) : (s.enterFault r).phase = .faulted := rfl
@[simp] theorem State.enterFault_mode (s : State) (r : Raise) : (s.enterFault r).mode = s.mode := rfl
@[simp] theorem State.enterFault_fv (s : State) (r : Raise) : (s.enterFault r).fv = s.fv := rfl
@[simp] theorem State.enterFault_tv (s : State) (r : Raise) : (s.enterFault r).tv = s.tv := rfl
@[simp] theorem State.enterFault_cv (s : State) (r : Raise) : (s.enterFault r).cv = s.cv := rfl
@[simp] theorem State.enterFault_pv (s : State) (r : Raise) : (s.enterFault r).pv = s.pv := rfl
@[simp] theorem State.enterFault_hv (s : State) (r : Raise) : (s.enterFault r).hv = s.hv := rfl
@[simp] theorem State.enterFault_te (s : State) (r : Raise) : (s.enterFault r).te = s.te := rfl
@[simp] theorem State.enterFault_busy (s : State) (r : Raise) : (s.enterFault r).busy = s.busy := rfl
@[simp] theorem State.enterFault_err (s : State) (r : Raise) : (s.enterFault r).err = r.code := rfl
@[simp] theorem State.enterFault_lastref (s : State) (r : Raise) : (s.enterFault r).lastref = .none := rfl
@[simp] theorem State.enterFault_inLen (s : State) (r : Raise) : (s.enterFault r).inLen = s.inLen := rfl
@[simp] theorem State.enterFault_outLen (s : State) (r : Raise) : (s.enterFault r).outLen = s.outLen := rfl
@[simp] theorem State.enterFault_hdrLen (s : State) (r : Raise) : (s.enterFault r).hdrLen = s.hdrLen := rfl
@[simp] theorem State.enterFault_fbc (s : State) (r : Raise) : (s.enterFault r).fbc = s.fbc := rfl
@[simp] theorem State.enterFault_tsize (s : State) (r : Raise) : (s.enterFault r).tsize = s.tsize := rfl
@[simp] theorem State.enterFault_payOff (s : State) (r : Raise) : (s.enterFault r).payOff = s.payOff := rfl
@[simp] theorem State.enterFault_nleaf (s : State) (r : Raise) : (s.enterFault r).nleaf = s.nleaf := rfl
@[simp] theorem State.enterFault_nnode (s : State) (r : Raise) : (s.enterFault r).nnode = s.nnode := rfl
@[simp] theorem State.enterFault_root (s : State) (r : Raise) : (s.enterFault r).root = s.root := rfl
@[simp] theorem State.enterFault_finfo (s : State) (r : Raise) : (s.enterFault r).finfo = r.info := rfl
@[simp] theorem State.enterFault_freq (s : State) (r : Raise) : (s.enterFault r).freq = s.freq := rfl
@[simp] theorem State.enterFault_node (s : State) (r : Raise) : (s.enterFault r).node = s.node := rfl
@[simp] theorem State.enterFault_code (s : State) (r : Raise) : (s.enterFault r).code = s.code := rfl
@[simp] theorem State.enterFault_clen (s : State) (r : Raise) : (s.enterFault r).clen = s.clen := rfl
@[simp] theorem State.enterFault_inBuf (s : State) (r : Raise) : (s.enterFault r).inBuf = s.inBuf := rfl
@[simp] theorem State.enterFault_outBuf (s : State) (r : Raise) : (s.enterFault r).outBuf = s.outBuf := rfl
@[simp] theorem State.enterFault_hdrBuf (s : State) (r : Raise) : (s.enterFault r).hdrBuf = s.hdrBuf := rfl
@[simp] theorem State.enterFault_cfg (s : State) (r : Raise) : (s.enterFault r).cfg = s.cfg := rfl
@[simp] theorem State.enterFault_hostIn (s : State) (r : Raise) : (s.enterFault r).hostIn = s.hostIn := rfl
@[simp] theorem State.enterFault_reply (s : State) (r : Raise) : (s.enterFault r).reply = s.reply := rfl

/-! ### `State.cleared` -/

@[simp] theorem State.cleared_phase (s : State) : (s.cleared).phase = State.reset.phase := rfl
@[simp] theorem State.cleared_mode (s : State) : (s.cleared).mode = State.reset.mode := rfl
@[simp] theorem State.cleared_fv (s : State) : (s.cleared).fv = State.reset.fv := rfl
@[simp] theorem State.cleared_tv (s : State) : (s.cleared).tv = State.reset.tv := rfl
@[simp] theorem State.cleared_cv (s : State) : (s.cleared).cv = State.reset.cv := rfl
@[simp] theorem State.cleared_pv (s : State) : (s.cleared).pv = State.reset.pv := rfl
@[simp] theorem State.cleared_hv (s : State) : (s.cleared).hv = State.reset.hv := rfl
@[simp] theorem State.cleared_te (s : State) : (s.cleared).te = State.reset.te := rfl
@[simp] theorem State.cleared_busy (s : State) : (s.cleared).busy = State.reset.busy := rfl
@[simp] theorem State.cleared_err (s : State) : (s.cleared).err = State.reset.err := rfl
@[simp] theorem State.cleared_lastref (s : State) : (s.cleared).lastref = State.reset.lastref := rfl
@[simp] theorem State.cleared_inLen (s : State) : (s.cleared).inLen = State.reset.inLen := rfl
@[simp] theorem State.cleared_outLen (s : State) : (s.cleared).outLen = State.reset.outLen := rfl
@[simp] theorem State.cleared_hdrLen (s : State) : (s.cleared).hdrLen = State.reset.hdrLen := rfl
@[simp] theorem State.cleared_fbc (s : State) : (s.cleared).fbc = State.reset.fbc := rfl
@[simp] theorem State.cleared_tsize (s : State) : (s.cleared).tsize = State.reset.tsize := rfl
@[simp] theorem State.cleared_payOff (s : State) : (s.cleared).payOff = State.reset.payOff := rfl
@[simp] theorem State.cleared_nleaf (s : State) : (s.cleared).nleaf = State.reset.nleaf := rfl
@[simp] theorem State.cleared_nnode (s : State) : (s.cleared).nnode = State.reset.nnode := rfl
@[simp] theorem State.cleared_root (s : State) : (s.cleared).root = State.reset.root := rfl
@[simp] theorem State.cleared_finfo (s : State) : (s.cleared).finfo = State.reset.finfo := rfl
@[simp] theorem State.cleared_freq (s : State) : (s.cleared).freq = State.reset.freq := rfl
@[simp] theorem State.cleared_node (s : State) : (s.cleared).node = State.reset.node := rfl
@[simp] theorem State.cleared_code (s : State) : (s.cleared).code = State.reset.code := rfl
@[simp] theorem State.cleared_clen (s : State) : (s.cleared).clen = State.reset.clen := rfl
@[simp] theorem State.cleared_inBuf (s : State) : (s.cleared).inBuf = State.reset.inBuf := rfl
@[simp] theorem State.cleared_outBuf (s : State) : (s.cleared).outBuf = State.reset.outBuf := rfl
@[simp] theorem State.cleared_hdrBuf (s : State) : (s.cleared).hdrBuf = State.reset.hdrBuf := rfl
@[simp] theorem State.cleared_cfg (s : State) : (s.cleared).cfg = s.cfg := rfl
@[simp] theorem State.cleared_hostIn (s : State) : (s.cleared).hostIn = s.hostIn := rfl
@[simp] theorem State.cleared_reply (s : State) : (s.cleared).reply = s.reply := rfl

/-! ### `State.withFetchWord` -/

@[simp] theorem State.withFetchWord_phase (s : State) (nbits w : Nat) : (s.withFetchWord nbits w).phase = s.phase := rfl
@[simp] theorem State.withFetchWord_mode (s : State) (nbits w : Nat) : (s.withFetchWord nbits w).mode = s.mode := rfl
@[simp] theorem State.withFetchWord_fv (s : State) (nbits w : Nat) : (s.withFetchWord nbits w).fv = s.fv := rfl
@[simp] theorem State.withFetchWord_tv (s : State) (nbits w : Nat) : (s.withFetchWord nbits w).tv = s.tv := rfl
@[simp] theorem State.withFetchWord_cv (s : State) (nbits w : Nat) : (s.withFetchWord nbits w).cv = s.cv := rfl
@[simp] theorem State.withFetchWord_pv (s : State) (nbits w : Nat) : (s.withFetchWord nbits w).pv = s.pv := rfl
@[simp] theorem State.withFetchWord_hv (s : State) (nbits w : Nat) : (s.withFetchWord nbits w).hv = s.hv := rfl
@[simp] theorem State.withFetchWord_te (s : State) (nbits w : Nat) : (s.withFetchWord nbits w).te = s.te := rfl
@[simp] theorem State.withFetchWord_busy (s : State) (nbits w : Nat) : (s.withFetchWord nbits w).busy = false := rfl
@[simp] theorem State.withFetchWord_err (s : State) (nbits w : Nat) : (s.withFetchWord nbits w).err = s.err := rfl
@[simp] theorem State.withFetchWord_lastref (s : State) (nbits w : Nat) : (s.withFetchWord nbits w).lastref = s.lastref := rfl
@[simp] theorem State.withFetchWord_inLen (s : State) (nbits w : Nat) : (s.withFetchWord nbits w).inLen = s.inLen := rfl
@[simp] theorem State.withFetchWord_outLen (s : State) (nbits w : Nat) : (s.withFetchWord nbits w).outLen = s.outLen := rfl
@[simp] theorem State.withFetchWord_hdrLen (s : State) (nbits w : Nat) : (s.withFetchWord nbits w).hdrLen = s.hdrLen := rfl
@[simp] theorem State.withFetchWord_fbc (s : State) (nbits w : Nat) : (s.withFetchWord nbits w).fbc = s.fbc := rfl
@[simp] theorem State.withFetchWord_tsize (s : State) (nbits w : Nat) : (s.withFetchWord nbits w).tsize = s.tsize := rfl
@[simp] theorem State.withFetchWord_payOff (s : State) (nbits w : Nat) : (s.withFetchWord nbits w).payOff = s.payOff := rfl
@[simp] theorem State.withFetchWord_nleaf (s : State) (nbits w : Nat) : (s.withFetchWord nbits w).nleaf = s.nleaf := rfl
@[simp] theorem State.withFetchWord_nnode (s : State) (nbits w : Nat) : (s.withFetchWord nbits w).nnode = s.nnode := rfl
@[simp] theorem State.withFetchWord_root (s : State) (nbits w : Nat) : (s.withFetchWord nbits w).root = s.root := rfl
@[simp] theorem State.withFetchWord_finfo (s : State) (nbits w : Nat) : (s.withFetchWord nbits w).finfo = s.finfo := rfl
@[simp] theorem State.withFetchWord_freq (s : State) (nbits w : Nat) : (s.withFetchWord nbits w).freq = s.freq := rfl
@[simp] theorem State.withFetchWord_node (s : State) (nbits w : Nat) : (s.withFetchWord nbits w).node = s.node := rfl
@[simp] theorem State.withFetchWord_code (s : State) (nbits w : Nat) : (s.withFetchWord nbits w).code = s.code := rfl
@[simp] theorem State.withFetchWord_clen (s : State) (nbits w : Nat) : (s.withFetchWord nbits w).clen = s.clen := rfl
@[simp] theorem State.withFetchWord_inBuf (s : State) (nbits w : Nat) : (s.withFetchWord nbits w).inBuf = s.inBuf := rfl
@[simp] theorem State.withFetchWord_outBuf (s : State) (nbits w : Nat) : (s.withFetchWord nbits w).outBuf = s.outBuf := rfl
@[simp] theorem State.withFetchWord_hdrBuf (s : State) (nbits w : Nat) : (s.withFetchWord nbits w).hdrBuf = s.hdrBuf := rfl
@[simp] theorem State.withFetchWord_cfg (s : State) (nbits w : Nat) : (s.withFetchWord nbits w).cfg = s.cfg := rfl
@[simp] theorem State.withFetchWord_hostIn (s : State) (nbits w : Nat) : (s.withFetchWord nbits w).hostIn = .write .reg 0 (wordByte nbits w) :: s.hostIn := rfl
@[simp] theorem State.withFetchWord_reply (s : State) (nbits w : Nat) : (s.withFetchWord nbits w).reply = s.reply := rfl

/-! ### `buildState` -/

@[simp] theorem buildState_phase (s : State) : (buildState s).phase = s.phase := rfl
@[simp] theorem buildState_mode (s : State) : (buildState s).mode = s.mode := rfl
@[simp] theorem buildState_fv (s : State) : (buildState s).fv = s.fv := rfl
@[simp] theorem buildState_tv (s : State) : (buildState s).tv = true := rfl
@[simp] theorem buildState_cv (s : State) : (buildState s).cv = s.cv := rfl
@[simp] theorem buildState_pv (s : State) : (buildState s).pv = s.pv := rfl
@[simp] theorem buildState_hv (s : State) : (buildState s).hv = s.hv := rfl
@[simp] theorem buildState_te (s : State) : (buildState s).te = (presentSymbols s.freq).isEmpty := rfl
@[simp] theorem buildState_busy (s : State) : (buildState s).busy = s.busy := rfl
@[simp] theorem buildState_err (s : State) : (buildState s).err = s.err := rfl
@[simp] theorem buildState_lastref (s : State) : (buildState s).lastref = s.lastref := rfl
@[simp] theorem buildState_inLen (s : State) : (buildState s).inLen = s.inLen := rfl
@[simp] theorem buildState_outLen (s : State) : (buildState s).outLen = s.outLen := rfl
@[simp] theorem buildState_hdrLen (s : State) : (buildState s).hdrLen = s.hdrLen := rfl
@[simp] theorem buildState_fbc (s : State) : (buildState s).fbc = s.fbc := rfl
@[simp] theorem buildState_tsize (s : State) : (buildState s).tsize = s.tsize := rfl
@[simp] theorem buildState_payOff (s : State) : (buildState s).payOff = s.payOff := rfl
@[simp] theorem buildState_nleaf (s : State) : (buildState s).nleaf = BitVec.ofNat 9 (presentSymbols s.freq).length := rfl
@[simp] theorem buildState_nnode (s : State) : (buildState s).nnode = BitVec.ofNat 9 (buildTree s.freq).nodes.length := rfl
@[simp] theorem buildState_root (s : State) : (buildState s).root = rootOf s.root (buildTree s.freq).queue := rfl
@[simp] theorem buildState_finfo (s : State) : (buildState s).finfo = s.finfo := rfl
@[simp] theorem buildState_freq (s : State) : (buildState s).freq = s.freq := rfl
@[simp] theorem buildState_node (s : State) : (buildState s).node = (buildTree s.freq).nodes := rfl
@[simp] theorem buildState_code (s : State) : (buildState s).code = s.code := rfl
@[simp] theorem buildState_clen (s : State) : (buildState s).clen = s.clen := rfl
@[simp] theorem buildState_inBuf (s : State) : (buildState s).inBuf = s.inBuf := rfl
@[simp] theorem buildState_outBuf (s : State) : (buildState s).outBuf = s.outBuf := rfl
@[simp] theorem buildState_hdrBuf (s : State) : (buildState s).hdrBuf = s.hdrBuf := rfl
@[simp] theorem buildState_cfg (s : State) : (buildState s).cfg = s.cfg := rfl
@[simp] theorem buildState_hostIn (s : State) : (buildState s).hostIn = s.hostIn := rfl
@[simp] theorem buildState_reply (s : State) : (buildState s).reply = s.reply := rfl

/-! ### Updates made twice, and the operands -/

@[simp] theorem State.accept_accept (s : State) : s.accept.accept = s.accept := rfl
@[simp] theorem State.cleared_accept (s : State) : s.cleared.accept = s.cleared := rfl
@[simp] theorem State.refuse_refuse (s : State) (r q : RefReason) : (s.refuse r).refuse q = s.refuse q := rfl
@[simp] theorem State.accept_inBytes (s : State) : s.accept.inBytes = s.inBytes := rfl
@[simp] theorem State.accept_payloadBytes (s : State) : s.accept.payloadBytes = s.payloadBytes := rfl
@[simp] theorem State.accept_codeTable (s : State) : s.accept.codeTable = s.codeTable := rfl
@[simp] theorem buildState_inBytes (s : State) : (buildState s).inBytes = s.inBytes := rfl
@[simp] theorem buildState_payloadBytes (s : State) : (buildState s).payloadBytes = s.payloadBytes := rfl
@[simp] theorem buildState_codeTable (s : State) : (buildState s).codeTable = s.codeTable := rfl

end Sys2Proof.Machine
end

