-- ==== Sys2Proof/Laws/Ops.lean ====
section
/-! SUPPORT. What each shared operation and each stage can do, said once: provers cite these and do not unfold the definitions. -/

namespace Sys2Proof.Machine

/-! ### The guards -/

theorem guardAlways_eq (s : State) : guardAlways s = true := rfl

theorem guardOpen_iff (s : State) : guardOpen s = true ↔ s.phase = .notStarted := by
  simp [guardOpen]

theorem guardBuild_iff (s : State) : guardBuild s = true ↔ Accepted .build s := by
  simp [guardBuild, Accepted, and_assoc]

theorem guardDerive_iff (s : State) : guardDerive s = true ↔ Accepted .derive s := by
  simp [guardDerive, Accepted, and_assoc]

theorem guardPack_iff (s : State) : guardPack s = true ↔ Accepted .pack s := by
  simp [guardPack, Accepted, and_assoc]

theorem guardHdrenc_iff (s : State) : guardHdrenc s = true ↔ Accepted .hdrenc s := by
  simp [guardHdrenc, Accepted, and_assoc]

theorem guardUnpack_iff (s : State) : guardUnpack s = true ↔ Accepted .unpack s := by
  simp [guardUnpack, Accepted, and_assoc]

/-! ### How a command ends -/

@[simp] theorem Stage.finish_done (s : State) : (Stage.done s).finish = .next s.accept := rfl
@[simp] theorem Stage.finish_raised (r : Raise) (s : State) : (Stage.raised r s).finish = .next (s.enterFault r) := rfl
@[simp] theorem Stage.finish_stuck (f : Fault) : (Stage.stuck f).finish = .fault f := rfl
@[simp] theorem Stage.andThen_done (s : State) (f : State → Stage) : (Stage.done s).andThen f = f s := rfl
@[simp] theorem Stage.andThen_raised (r : Raise) (s : State) (f : State → Stage) :
    (Stage.raised r s).andThen f = .raised r s := rfl
@[simp] theorem Stage.andThen_stuck (e : Fault) (f : State → Stage) : (Stage.stuck e).andThen f = .stuck e := rfl

theorem Stage.andThen_assoc (r : Stage) (f g : State → Stage) : (r.andThen f).andThen g = r.andThen (fun s => (f s).andThen g) := by
  cases r <;> rfl

theorem Stage.finish_next {r : Stage} {t : State} :
    r.finish = .next t ↔ (∃ u, r = .done u ∧ t = u.accept) ∨ ∃ e u, r = .raised e u ∧ t = u.enterFault e := by
  cases r <;> simp [eq_comm]

theorem Stage.finish_not_refused (r : Stage) (q : Refusal) : r.finish ≠ .refused q := by
  cases r <;> simp

theorem Stage.andThen_eq_done {r : Stage} {f : State → Stage} {t : State} :
    r.andThen f = .done t ↔ ∃ u, r = .done u ∧ f u = .done t := by
  cases r <;> simp

theorem Stage.andThen_eq_raised {r : Stage} {f : State → Stage} {e : Raise} {t : State} :
    r.andThen f = .raised e t ↔ r = .raised e t ∨ ∃ u, r = .done u ∧ f u = .raised e t := by
  cases r <;> simp

theorem Stage.andThen_eq_stuck {r : Stage} {f : State → Stage} {e : Fault} :
    r.andThen f = .stuck e ↔ r = .stuck e ∨ ∃ u, r = .done u ∧ f u = .stuck e := by
  cases r <;> simp

theorem issue_of_guard {g : State → Bool} {b : State → Stage} {s : State} (h : g s = true) : issue g b s = (b s).finish := by
  simp [issue, h]

theorem issue_of_not_guard {g : State → Bool} {b : State → Stage} {s : State} (h : ¬ g s = true) :
    issue g b s = .next (s.refuse .seq) := by
  simp [issue, h]

/-- Everything an issued command can do when it answers a next state. -/
theorem issue_next {g : State → Bool} {b : State → Stage} {s t : State} (h : issue g b s = .next t) :
    (¬ g s = true ∧ t = s.refuse .seq) ∨ (g s = true ∧ ∃ u, b s = .done u ∧ t = u.accept)
      ∨ (g s = true ∧ ∃ e u, b s = .raised e u ∧ t = u.enterFault e) := by
  by_cases hg : g s = true
  · rw [issue_of_guard hg, Stage.finish_next] at h
    exact h.elim (fun h => .inr (.inl ⟨hg, h⟩)) (fun h => .inr (.inr ⟨hg, h⟩))
  · rw [issue_of_not_guard hg] at h
    cases h
    exact .inl ⟨hg, rfl⟩

theorem issue_not_refused (g : State → Bool) (b : State → Stage) (s : State) (q : Refusal) : issue g b s ≠ .refused q := by
  unfold issue
  split
  · exact Stage.finish_not_refused _ _
  · simp

/-- No command is refused as an instruction without a meaning. -/
theorem exec_not_refused (i : Instr) (s : State) (q : Refusal) : exec i s ≠ .refused q := by
  cases i
  case nop => exact issue_not_refused guardAlways Stage.done s q
  case clear => exact issue_not_refused guardAlways clearStage s q
  all_goals exact issue_not_refused _ _ _ _

/-! ### An accepted command runs its stage -/

theorem exec_nop (s : State) : exec .nop s = .next s.accept := rfl

theorem exec_clear (s : State) : exec .clear s = .next s.cleared := rfl

theorem exec_count {s : State} (h : Accepted .count s) : exec .count s = (countStage s).finish :=
  issue_of_guard ((guardOpen_iff s).mpr h)

theorem exec_build {s : State} (h : Accepted .build s) : exec .build s = (buildStage s).finish :=
  issue_of_guard ((guardBuild_iff s).mpr h)

theorem exec_derive {s : State} (h : Accepted .derive s) : exec .derive s = (deriveStage s).finish :=
  issue_of_guard ((guardDerive_iff s).mpr h)

theorem exec_pack {s : State} (h : Accepted .pack s) : exec .pack s = (packStage s).finish :=
  issue_of_guard ((guardPack_iff s).mpr h)

theorem exec_hdrenc {s : State} (h : Accepted .hdrenc s) : exec .hdrenc s = (hdrencStage s).finish :=
  issue_of_guard ((guardHdrenc_iff s).mpr h)

theorem exec_hdrdec {s : State} (h : Accepted .hdrdec s) : exec .hdrdec s = (hdrdecStage s).finish :=
  issue_of_guard ((guardOpen_iff s).mpr h)

theorem exec_unpack {s : State} (h : Accepted .unpack s) : exec .unpack s = (unpackStage s).finish :=
  issue_of_guard ((guardUnpack_iff s).mpr h)

theorem exec_compress {s : State} (h : Accepted .compress s) : exec .compress s = (compressStage s).finish :=
  issue_of_guard ((guardOpen_iff s).mpr h)

theorem exec_decompress {s : State} (h : Accepted .decompress s) : exec .decompress s = (decompressStage s).finish :=
  issue_of_guard ((guardOpen_iff s).mpr h)

theorem State.accept_eq {s : State} (h : s.lastref = .none) : s.accept = s := by
  cases s
  cases h
  rfl

/-! ### What each stage answers -/

theorem countStage_eq {s : State} {bs : List Byte} (h : s.inBytes = some bs) :
    countStage s = .done { s with freq := countBytes bs, mode := .enc, fv := true, phase := .processing } := by
  simp [countStage, h]

theorem deriveStage_eq {s : State} {t : CodeTable} (h : deriveCodes s.te s.node s.root = some t) :
    deriveStage s = .done { s with code := t.code, clen := t.clen, cv := true } := by
  simp [deriveStage, h]

theorem packStage_eq_done {s : State} {bs : List Byte} {o : OutBuffer} {n : BitVec 4} (h : s.inBytes = some bs)
    (hp : packBytes s.cfg.outCap s.codeTable bs = .ok (o, n)) :
    packStage s = .done { s with outBuf := o.mem, outLen := o.len, fbc := n, pv := true } := by
  simp [packStage, h, hp]

theorem packStage_eq_raised {s : State} {bs : List Byte} {r : Raise} (h : s.inBytes = some bs)
    (hp : packBytes s.cfg.outCap s.codeTable bs = .error r) : packStage s = .raised r s := by
  simp [packStage, h, hp]

theorem hdrdecStage_eq_done {s : State} {bs : List Byte} {h : Header} (hi : s.inBytes = some bs) (hp : parseHeader bs = .ok h) :
    hdrdecStage s = .done { s with
      mode := .dec, freq := h.freq, tsize := BitVec.ofNat 64 h.tsize, fbc := h.fbc, payOff := BitVec.ofNat 64 (8 + h.tsize)
      fv := true, hv := true, phase := .processing } := by
  simp [hdrdecStage, hi, hp]

theorem hdrdecStage_eq_raised {s : State} {bs : List Byte} {r : Raise} (hi : s.inBytes = some bs) (hp : parseHeader bs = .error r) :
    hdrdecStage s = .raised r { s with mode := .dec } := by
  simp [hdrdecStage, hi, hp]

theorem unpackPayload_eq_done {s : State} {bs : List Byte} {o : OutBuffer} (hi : s.payloadBytes = some bs)
    (hu : unpackBits s.cfg.outCap s.codeTable 0 0 OutBuffer.empty (payloadBits s.fbc.toNat bs) = .ok o) :
    unpackPayload s = .done { s with outBuf := o.mem, outLen := o.len, pv := true, phase := .ready } := by
  simp [unpackPayload, hi, hu]

theorem unpackPayload_eq_raised {s : State} {bs : List Byte} {r : Raise} (hi : s.payloadBytes = some bs)
    (hu : unpackBits s.cfg.outCap s.codeTable 0 0 OutBuffer.empty (payloadBits s.fbc.toNat bs) = .error r) :
    unpackPayload s = .raised r s := by
  simp [unpackPayload, hi, hu]

/-! ### The step -/

theorem step_of_nil {s : State} (h : s.hostIn = []) : step s = .next s := by
  simp [step, takeTransaction, h]

theorem step_of_cons {s : State} {op : HostOp} {ops : List HostOp} (h : s.hostIn = op :: ops) :
    step s = hostTransaction { s with hostIn := ops } op := by
  simp [step, takeTransaction, h]

theorem hostTransaction_of_not_busy {s : State} (h : s.busy = false) (op : HostOp) :
    hostTransaction s op = match op with
      | .reset => .next s.cleared
      | .write space index data => hostWrite s space index data
      | .read space index => .next { s with reply := hostRead s space index } := by
  cases op <;> simp [hostTransaction, h]

/-- Every transaction is one of: reset, a `CMD` write, an `IN_PUSH` write, a write without effect, a read. -/
theorem hostWrite_cases (s : State) (space : Space) (index : Nat) (b : Byte) :
    (space = .reg ∧ index = 0 ∧ hostWrite s space index b = writeCommand s b)
      ∨ (space = .reg ∧ index = 2 ∧ hostWrite s space index b = .next (pushInput s b))
      ∨ (¬ (space = .reg ∧ (index = 0 ∨ index = 2)) ∧ hostWrite s space index b = .next s) := by
  unfold hostWrite
  split
  · exact .inl ⟨rfl, rfl, rfl⟩
  · exact .inr (.inl ⟨rfl, rfl, rfl⟩)
  · rename_i h0 h2
    refine .inr (.inr ⟨?_, rfl⟩)
    rintro ⟨hs, hi | hi⟩
    · exact h0 hs hi
    · exact h2 hs hi

/-- The three cases of an `IN_PUSH` write. -/
theorem pushInput_cases (s : State) (b : Byte) :
    (s.phase ≠ .notStarted ∧ pushInput s b = s.refuse .frozen)
      ∨ (s.phase = .notStarted ∧ s.inLen = s.cfg.inCap ∧ pushInput s b = s.refuse .full)
      ∨ (s.phase = .notStarted ∧ s.inLen ≠ s.cfg.inCap ∧
          pushInput s b = { s with inBuf := s.inBuf.write s.inLen.toNat b, inLen := s.inLen + 1, lastref := .none }) := by
  unfold pushInput
  split
  · exact .inl ⟨‹_›, rfl⟩
  · split
    · exact .inr (.inl ⟨not_not.mp ‹_›, ‹_›, rfl⟩)
    · exact .inr (.inr ⟨not_not.mp ‹_›, ‹_›, rfl⟩)

end Sys2Proof.Machine
end

