-- ==== Sys2Proof/Laws/PerInstr.lean ====
section
/-! SUPPORT. Statements for all commands, one lemma for each. Family `Encoding`: a command's byte, split into its fields, is its row of the command
table and a well-formed word. -/

namespace Sys2Proof.Laws.Encoding

def Statement (i : Instr) : Prop :=
  (i, byteFields (encode i)) ∈ commandTable ∧ (byteFields (encode i)).wellFormed = true ∧ fieldsByte (byteFields (encode i)) = encode i

theorem nop : Statement .nop := by unfold Statement; decide
theorem clear : Statement .clear := by unfold Statement; decide
theorem count : Statement .count := by unfold Statement; decide
theorem build : Statement .build := by unfold Statement; decide
theorem derive : Statement .derive := by unfold Statement; decide
theorem pack : Statement .pack := by unfold Statement; decide
theorem hdrenc : Statement .hdrenc := by unfold Statement; decide
theorem hdrdec : Statement .hdrdec := by unfold Statement; decide
theorem unpack : Statement .unpack := by unfold Statement; decide
theorem compress : Statement .compress := by unfold Statement; decide
theorem decompress : Statement .decompress := by unfold Statement; decide

end Sys2Proof.Laws.Encoding
end

