-- ==== Sys2Proof/Laws/Stages.lean ====
section
/-! SUPPORT. What the loops of the stages do to the output buffer and which faults they raise, and that each stage, where its guard holds, keeps the invariant. -/

namespace Sys2Proof.Machine

/-! ### The packer -/

/-- The output buffer is as long as its length says, within its capacity. -/
abbrev OutBuffer.Good (cap : Len) (o : OutBuffer) : Prop :=
  Holds o.mem o.len.toNat ∧ o.len.toNat ≤ cap.toNat

theorem OutBuffer.good_empty (cap : Len) : OutBuffer.empty.Good cap := ⟨rfl, Nat.zero_le _⟩

theorem OutBuffer.good_append {cap : Len} {o o' : OutBuffer} {b : Byte} (h : o.append cap b = .ok o') (g : o.Good cap) : o'.Good cap :=
  let ⟨h1, h2, _⟩ := OutBuffer.append_holds h g.1 g.2
  ⟨h1, h2⟩

theorem Packer.emit_cases {cap : Len} {p : Packer} {bit : Bool} :
    (∃ acc n, p.emit cap bit = .ok ⟨p.out, acc, n⟩)
      ∨ (∃ acc out, p.out.append cap acc = .ok out ∧ p.emit cap bit = .ok ⟨out, 0, 0⟩)
      ∨ (∃ acc r, p.out.append cap acc = .error r ∧ p.emit cap bit = .error r) := by
  unfold Packer.emit
  simp only
  split
  · split
    · exact .inr (.inr ⟨_, _, ‹_›, rfl⟩)
    · exact .inr (.inl ⟨_, _, ‹_›, rfl⟩)
  · exact .inl ⟨_, _, rfl⟩

theorem Packer.emitAll_good {cap : Len} {bits : List Bool} {p p' : Packer} (h : p.emitAll cap bits = .ok p') (g : p.out.Good cap) :
    p'.out.Good cap := by
  induction bits generalizing p with
  | nil =>
    cases h
    exact g
  | cons bit bits ih =>
    simp only [Packer.emitAll] at h
    obtain ⟨acc, n, e⟩ | ⟨acc, out, ea, e⟩ | ⟨acc, r, -, e⟩ := Packer.emit_cases (cap := cap) (p := p) (bit := bit)
    · rw [e] at h
      exact ih h g
    · rw [e] at h
      exact ih h (OutBuffer.good_append ea g)
    · rw [e] at h
      cases h

theorem Packer.emitAll_error {cap : Len} {bits : List Bool} {p : Packer} {r : Raise} (h : p.emitAll cap bits = .error r) : r.code = .cap := by
  induction bits generalizing p with
  | nil => cases h
  | cons bit bits ih =>
    simp only [Packer.emitAll] at h
    obtain ⟨acc, n, e⟩ | ⟨acc, out, -, e⟩ | ⟨acc, q, ea, e⟩ := Packer.emit_cases (cap := cap) (p := p) (bit := bit)
    · rw [e] at h
      exact ih h
    · rw [e] at h
      exact ih h
    · rw [e] at h
      cases h
      rw [(OutBuffer.append_error.mp ea).2]

theorem packFrom_good {cap : Len} {t : CodeTable} {bs : List Byte} {i : Nat} {p p' : Packer} (h : packFrom cap t i p bs = .ok p')
    (g : p.out.Good cap) : p'.out.Good cap := by
  induction bs generalizing p i with
  | nil =>
    cases h
    exact g
  | cons b bs ih =>
    simp only [packFrom] at h
    split at h
    · cases h
    · split at h
      · cases h
      · exact ih h (Packer.emitAll_good ‹_› g)

theorem packFrom_error {cap : Len} {t : CodeTable} {bs : List Byte} {i : Nat} {p : Packer} {r : Raise} (h : packFrom cap t i p bs = .error r) :
    r.code = .internal ∨ r.code = .cap := by
  induction bs generalizing p i with
  | nil => cases h
  | cons b bs ih =>
    simp only [packFrom] at h
    split at h
    · cases h
      exact .inl rfl
    · split at h
      · cases h
        exact .inr (Packer.emitAll_error ‹_›)
      · exact ih h

/-- What `PACK` leaves in `OUT` is as long as `OUT_LEN` says and within `OUT_CAP`. -/
theorem packBytes_good {cap : Len} {t : CodeTable} {bs : List Byte} {o : OutBuffer} {n : BitVec 4} (h : packBytes cap t bs = .ok (o, n)) :
    o.Good cap := by
  unfold packBytes at h
  split at h
  · cases h
  · rename_i p hp
    have g := packFrom_good hp (OutBuffer.good_empty cap)
    split at h
    · cases h
    · rename_i out ho
      cases h
      unfold Packer.flush at ho
      split at ho
      · exact OutBuffer.good_append ho g
      · cases ho
        exact g

theorem packBytes_error {cap : Len} {t : CodeTable} {bs : List Byte} {r : Raise} (h : packBytes cap t bs = .error r) :
    r.code = .internal ∨ r.code = .cap := by
  unfold packBytes at h
  split at h
  · cases h
    exact packFrom_error ‹_›
  · split at h
    · rename_i q hq
      cases h
      unfold Packer.flush at hq
      split at hq
      · exact .inr (by rw [(OutBuffer.append_error.mp hq).2])
      · cases hq
    · cases h

/-! ### The unpacker -/

theorem unpackBits_good {cap : Len} {t : CodeTable} {bits : List Bool} {code len : Nat} {o o' : OutBuffer}
    (h : unpackBits cap t code len o bits = .ok o') (g : o.Good cap) : o'.Good cap := by
  induction bits generalizing code len o with
  | nil =>
    simp only [unpackBits] at h
    split at h
    · cases h
    · cases h
      exact g
  | cons bit bits ih =>
    simp only [unpackBits] at h
    split at h
    · exact ih h g
    · split at h
      · cases h
      · exact ih h (OutBuffer.good_append ‹_› g)

theorem unpackBits_error {cap : Len} {t : CodeTable} {bits : List Bool} {code len : Nat} {o : OutBuffer} {r : Raise}
    (h : unpackBits cap t code len o bits = .error r) : r.code = .bits ∨ r.code = .cap := by
  induction bits generalizing code len o with
  | nil =>
    simp only [unpackBits] at h
    split at h
    · cases h
      exact .inl rfl
    · cases h
  | cons bit bits ih =>
    simp only [unpackBits] at h
    split at h
    · exact ih h
    · split at h
      · rename_i ha
        cases h
        exact .inr (by rw [(OutBuffer.append_error.mp ha).2])
      · exact ih h

/-! ### The header -/

theorem parseEntries_error {bs : List Byte} {k n : Nat} {prev : Option Byte} {freq : ByteTable Count} {r : Raise}
    (h : parseEntries bs k n prev freq = .error r) : r.code = .hdrEntry := by
  induction n generalizing k prev freq with
  | zero => cases h
  | succ n ih =>
    simp only [parseEntries] at h
    split at h
    · cases h
      rfl
    · exact ih h

theorem parseHeader_error {bs : List Byte} {r : Raise} (h : parseHeader bs = .error r) :
    r.code = .hdrTrunc ∨ r.code = .hdrTsize ∨ r.code = .hdrFbc ∨ r.code = .hdrEntry := by
  unfold parseHeader at h
  simp only at h
  split at h
  · cases h
    simp
  · split at h
    · cases h
      simp
    · split at h
      · cases h
        simp
      · split at h
        · cases h
          simp
        · split at h
          · rename_i he
            cases h
            simp [parseEntries_error he]
          · split at h
            · cases h
              simp
            · cases h

/-- A header that is decoded lies whole within the input. -/
theorem parseHeader_tsize {bs : List Byte} {h : Header} (e : parseHeader bs = .ok h) : h.tsize = be64At bs 0 ∧ 8 + h.tsize ≤ bs.length := by
  unfold parseHeader at e
  simp only at e
  split at e
  · cases e
  · split at e
    · cases e
    · split at e
      · cases e
      · split at e
        · cases e
        · split at e
          · cases e
          · split at e
            · cases e
            · cases e
              exact ⟨rfl, by simp only; omega⟩

theorem length_presentSymbols_le (freq : ByteTable Count) : (presentSymbols freq).length ≤ 256 := by
  have := List.length_filter_le (fun s => decide (freq.get s ≠ 0)) allBytes
  simpa [presentSymbols] using this

theorem tableSize_le (freq : ByteTable Count) : tableSize freq ≤ 2305 := by
  have := length_presentSymbols_le freq
  unfold tableSize
  omega

theorem length_headerBytes (freq : ByteTable Count) (fbc : BitVec 4) : (headerBytes freq fbc).length = 8 + tableSize freq := by
  have h : ∀ l : List Byte, (l.flatMap (headerEntry freq)).length = 9 * l.length := by
    intro l
    induction l with
    | nil => rfl
    | cons x l ih =>
      simp only [List.flatMap_cons, List.length_append, ih, List.length_cons]
      simp only [headerEntry, be64, List.length_cons, List.length_nil]
      omega
  simp only [headerBytes, List.length_append, h, List.length_cons, List.length_nil, be64, tableSize]
  omega

/-! ### The tree -/

theorem mergeRound_queue_ne_nil {w : Merge} (h : w.queue ≠ []) : (mergeRound w).queue ≠ [] := by
  unfold mergeRound
  split
  · simp only
    split
    · exact h
    · simp
  · exact h

theorem mergeRounds_queue_ne_nil {k : Nat} {w : Merge} (h : w.queue ≠ []) : (mergeRounds k w).queue ≠ [] := by
  induction k generalizing w with
  | zero => exact h
  | succ k ih => exact ih (mergeRound_queue_ne_nil h)

/-- Where a symbol is present, the queue ends with a member. -/
theorem buildTree_queue_ne_nil {freq : ByteTable Count} (h : presentSymbols freq ≠ []) : (buildTree freq).queue ≠ [] := by
  apply mergeRounds_queue_ne_nil
  intro e
  have : (leafMembers (leafNodes freq)).length = (presentSymbols freq).length := by simp [leafMembers, leafNodes]
  simp only at e
  rw [e] at this
  exact h (List.length_eq_zero_iff.mp this.symm)

theorem rootOf_eq {queue : List Member} (h : queue ≠ []) (a b : NodeIndex) : rootOf a queue = rootOf b queue := by
  cases queue with
  | nil => exact absurd rfl h
  | cons m q => rfl

theorem deriveCodes_eq_codesOf {s : State} (h : s.Inv) (ht : s.tv = true) : deriveCodes s.te s.node s.root = codesOf s.freq := by
  obtain ⟨hn, -, -, he, hr⟩ := h.session.tree ht
  unfold codesOf
  rw [← hn, ← he]
  cases hte : s.te with
  | true => rfl
  | false => rw [hr hte]

/-! ### The invariant through each stage -/

theorem State.Inv.accept {s : State} (h : s.Inv) : s.accept.Inv := by
  obtain ⟨⟨a1, a2, a3, a4, a5, a6, a7, a8, a9, a10⟩, ⟨b1, b2, b3, b4, b5, b6, b7, b8⟩, ⟨c1, c2, c3, c4, c5, c6, c7⟩⟩ := h
  exact ⟨⟨a1, a2, a3, a4, a5, a6, a7, a8, a9, a10⟩, ⟨b1, b2, b3, b4, b5, b6, b7, b8⟩, ⟨c1, c2, c3, c4, c5, c6, c7⟩⟩

theorem State.Inv.refuse {s : State} (h : s.Inv) (r : RefReason) : (s.refuse r).Inv := by
  obtain ⟨⟨a1, a2, a3, a4, a5, a6, a7, a8, a9, a10⟩, ⟨b1, b2, b3, b4, b5, b6, b7, b8⟩, ⟨c1, c2, c3, c4, c5, c6, c7⟩⟩ := h
  exact ⟨⟨a1, a2, a3, a4, a5, a6, a7, a8, a9, a10⟩, ⟨b1, b2, b3, b4, b5, b6, b7, b8⟩, ⟨c1, c2, c3, c4, c5, c6, c7⟩⟩

theorem State.Inv.enterFault {s : State} (h : s.Inv) {r : Raise} (hr : r.code ≠ .none) : (s.enterFault r).Inv := by
  obtain ⟨⟨a1, a2, a3, a4, a5, a6, a7, a8, a9, a10⟩, ⟨b1, b2, b3, b4, b5, b6, b7, b8⟩, ⟨c1, c2, c3, c4, c5, c6, c7⟩⟩ := h
  exact ⟨⟨by simp [hr], by simp [hr], by simp [hr], a4, a5, a6, a7, a8, a9, a10⟩, ⟨b1, b2, b3, b4, b5, b6, b7, b8⟩,
    ⟨c1, c2, c3, c4, c5, c6, c7⟩⟩

theorem State.input_eq {s : State} {bs : List Byte} (h : s.inBytes = some bs) : s.input = bs := by
  rw [State.input, h, Option.getD_some]

theorem countStage_inv {s t : State} (h : s.Inv) (g : s.phase = .notStarted) (e : countStage s = .done t) : t.Inv := by
  obtain ⟨⟨a1, a2, a3, a4, a5, a6, a7, a8, a9, a10⟩, ⟨b1, b2, b3, b4, b5, b6, b7, b8⟩, -⟩ := h
  obtain ⟨f1, f2, f3, f4, f5, f6⟩ := a1.mp g
  unfold countStage at e
  split at e
  · cases e
  · rename_i bs hbs
    cases e
    refine ⟨⟨?_, ?_, ?_, ?_, ?_, ?_, ?_, ?_, ?_, a10⟩, ⟨b1, b2, b3, b4, b5, b6, b7, ?_⟩, ⟨?_, ?_, ?_, ?_, ?_, ?_, ?_⟩⟩
    all_goals simp_all
    exact congrArg countBytes (State.input_eq hbs).symm

theorem buildStage_inv {s t : State} (h : s.Inv) (g : s.phase = .processing) (hf : s.fv = true) (ht : s.tv = false)
    (e : buildStage s = .done t) : t.Inv := by
  obtain ⟨⟨a1, a2, a3, a4, a5, a6, a7, a8, a9, a10⟩, ⟨b1, b2, b3, b4, b5, b6, b7, b8⟩, ⟨c1, c2, c3, c4, c5, c6, c7⟩⟩ := h
  have hc : s.cv = false := by
    by_contra hc
    simp_all
  cases e
  refine ⟨⟨?_, a2, a3, fun _ => hf, fun _ => rfl, a6, a7, a8, a9, a10⟩, ⟨b1, b2, b3, b4, b5, b6, b7, b8⟩,
    ⟨c1, fun _ => ⟨rfl, rfl, rfl, rfl, fun hte => ?_⟩, c3, c4, c5, c6, c7⟩⟩
  · simp [g]
  · show rootOf s.root (buildTree s.freq).queue = rootOf 0 (buildTree s.freq).queue
    exact rootOf_eq (buildTree_queue_ne_nil (by simpa using hte)) _ _

theorem deriveStage_inv {s t : State} (h : s.Inv) (ht : s.tv = true) (hc : s.cv = false) (e : deriveStage s = .done t) : t.Inv := by
  have hd := deriveCodes_eq_codesOf h ht
  obtain ⟨⟨a1, a2, a3, a4, a5, a6, a7, a8, a9, a10⟩, ⟨b1, b2, b3, b4, b5, b6, b7, b8⟩, ⟨c1, c2, c3, c4, c5, c6, c7⟩⟩ := h
  unfold deriveStage at e
  split at e
  · cases e
  · rename_i tab htab
    cases e
    refine ⟨⟨?_, a2, a3, a4, fun _ => ht, fun _ _ => rfl, a7, a8, fun hm hp => ⟨rfl, (a9 hm hp).2⟩, a10⟩, ⟨b1, b2, b3, b4, b5, b6, b7, b8⟩,
      ⟨c1, c2, fun _ => ?_, fun hm hp => ?_, c5, c6, fun hm hp => ?_⟩⟩
    · simp_all
    · rw [← hd, htab]
      rfl
    · have := a6 hm hp
      simp [hc] at this
    · have := (a9 hm hp).1
      simp [hc] at this

theorem packStage_inv {s t : State} (h : s.Inv) (g : Accepted .pack s) (e : packStage s = .done t) : t.Inv := by
  obtain ⟨⟨a1, a2, a3, a4, a5, a6, a7, a8, a9, a10⟩, ⟨b1, b2, b3, b4, b5, b6, b7, b8⟩, ⟨c1, c2, c3, c4, c5, c6, c7⟩⟩ := h
  obtain ⟨g1, g2, g3, g4⟩ := g
  have hh : s.hv = false := by
    by_contra hh
    have := a7 g2 (by simpa using hh)
    simp [g4] at this
  unfold packStage at e
  split at e
  · cases e
  · rename_i bs hbs
    split at e
    · cases e
    · rename_i out n hp
      cases e
      obtain ⟨p1, p2⟩ := packBytes_good hp
      refine ⟨⟨?_, a2, ?_, a4, a5, fun _ _ => g3, fun _ _ => rfl, a8, ?_, a10⟩, ⟨b1, p1, b3, b4, p2, b6, ?_, b8⟩,
        ⟨c1, c2, c3, fun _ _ => ?_, ?_, ?_, ?_⟩⟩
      · simp [g1]
      · simp [g1, g2, hh]
      · simp [g2]
      · simp
      · rw [← State.input_eq hbs] at hp
        exact hp
      · simp [hh]
      · simp [g2]
      · simp [g2]

theorem hdrencStage_inv {s t : State} (h : s.Inv) (g : Accepted .hdrenc s) (e : hdrencStage s = .done t) : t.Inv := by
  obtain ⟨⟨a1, a2, a3, a4, a5, a6, a7, a8, a9, a10⟩, ⟨b1, b2, b3, b4, b5, b6, b7, b8⟩, ⟨c1, c2, c3, c4, c5, c6, c7⟩⟩ := h
  obtain ⟨g1, g2, g3, g4⟩ := g
  have he : s.err = .none := by
    by_contra he
    have := a2.mpr he
    simp [g1] at this
  have hl : (BitVec.ofNat 12 (8 + tableSize s.freq)).toNat = 8 + tableSize s.freq := by
    have := tableSize_le s.freq
    rw [BitVec.toNat_ofNat]
    omega
  cases e
  refine ⟨⟨?_, ?_, ?_, a4, a5, a6, fun _ _ => g3, ?_, ?_, a10⟩, ⟨b1, b2, ?_, b4, b5, ?_, b7, ?_⟩,
    ⟨c1, c2, c3, c4, fun _ _ => ⟨rfl, rfl, rfl⟩, ?_, ?_⟩⟩
  · simp
  · simp [he]
  · simp [he, g2]
  · simp [g2]
  · simp [g2]
  · have := holds_nil.appendN (headerBytes s.freq s.fbc)
    rw [length_headerBytes, Nat.zero_add] at this
    show Holds _ (BitVec.ofNat 12 (8 + tableSize s.freq)).toNat
    rw [hl]
    exact this
  · show (BitVec.ofNat 12 (8 + tableSize s.freq)).toNat ≤ hdrCap
    have := tableSize_le s.freq
    rw [hl, hdrCap]
    omega
  · simp [g2]
  · simp [g2]
  · simp [g2]

/-- The state of a header fault, before the fault entry. -/
theorem State.Inv.toDec {s : State} (h : s.Inv) (g : s.phase = .notStarted) : ({ s with mode := .dec } : State).Inv := by
  obtain ⟨⟨a1, a2, a3, a4, a5, a6, a7, a8, a9, a10⟩, ⟨b1, b2, b3, b4, b5, b6, b7, b8⟩, -⟩ := h
  obtain ⟨f1, f2, f3, f4, f5, f6⟩ := a1.mp g
  refine ⟨⟨a1, a2, ?_, a4, a5, ?_, ?_, ?_, ?_, a10⟩, ⟨b1, b2, b3, b4, b5, b6, b7, ?_⟩, ⟨?_, ?_, ?_, ?_, ?_, ?_, ?_⟩⟩
  all_goals simp_all

theorem hdrdecStage_inv {s t : State} (h : s.Inv) (g : s.phase = .notStarted) (e : hdrdecStage s = .done t) : t.Inv := by
  obtain ⟨⟨a1, a2, a3, a4, a5, a6, a7, a8, a9, a10⟩, ⟨b1, b2, b3, b4, b5, b6, b7, b8⟩, -⟩ := h
  obtain ⟨f1, f2, f3, f4, f5, f6⟩ := a1.mp g
  unfold hdrdecStage at e
  split at e
  · cases e
  · rename_i bs hbs
    split at e
    · cases e
    · rename_i hd hp
      cases e
      have ht : (BitVec.ofNat 64 hd.tsize).toNat = hd.tsize := by
        have h1 := (parseHeader_tsize hp).2
        have h2 := Memory.length_of_readN hbs
        have h3 := s.inLen.isLt
        rw [BitVec.toNat_ofNat]
        omega
      have hq : parseHeader s.input = .ok ⟨hd.freq, hd.fbc, (BitVec.ofNat 64 hd.tsize).toNat⟩ := by
        rw [State.input_eq hbs, ht]
        exact hp
      refine ⟨⟨?_, ?_, ?_, ?_, a5, ?_, ?_, ?_, ?_, a10⟩, ⟨b1, b2, b3, b4, b5, b6, b7, ?_⟩,
        ⟨?_, ?_, ?_, ?_, ?_, fun _ _ => ⟨hq, congrArg (fun n => BitVec.ofNat 64 (8 + n)) ht.symm⟩, ?_⟩⟩
      all_goals simp_all

theorem ensureTree_inv {s t : State} (h : s.Inv) (g : Accepted .unpack s) (e : ensureTree s = .done t) :
    t.Inv ∧ t.tv = true ∧ Accepted .unpack t := by
  obtain ⟨g1, g2, g3, g4⟩ := g
  unfold ensureTree at e
  split at e
  · cases e
    exact ⟨h, ‹_›, g1, g2, g3, g4⟩
  · cases e
    exact ⟨buildStage_inv h g1 ((h.flags.decHeader g2).mp g3) (by simpa using ‹¬ s.tv = true›) rfl, rfl, g1, g2, g3, g4⟩

theorem ensureCodes_inv {s t : State} (h : s.Inv) (ht : s.tv = true) (g : Accepted .unpack s) (e : ensureCodes s = .done t) :
    t.Inv ∧ t.cv = true ∧ Accepted .unpack t := by
  obtain ⟨g1, g2, g3, g4⟩ := g
  unfold ensureCodes at e
  split at e
  · cases e
    exact ⟨h, ‹_›, g1, g2, g3, g4⟩
  · have hi := deriveStage_inv h ht (by simpa using ‹¬ s.cv = true›) e
    unfold deriveStage at e
    split at e
    · cases e
    · cases e
      exact ⟨hi, rfl, g1, g2, g3, g4⟩

theorem unpackPayload_inv {s t : State} (h : s.Inv) (hc : s.cv = true) (g : Accepted .unpack s) (e : unpackPayload s = .done t) : t.Inv := by
  obtain ⟨⟨a1, a2, a3, a4, a5, a6, a7, a8, a9, a10⟩, ⟨b1, b2, b3, b4, b5, b6, b7, b8⟩, ⟨c1, c2, c3, c4, c5, c6, c7⟩⟩ := h
  obtain ⟨g1, g2, g3, g4⟩ := g
  have he : s.err = .none := by
    by_contra he
    have := a2.mpr he
    simp [g1] at this
  unfold unpackPayload at e
  split at e
  · cases e
  · rename_i bs hbs
    split at e
    · cases e
    · rename_i out hu
      cases e
      obtain ⟨p1, p2⟩ := unpackBits_good hu (OutBuffer.good_empty _)
      refine ⟨⟨?_, ?_, ?_, a4, a5, ?_, ?_, a8, fun _ _ => ⟨hc, g3⟩, a10⟩, ⟨b1, p1, b3, b4, p2, b6, ?_, b8⟩,
        ⟨c1, c2, c3, ?_, c5, c6, fun _ _ => ?_⟩⟩
      · simp
      · simp [he]
      · simp [he, g2]
      · simp [g2]
      · simp [g2]
      · simp
      · simp [g2]
      · have hp : s.payloadBytes.getD [] = bs := by rw [hbs, Option.getD_some]
        rw [← hp] at hu
        exact hu

/-! ### The invariant through each command -/

/-- However the stage ends, the state it leaves meets the invariant, and a fault it raises has a code. -/
structure Stage.Sound (r : Stage) : Prop where
  done : ∀ t, r = .done t → t.Inv
  raised : ∀ e t, r = .raised e t → t.Inv ∧ e.code ≠ .none

theorem issue_inv {g : State → Bool} {b : State → Stage} {s t : State} (h : s.Inv) (hb : g s = true → (b s).Sound)
    (e : issue g b s = .next t) : t.Inv := by
  obtain ⟨-, rfl⟩ | ⟨hg, u, hu, rfl⟩ | ⟨hg, r, u, hu, rfl⟩ := issue_next e
  · exact h.refuse _
  · exact ((hb hg).done u hu).accept
  · obtain ⟨hi, hr⟩ := (hb hg).raised r u hu
    exact hi.enterFault hr

theorem Stage.Sound.andThen {r : Stage} {f : State → Stage} (h : r.Sound) (hf : ∀ u, r = .done u → (f u).Sound) : (r.andThen f).Sound where
  done t e := by
    obtain ⟨u, hu, hfu⟩ := Stage.andThen_eq_done.mp e
    exact (hf u hu).done t hfu
  raised e t h' := by
    rcases Stage.andThen_eq_raised.mp h' with h' | ⟨u, hu, hfu⟩
    · exact h.raised e t h'
    · exact (hf u hu).raised e t hfu

theorem packStage_sound {s : State} (h : s.Inv) (g : Accepted .pack s) : (packStage s).Sound where
  done t e := packStage_inv h g e
  raised r t e := by
    unfold packStage at e
    split at e
    · cases e
    · split at e
      · rename_i hp
        cases e
        refine ⟨h, fun hn => ?_⟩
        rcases packBytes_error hp with hc | hc <;> simp [hc] at hn
      · cases e

theorem hdrdecStage_sound {s : State} (h : s.Inv) (g : s.phase = .notStarted) : (hdrdecStage s).Sound where
  done t e := hdrdecStage_inv h g e
  raised r t e := by
    unfold hdrdecStage at e
    split at e
    · cases e
    · split at e
      · rename_i hp
        cases e
        refine ⟨h.toDec g, fun hn => ?_⟩
        rcases parseHeader_error hp with hc | hc | hc | hc <;> simp [hc] at hn
      · cases e

theorem unpackPayload_sound {s : State} (h : s.Inv) (hc : s.cv = true) (g : Accepted .unpack s) : (unpackPayload s).Sound where
  done t e := unpackPayload_inv h hc g e
  raised r t e := by
    unfold unpackPayload at e
    split at e
    · cases e
    · split at e
      · rename_i hu
        cases e
        refine ⟨h, fun hn => ?_⟩
        rcases unpackBits_error hu with hc | hc <;> simp [hc] at hn
      · cases e

theorem deriveStage_not_raised (s : State) (r : Raise) (t : State) : deriveStage s ≠ .raised r t := by
  unfold deriveStage
  split <;> simp

theorem countStage_not_raised (s : State) (r : Raise) (t : State) : countStage s ≠ .raised r t := by
  unfold countStage
  split <;> simp

theorem unpackStage_sound {s : State} (h : s.Inv) (g : Accepted .unpack s) : (unpackStage s).Sound := by
  have ht : (ensureTree s).Sound := by
    refine ⟨fun t e => (ensureTree_inv h g e).1, fun r t e => ?_⟩
    unfold ensureTree at e
    split at e <;> cases e
  refine (ht.andThen fun u hu => ?_).andThen fun v hv => ?_
  · obtain ⟨hi, htv, ga⟩ := ensureTree_inv h g hu
    refine ⟨fun t e => (ensureCodes_inv hi htv ga e).1, fun r t e => ?_⟩
    unfold ensureCodes at e
    split at e
    · cases e
    · exact absurd e (deriveStage_not_raised _ _ _)
  · obtain ⟨u, hu, hv⟩ := Stage.andThen_eq_done.mp hv
    obtain ⟨hi, htv, ga⟩ := ensureTree_inv h g hu
    obtain ⟨hj, hcv, gb⟩ := ensureCodes_inv hi htv ga hv
    exact unpackPayload_sound hj hcv gb

theorem decompressStage_sound {s : State} (h : s.Inv) (g : s.phase = .notStarted) : (decompressStage s).Sound := by
  have hp : s.pv = false := (h.flags.notStarted.mp g).2.2.2.1
  refine (hdrdecStage_sound h g).andThen fun u hu => unpackStage_sound (hdrdecStage_inv h g hu) ?_
  unfold hdrdecStage at hu
  split at hu
  · cases hu
  · split at hu
    · cases hu
    · cases hu
      exact ⟨rfl, rfl, rfl, hp⟩

theorem compressStage_sound {s : State} (h : s.Inv) (g : s.phase = .notStarted) : (compressStage s).Sound := by
  obtain ⟨-, f2, f3, f4, f5, -⟩ := h.flags.notStarted.mp g
  have hcount : ∀ u, countStage s = .done u → u.Inv ∧ u.phase = .processing ∧ u.mode = .enc ∧ u.fv = true ∧ u.tv = false ∧ u.cv = false
      ∧ u.pv = false ∧ u.hv = false := by
    intro u hu
    have hi := countStage_inv h g hu
    unfold countStage at hu
    split at hu
    · cases hu
    · cases hu
      exact ⟨hi, rfl, rfl, rfl, f2, f3, f4, f5⟩
  have hbuild : ∀ u, (countStage s).andThen buildStage = .done u → u.Inv ∧ u.phase = .processing ∧ u.mode = .enc ∧ u.tv = true
      ∧ u.cv = false ∧ u.pv = false ∧ u.hv = false := by
    intro u hu
    obtain ⟨v, hv, hu⟩ := Stage.andThen_eq_done.mp hu
    obtain ⟨v1, v2, v3, v4, v5, v6, v7, v8⟩ := hcount v hv
    have hi := buildStage_inv v1 v2 v4 v5 hu
    cases hu
    exact ⟨hi, v2, v3, rfl, v6, v7, v8⟩
  have hderive : ∀ u, ((countStage s).andThen buildStage).andThen deriveStage = .done u → u.Inv ∧ Accepted .pack u ∧ u.hv = false := by
    intro u hu
    obtain ⟨v, hv, hu⟩ := Stage.andThen_eq_done.mp hu
    obtain ⟨v1, v2, v3, v4, v5, v6, v7⟩ := hbuild v hv
    have hi := deriveStage_inv v1 v4 v5 hu
    unfold deriveStage at hu
    split at hu
    · cases hu
    · cases hu
      exact ⟨hi, ⟨v2, v3, rfl, v6⟩, v7⟩
  refine Stage.Sound.andThen (Stage.Sound.andThen ⟨fun t e => (hderive t e).1, fun r t e => ?_⟩ fun u hu => ?_) fun u hu => ?_
  · simp only [Stage.andThen_eq_raised, countStage_not_raised, deriveStage_not_raised, buildStage, reduceCtorEq, and_false, exists_false,
      or_false] at e
  · obtain ⟨v1, v2, -⟩ := hderive u hu
    exact packStage_sound v1 v2
  · obtain ⟨v, hv, hu⟩ := Stage.andThen_eq_done.mp hu
    obtain ⟨v1, v2, v3⟩ := hderive v hv
    have hi := packStage_inv v1 v2 hu
    have ga : Accepted .hdrenc u := by
      obtain ⟨w1, w2, -, -⟩ := v2
      unfold packStage at hu
      split at hu
      · cases hu
      · split at hu
        · cases hu
        · cases hu
          exact ⟨w1, w2, rfl, v3⟩
    exact ⟨fun t e => hdrencStage_inv hi ga e, fun r t e => by cases e⟩

theorem State.cleared_inv (s : State) : s.cleared.Inv := by
  constructor
  all_goals constructor <;> simp [State.reset] <;> exact holds_nil

/-- Every command keeps the invariant. -/
theorem exec_inv {i : Instr} {s t : State} (h : s.Inv) (e : exec i s = .next t) : t.Inv := by
  cases i
  case nop => exact issue_inv (g := guardAlways) (b := Stage.done) h (fun _ => ⟨fun _ e => by cases e; exact h, fun _ _ e => by cases e⟩) e
  case clear => exact issue_inv (g := guardAlways) (b := clearStage) h (fun _ => ⟨fun _ e => by cases e; exact s.cleared_inv, fun _ _ e => by cases e⟩) e
  case count =>
    exact issue_inv h (fun g => ⟨fun _ e => countStage_inv h ((guardOpen_iff s).mp g) e, fun _ _ e => absurd e (countStage_not_raised _ _ _)⟩) e
  case build =>
    refine issue_inv h (fun g => ⟨fun _ e => ?_, fun _ _ e => by cases e⟩) e
    obtain ⟨g1, g2, g3⟩ := (guardBuild_iff s).mp g
    exact buildStage_inv h g1 g2 g3 e
  case derive =>
    refine issue_inv h (fun g => ⟨fun _ e => ?_, fun _ _ e => absurd e (deriveStage_not_raised _ _ _)⟩) e
    obtain ⟨-, g2, g3⟩ := (guardDerive_iff s).mp g
    exact deriveStage_inv h g2 g3 e
  case pack => exact issue_inv h (fun g => packStage_sound h ((guardPack_iff s).mp g)) e
  case hdrenc =>
    exact issue_inv h (fun g => ⟨fun _ e => hdrencStage_inv h ((guardHdrenc_iff s).mp g) e, fun _ _ e => by cases e⟩) e
  case hdrdec => exact issue_inv h (fun g => hdrdecStage_sound h ((guardOpen_iff s).mp g)) e
  case unpack => exact issue_inv h (fun g => unpackStage_sound h ((guardUnpack_iff s).mp g)) e
  case compress => exact issue_inv h (fun g => compressStage_sound h ((guardOpen_iff s).mp g)) e
  case decompress => exact issue_inv h (fun g => decompressStage_sound h ((guardOpen_iff s).mp g)) e

/-- Every command sequence keeps the invariant. -/
theorem runCommands_inv {is : List Instr} {s t : State} (h : s.Inv) (e : runCommands is s = .next t) : t.Inv := by
  induction is generalizing s with
  | nil =>
    cases e
    exact h
  | cons i is ih =>
    simp only [runCommands] at e
    split at e
    · exact ih (exec_inv h ‹_›) e
    · cases e
    · cases e

/-! ### The fields the invariant does not read -/

theorem State.Inv.withHostIn {s : State} (h : s.Inv) (ops : List HostOp) : ({ s with hostIn := ops } : State).Inv := by
  obtain ⟨⟨a1, a2, a3, a4, a5, a6, a7, a8, a9, a10⟩, ⟨b1, b2, b3, b4, b5, b6, b7, b8⟩, ⟨c1, c2, c3, c4, c5, c6, c7⟩⟩ := h
  exact ⟨⟨a1, a2, a3, a4, a5, a6, a7, a8, a9, a10⟩, ⟨b1, b2, b3, b4, b5, b6, b7, b8⟩, ⟨c1, c2, c3, c4, c5, c6, c7⟩⟩

theorem State.Inv.withReply {s : State} (h : s.Inv) (r : Option Reply) : ({ s with reply := r } : State).Inv := by
  obtain ⟨⟨a1, a2, a3, a4, a5, a6, a7, a8, a9, a10⟩, ⟨b1, b2, b3, b4, b5, b6, b7, b8⟩, ⟨c1, c2, c3, c4, c5, c6, c7⟩⟩ := h
  exact ⟨⟨a1, a2, a3, a4, a5, a6, a7, a8, a9, a10⟩, ⟨b1, b2, b3, b4, b5, b6, b7, b8⟩, ⟨c1, c2, c3, c4, c5, c6, c7⟩⟩

/-- Under the invariant every byte of the input has a value. -/
theorem State.Inv.inBytes {s : State} (h : s.Inv) : ∃ bs, s.inBytes = some bs :=
  Option.isSome_iff_exists.mp (h.buffers.input.readN_isSome (by omega))

end Sys2Proof.Machine
end

