-- ==== Sys2Proof/Tests/Slice0.lean ====
section
/-! SUPPORT. The model's own tests. Expected values are those of 95_test_vectors.md (the vector's id is in the docstring), of the command table, or worked out by
hand from the rule named. Then the witnesses: for each statement with hypotheses, a state and operands that meet them all. -/

open Sys2Proof Sys2Proof.Machine

namespace Sys2Proof.Tests

/-! ### Ill-formed words, one for each check of WellFormed -/

/-- Group 3 does not exist (30_encoding.md R91). -/
theorem test_illformed_group : C8.groupKnown ⟨3, 0⟩ = false ∧ C8.wellFormed ⟨3, 0⟩ = false := by decide
/-- Group 0 has no function 2 (30_encoding.md R93). -/
theorem test_illformed_control : C8.controlKnown ⟨0, 2⟩ = false ∧ C8.wellFormed ⟨0, 2⟩ = false := by decide
/-- Group 1 has no function 5 (30_encoding.md R93). -/
theorem test_illformed_stage : C8.stageKnown ⟨1, 5⟩ = false ∧ C8.wellFormed ⟨1, 5⟩ = false := by decide
/-- Group 2 has no function 2 (30_encoding.md R93). -/
theorem test_illformed_composite : C8.compositeKnown ⟨2, 2⟩ = false ∧ C8.wellFormed ⟨2, 2⟩ = false := by decide
/-- A word is well-formed exactly when the decoder takes its byte. -/
theorem test_wellformed_iff_decodes :
    ∀ b : Byte, (byteFields b).wellFormed = (match decode b with | .ok _ => true | .error _ => false) := by decide +kernel

/-! ### Every constructor's byte, written out from the command table (30_encoding.md R96) -/

theorem test_decode_nop : decode 0b00000000 = .ok .nop := by decide
theorem test_decode_clear : decode 0b00000001 = .ok .clear := by decide
theorem test_decode_count : decode 0b00010000 = .ok .count := by decide
theorem test_decode_build : decode 0b00010001 = .ok .build := by decide
theorem test_decode_derive : decode 0b00010010 = .ok .derive := by decide
theorem test_decode_pack : decode 0b00010011 = .ok .pack := by decide
theorem test_decode_hdrenc : decode 0b00010100 = .ok .hdrenc := by decide
theorem test_decode_hdrdec : decode 0b00011000 = .ok .hdrdec := by decide
theorem test_decode_unpack : decode 0b00011001 = .ok .unpack := by decide
theorem test_decode_compress : decode 0b00100000 = .ok .compress := by decide
theorem test_decode_decompress : decode 0b00100001 = .ok .decompress := by decide
/-- 0x15 lies between `HDRENC` and `HDRDEC` and is reserved (30_encoding.md R95). -/
theorem test_decode_reserved : decode 0b00010101 = .error (.reserved 0x15) := by decide
theorem test_decodeTableWord : decodeTableWord 8 0x21 = some .decompress ∧ decodeTableWord 8 0x22 = none := by decide

/-! ### Helpers -/

/-- A fresh session with this input pushed, under the capacity `cap` of the output buffer. -/
def freshCap (cap : Nat) (bs : List Byte) : State :=
  { State.reset with
    cfg := ⟨BitVec.allOnes 64, BitVec.ofNat 64 cap⟩, inBuf := Memory.writeN [] 0 bs, inLen := BitVec.ofNat 64 bs.length }

def fresh (bs : List Byte) : State := freshCap 10000 bs

/-- The next state of an outcome; the state after reset where it is none. -/
def nextOf (o : Host.Outcome State Fault Refusal) : State :=
  match o with
  | .next t => t
  | _ => State.reset

/-- The outcome is a next state. -/
def isNext (o : Host.Outcome State Fault Refusal) : Bool :=
  match o with
  | .next _ => true
  | _ => false

theorem eq_next {o : Host.Outcome State Fault Refusal} (h : isNext o = true) : o = .next (nextOf o) := by
  cases o with
  | next t => rfl
  | fault f => cases h
  | refused r => cases h

/-- The state after one step in which the host writes the command byte `b`. -/
def afterByte (b : Byte) (s : State) : State :=
  nextOf (step { s with hostIn := [.write .reg 0 b] })

/-- "AACD" (95_test_vectors.md S1). -/
def aacd : List Byte := [0x41, 0x41, 0x43, 0x44]

/-- The header of "AACD" with the final-byte bit count `f` (95_test_vectors.md S2). -/
def aacdHeader (f : Byte) : List Byte :=
  [0, 0, 0, 0, 0, 0, 0, 0x1C] ++ [f] ++ [0x41, 0, 0, 0, 0, 0, 0, 0, 2] ++ [0x43, 0, 0, 0, 0, 0, 0, 0, 1] ++ [0x44, 0, 0, 0, 0, 0, 0, 0, 1]

/-- The header of "AACD" with the bit count `f`, then the payload byte `b`; the artifact of "AACD" has 6 and 0x34 (95_test_vectors.md H8). -/
def aacdStream (f b : Byte) : List Byte := aacdHeader f ++ [b]

/-- The counts of "AACD" (95_test_vectors.md F3). -/
def aacdFreq : ByteTable Count :=
  ((ByteTable.put (Vector.replicate 256 0) 0x41 2).put 0x43 1).put 0x44 1

/-- The last node of the tree of "AACD" (95_test_vectors.md B6). -/
def aacdRoot : Node := ⟨.internal, 4, 0, 0, 3, 0x41⟩

/-- The tree of "AACD" (95_test_vectors.md B6). -/
def aacdTree : List Node :=
  [⟨.leaf, 2, 0x41, 0, 0, 0x41⟩, ⟨.leaf, 1, 0x43, 0, 0, 0x43⟩, ⟨.leaf, 1, 0x44, 0, 0, 0x44⟩, ⟨.internal, 2, 0, 1, 2, 0x43⟩, aacdRoot]

/-- The code table of "AACD" (95_test_vectors.md C5). -/
def aacdCodes : CodeTable where
  code := ((ByteTable.put (Vector.replicate 256 0) 0x41 0).put 0x43 1).put 0x44 3
  clen := ((ByteTable.put (Vector.replicate 256 0) 0x41 1).put 0x43 2).put 0x44 2

/-- After `COUNT` of "AACD", as the vectors give it. -/
def atCount (cap : Nat) : State :=
  { freshCap cap aacd with phase := .processing, fv := true, freq := aacdFreq }

/-- After `BUILD` in a session that holds the counts of "AACD". -/
def withTree (s : State) : State :=
  { s with tv := true, te := false, node := aacdTree, nleaf := 3, nnode := 5, root := 4 }

/-- After `DERIVE`. -/
def withCodes (s : State) : State :=
  { s with cv := true, code := aacdCodes.code, clen := aacdCodes.clen }

def atBuild (cap : Nat) : State := withTree (atCount cap)

def atDerive (cap : Nat) : State := withCodes (atBuild cap)

/-- After `PACK`. -/
def atPack (cap : Nat) : State :=
  { atDerive cap with pv := true, outBuf := [(0, 0x34)], outLen := 1, fbc := 6 }

/-- After `HDRENC`. -/
def atReady (cap : Nat) : State :=
  { atPack cap with hv := true, phase := .ready, hdrBuf := Memory.writeN [] 0 (aacdHeader 6), hdrLen := 36, tsize := 28 }

/-- After `HDRDEC` of the header of "AACD" with the bit count `f` and the payload byte `b`. -/
def atHeader (cap : Nat) (f b : Byte) : State :=
  { freshCap cap (aacdStream f b) with
    phase := .processing, mode := .dec, fv := true, hv := true, freq := aacdFreq, tsize := 28, payOff := 36, fbc := BitVec.ofNat 4 f.toNat }

/-- The same with the tree and the codes made before `UNPACK`. -/
def atCodes (cap : Nat) (f b : Byte) : State := withCodes (withTree (atHeader cap f b))

/-! ### The stages on "AACD" -/

/-- F3. -/
theorem test_countBytes : countBytes aacd = aacdFreq := by
  apply ByteTable.ext_get
  intro x
  simp only [countBytes, aacd, List.foldl_cons, List.foldl_nil, aacdFreq, ByteTable.get_put, ByteTable.get_replicate]
  split_ifs <;> (try subst_vars) <;> simp_all

theorem test_presentSymbols : presentSymbols aacdFreq = [0x41, 0x43, 0x44] := by decide +kernel

/-- B6: the leaf A pops before node 3. -/
theorem test_buildTree : buildTree aacdFreq = ⟨aacdTree, [⟨4, aacdRoot⟩]⟩ := by
  simp only [buildTree, leafNodes, test_presentSymbols]
  decide +kernel

/-- C5. -/
theorem test_deriveCodes : deriveCodes false aacdTree 4 = some aacdCodes := by rfl

/-- P9: 0x34, six bits. -/
theorem test_packBytes : packBytes 10000 aacdCodes aacd = .ok (⟨[(0, 0x34)], 1⟩, 6) := by decide +kernel

/-- S2: the header bytes. -/
theorem test_headerBytes : headerBytes aacdFreq 6 = aacdHeader 6 := by
  rw [headerBytes, tableSize, test_presentSymbols]
  decide +kernel

/-- S2, read back, with any bit count the payload byte `b` allows. -/
theorem test_parseHeader (f b : Byte) (h : f.toNat ≤ 8) (h0 : f.toNat ≠ 0) :
    parseHeader (aacdStream f b) = .ok ⟨aacdFreq, BitVec.ofNat 4 f.toNat, 28⟩ := by
  have h8 : ¬ 8 < f.toNat := by omega
  simp [parseHeader, aacdStream, aacdHeader, parseEntries, be64At, bigEndian, byteAt, aacdFreq, h8, h0]

/-- C5: `DecodeStep` on the table of "AACD"; (1, 1) is no entry. -/
theorem test_decodeStep : decodeStep aacdCodes 1 0 = some 0x41 ∧ decodeStep aacdCodes 1 1 = none ∧ decodeStep aacdCodes 2 1 = some 0x43
    ∧ decodeStep aacdCodes 2 3 = some 0x44 := by decide +kernel

/-- The bits 0,0,1,0,1,1 of P9, read back, in each capacity that matters. -/
theorem test_unpackBits :
    unpackBits 4 aacdCodes 0 0 OutBuffer.empty (payloadBits 6 [0x34]) = .ok ⟨Memory.writeN [] 0 aacd, 4⟩
    ∧ unpackBits 3 aacdCodes 0 0 OutBuffer.empty (payloadBits 6 [0x34]) = .error ⟨.cap, 3⟩
    ∧ unpackBits 4 aacdCodes 0 0 OutBuffer.empty (payloadBits 5 [0x34]) = .error ⟨.bits, 3⟩
    ∧ unpackBits 4 aacdCodes 0 0 OutBuffer.empty (payloadBits 2 [0x02]) = .error ⟨.bits, 1⟩ := by
  obtain ⟨h1, h2, h3, h4⟩ := test_decodeStep
  have e6 : payloadBits 6 [0x34] = [false, false, true, false, true, true] := by decide
  have e5 : payloadBits 5 [0x34] = [false, false, true, false, true] := by decide
  have e2 : payloadBits 2 [0x02] = [false, true] := by decide
  rw [e6, e5, e2]
  simp [unpackBits, h1, h2, h3, h4, OutBuffer.append, OutBuffer.empty, aacd, Memory.writeN]

/-! ### Sessions that meet the invariant -/

theorem inv_reset : State.reset.Inv := State.reset.cleared_inv

theorem fresh_meets {cap : Nat} {bs : List Byte} (h : bs.length < 2 ^ 64) : Fresh (freshCap cap bs) bs := by
  have hl : (BitVec.ofNat 64 bs.length).toNat = bs.length := by
    rw [BitVec.toNat_ofNat]
    omega
  have hb : Holds (Memory.writeN [] 0 bs) (BitVec.ofNat 64 bs.length).toNat := by
    have := holds_nil.appendN bs
    rw [hl]
    simpa using this
  have hc : (BitVec.ofNat 64 bs.length).toNat ≤ (BitVec.allOnes 64).toNat := by
    rw [hl, BitVec.toNat_allOnes]
    omega
  obtain ⟨⟨a1, a2, a3, a4, a5, a6, a7, a8, a9, a10⟩, ⟨-, b2, b3, -, -, b6, b7, b8⟩, -⟩ := inv_reset
  refine ⟨⟨⟨a1, a2, a3, a4, a5, a6, a7, a8, a9, a10⟩, ⟨hb, b2, b3, hc, Nat.zero_le _, b6, b7, b8⟩, ?_⟩, rfl, ?_⟩
  · constructor <;> simp [freshCap, State.reset]
  · refine Memory.readN_eq_some.mpr ⟨hl.symm, fun i hi => ?_⟩
    change i < (BitVec.ofNat 64 bs.length).toNat at hi
    rw [hl] at hi
    change (Memory.writeN [] 0 bs).read (0 + i) = _
    rw [Nat.zero_add, Memory.read_writeN, if_pos ⟨Nat.zero_le _, by omega⟩, Nat.sub_zero]

theorem inv_fresh {cap : Nat} {bs : List Byte} (h : bs.length < 2 ^ 64) : (freshCap cap bs).Inv := (fresh_meets h).inv

theorem aacd_meets (cap : Nat) : Fresh (freshCap cap aacd) aacd := fresh_meets (by decide)

theorem header_meets (cap : Nat) (f b : Byte) : Fresh (freshCap cap (aacdStream f b)) (aacdStream f b) :=
  fresh_meets (by simp [aacdStream, aacdHeader])

theorem count_stage (cap : Nat) : countStage (freshCap cap aacd) = .done (atCount cap) := by
  rw [countStage_eq (aacd_meets cap).input, test_countBytes]
  rfl

theorem build_stage {s : State} (h : s.freq = aacdFreq) : buildStage s = .done (withTree s) := by
  simp only [buildStage, buildState, withTree]
  rw [h, test_buildTree, test_presentSymbols]
  rfl

theorem derive_stage {s : State} (h : deriveCodes s.te s.node s.root = some aacdCodes) : deriveStage s = .done (withCodes s) :=
  deriveStage_eq h

theorem pack_stage : packStage (atDerive 10000) = .done (atPack 10000) :=
  packStage_eq_done (s := atDerive 10000) (o := ⟨[(0, 0x34)], 1⟩) (n := 6) (aacd_meets 10000).input test_packBytes

theorem hdrenc_stage : hdrencStage (atPack 10000) = .done (atReady 10000) := by
  have h1 : headerBytes (atPack 10000).freq (atPack 10000).fbc = aacdHeader 6 := test_headerBytes
  have h2 : tableSize (atPack 10000).freq = 28 := by
    show tableSize aacdFreq = 28
    rw [tableSize, test_presentSymbols]
    rfl
  simp only [hdrencStage, h1, h2]
  rfl

theorem compress_stage : compressStage (freshCap 10000 aacd) = .done (atReady 10000) := by
  simp only [compressStage, count_stage, Stage.andThen_done, build_stage (s := atCount 10000) rfl]
  rw [derive_stage (s := withTree (atCount 10000)) test_deriveCodes, Stage.andThen_done]
  exact (congrArg (Stage.andThen · hdrencStage) pack_stage).trans hdrenc_stage

theorem hdrdec_stage (cap : Nat) {f b : Byte} (h : f.toNat ≤ 8) (h0 : f.toNat ≠ 0) :
    hdrdecStage (freshCap cap (aacdStream f b)) = .done (atHeader cap f b) := by
  rw [hdrdecStage_eq_done (header_meets cap f b).input (test_parseHeader f b h h0)]
  rfl

theorem unpack_stage (cap : Nat) (f b : Byte) : unpackStage (atHeader cap f b) = unpackPayload (atCodes cap f b) := by
  have h1 : ensureTree (atHeader cap f b) = .done (withTree (atHeader cap f b)) := build_stage rfl
  have h2 : ensureCodes (withTree (atHeader cap f b)) = .done (atCodes cap f b) :=
    derive_stage (s := withTree (atHeader cap f b)) test_deriveCodes
  rw [unpackStage, h1, Stage.andThen_done, h2, Stage.andThen_done]

/-- F3, B6, C5, P9, H8: each command on the state the one before left. -/
theorem test_count (cap : Nat) : exec .count (freshCap cap aacd) = .next (atCount cap) := by
  rw [exec_count (s := freshCap cap aacd) rfl, count_stage, Stage.finish_done, State.accept_eq rfl]
theorem test_build (cap : Nat) : exec .build (atCount cap) = .next (atBuild cap) := by
  rw [exec_build ⟨rfl, rfl, rfl⟩, build_stage rfl, Stage.finish_done, State.accept_eq rfl, atBuild]
theorem test_derive (cap : Nat) : exec .derive (atBuild cap) = .next (atDerive cap) := by
  rw [exec_derive ⟨rfl, rfl, rfl⟩, derive_stage (s := atBuild cap) test_deriveCodes, Stage.finish_done, State.accept_eq rfl, atDerive]
theorem test_pack : exec .pack (atDerive 10000) = .next (atPack 10000) := by
  rw [exec_pack ⟨rfl, rfl, rfl, rfl⟩, pack_stage, Stage.finish_done, State.accept_eq rfl]
theorem test_hdrenc : exec .hdrenc (atPack 10000) = .next (atReady 10000) := by
  rw [exec_hdrenc ⟨rfl, rfl, rfl, rfl⟩, hdrenc_stage, Stage.finish_done, State.accept_eq rfl]
theorem test_compress : exec .compress (freshCap 10000 aacd) = .next (atReady 10000) := by
  rw [exec_compress (s := freshCap 10000 aacd) rfl, compress_stage, Stage.finish_done, State.accept_eq rfl]
theorem test_hdrdec (cap : Nat) (f b : Byte) (h : f.toNat ≤ 8) (h0 : f.toNat ≠ 0) :
    exec .hdrdec (freshCap cap (aacdStream f b)) = .next (atHeader cap f b) := by
  rw [exec_hdrdec (s := freshCap cap (aacdStream f b)) rfl, hdrdec_stage cap h h0, Stage.finish_done, State.accept_eq rfl]
theorem test_build_header (cap : Nat) (f b : Byte) : exec .build (atHeader cap f b) = .next (withTree (atHeader cap f b)) := by
  rw [exec_build ⟨rfl, rfl, rfl⟩, build_stage rfl, Stage.finish_done, State.accept_eq rfl]
theorem test_derive_header (cap : Nat) (f b : Byte) : exec .derive (withTree (atHeader cap f b)) = .next (atCodes cap f b) := by
  rw [exec_derive ⟨rfl, rfl, rfl⟩, derive_stage (s := withTree (atHeader cap f b)) test_deriveCodes, Stage.finish_done, State.accept_eq rfl, atCodes]

theorem inv_atCount (cap : Nat) : (atCount cap).Inv := exec_inv (aacd_meets cap).inv (test_count cap)
theorem inv_atBuild (cap : Nat) : (atBuild cap).Inv := exec_inv (inv_atCount cap) (test_build cap)
theorem inv_atDerive (cap : Nat) : (atDerive cap).Inv := exec_inv (inv_atBuild cap) (test_derive cap)
theorem inv_atPack : (atPack 10000).Inv := exec_inv (inv_atDerive 10000) test_pack
theorem inv_atReady : (atReady 10000).Inv := exec_inv inv_atPack test_hdrenc
theorem inv_atHeader (cap : Nat) (f b : Byte) (h : f.toNat ≤ 8) (h0 : f.toNat ≠ 0) : (atHeader cap f b).Inv :=
  exec_inv (header_meets cap f b).inv (test_hdrdec cap f b h h0)
theorem inv_atCodes (cap : Nat) (f b : Byte) (h : f.toNat ≤ 8) (h0 : f.toNat ≠ 0) : (atCodes cap f b).Inv :=
  exec_inv (exec_inv (inv_atHeader cap f b h h0) (test_build_header cap f b)) (test_derive_header cap f b)

/-- The code table of the counts of "AACD". -/
theorem codesOf_aacd : codesOf aacdFreq = some aacdCodes := (inv_atDerive 0).session.codes rfl

theorem payload_atCodes (cap : Nat) {f b : Byte} : (atCodes cap f b).payloadBytes = some [b] := by
  have hl : (atCodes cap f b).inLen = BitVec.ofNat 64 (aacdStream f b).length := rfl
  have hn : (aacdStream f b).length = 37 := by simp [aacdStream, aacdHeader]
  have ho : (atCodes cap f b).payOff = 36 := rfl
  have hm : (atCodes cap f b).inBuf = Memory.writeN [] 0 (aacdStream f b) := by
    simp only [atCodes, withCodes, withTree, atHeader, freshCap]
  have hb : (aacdStream f b)[36]? = some b := by simp [aacdStream, aacdHeader]
  have h1 : (BitVec.ofNat 64 37).toNat - (36 : Len).toNat = 1 := by decide
  have h2 : (36 : Len).toNat = 36 := by decide
  have hr : (Memory.writeN [] 0 (aacdStream f b)).read 36 = some b := by
    rw [Memory.read_writeN, hn]
    simpa using hb
  rw [State.payloadBytes, hl, ho, hm, hn, h1, h2]
  simp only [Memory.readN, hr]

/-- `UNPACK` from the bits on. -/
theorem unpack_next {cap : Nat} {f b : Byte} {r : Except Raise OutBuffer}
    (h : unpackBits (BitVec.ofNat 64 cap) aacdCodes 0 0 OutBuffer.empty (payloadBits (BitVec.ofNat 4 f.toNat).toNat [b]) = r) :
    exec .unpack (atHeader cap f b) = .next (match r with
      | .ok out => { atCodes cap f b with outBuf := out.mem, outLen := out.len, pv := true, phase := .ready }
      | .error e => (atCodes cap f b).enterFault e) := by
  rw [exec_unpack ⟨rfl, rfl, rfl, rfl⟩, unpack_stage]
  cases r with
  | ok out =>
    rw [unpackPayload_eq_done (s := atCodes cap f b) (payload_atCodes cap) h, Stage.finish_done, State.accept_eq rfl]
  | error e =>
    rw [unpackPayload_eq_raised (s := atCodes cap f b) (payload_atCodes cap) h, Stage.finish_raised]

/-- The payload 0x34 with 6 bits gives "AACD" in exactly four bytes of `OUT`; with three, and with 5 bits, it faults; so do the two bits 0,1. -/
theorem test_unpack : exec .unpack (atHeader 4 6 0x34) = .next { atCodes 4 6 0x34 with
    outBuf := Memory.writeN [] 0 aacd, outLen := 4, pv := true, phase := .ready } :=
  unpack_next (cap := 4) (f := 6) test_unpackBits.1
theorem test_unpack_cap : exec .unpack (atHeader 3 6 0x34) = .next ((atCodes 3 6 0x34).enterFault ⟨.cap, 3⟩) :=
  unpack_next (cap := 3) (f := 6) test_unpackBits.2.1
theorem test_unpack_bits : exec .unpack (atHeader 4 5 0x34) = .next ((atCodes 4 5 0x34).enterFault ⟨.bits, 3⟩) :=
  unpack_next (cap := 4) (f := 5) test_unpackBits.2.2.1
theorem test_unpack_dangling : exec .unpack (atHeader 4 2 0x02) = .next ((atCodes 4 2 0x02).enterFault ⟨.bits, 1⟩) :=
  unpack_next (cap := 4) (f := 2) test_unpackBits.2.2.2

/-! ### The empty input (95_test_vectors.md S3, B1) -/

theorem presentSymbols_none : presentSymbols (Vector.replicate 256 0) = [] := by
  simp [presentSymbols]

theorem test_buildTree_empty : buildTree (Vector.replicate 256 0) = ⟨[], []⟩ := by
  simp only [buildTree, leafNodes, presentSymbols_none]
  rfl

theorem test_headerBytes_empty : headerBytes (Vector.replicate 256 0) 0 = [0, 0, 0, 0, 0, 0, 0, 1, 0] := by
  rw [headerBytes, tableSize, presentSymbols_none]
  decide

theorem test_parseHeader_empty : parseHeader [0, 0, 0, 0, 0, 0, 0, 1, 0] = .ok ⟨Vector.replicate 256 0, 0, 1⟩ := by
  simp [parseHeader, parseEntries, be64At, bigEndian, byteAt]

/-- The tree and the codes of the empty table. -/
def withNothing (s : State) : State :=
  { s with tv := true, te := true, node := [], nleaf := 0, nnode := 0, cv := true, code := emptyCodes.code, clen := emptyCodes.clen }

def emptyCount (cap : Nat) : State :=
  { freshCap cap [] with phase := .processing, fv := true }

def emptyReady (cap : Nat) : State :=
  { withNothing (emptyCount cap) with
    pv := true, hv := true, phase := .ready, hdrBuf := Memory.writeN [] 0 [0, 0, 0, 0, 0, 0, 0, 1, 0], hdrLen := 9, tsize := 1 }

/-- After `HDRDEC` of the empty artifact. -/
def emptyHeader (cap : Nat) : State :=
  { freshCap cap [0, 0, 0, 0, 0, 0, 0, 1, 0] with
    phase := .processing, mode := .dec, fv := true, hv := true, tsize := 1, payOff := 9, fbc := 0 }

theorem build_derive_empty {s : State} (h : s.freq = Vector.replicate 256 0) :
    (buildStage s).andThen deriveStage = .done (withNothing s) := by
  have hb : buildStage s = .done { s with tv := true, te := true, node := [], nleaf := 0, nnode := 0 } := by
    simp only [buildStage, buildState]
    rw [h, test_buildTree_empty, presentSymbols_none]
    rfl
  rw [hb, Stage.andThen_done]
  exact deriveStage_eq (t := emptyCodes) rfl

theorem empty_meets (cap : Nat) : Fresh (freshCap cap []) [] := fresh_meets (by decide)

theorem test_count_empty (cap : Nat) : exec .count (freshCap cap []) = .next (emptyCount cap) := by
  rw [exec_count (s := freshCap cap []) rfl, countStage_eq (empty_meets cap).input]
  rfl

theorem test_compress_empty (cap : Nat) : exec .compress (freshCap cap []) = .next (emptyReady cap) := by
  have hc : countStage (freshCap cap []) = .done (emptyCount cap) := countStage_eq (empty_meets cap).input
  have hp : packStage (withNothing (emptyCount cap)) = .done { withNothing (emptyCount cap) with pv := true } :=
    packStage_eq_done (o := ⟨[], 0⟩) (n := 0) (empty_meets cap).input rfl
  have hh : hdrencStage { withNothing (emptyCount cap) with pv := true } = .done (emptyReady cap) := by
    have h1 : headerBytes (emptyCount cap).freq (emptyCount cap).fbc = [0, 0, 0, 0, 0, 0, 0, 1, 0] := test_headerBytes_empty
    have h2 : tableSize (emptyCount cap).freq = 1 := by
      show tableSize (Vector.replicate 256 0) = 1
      rw [tableSize, presentSymbols_none]
      rfl
    simp only [hdrencStage, withNothing, h1, h2]
    rfl
  rw [exec_compress (s := freshCap cap []) rfl, compressStage, hc, Stage.andThen_done, build_derive_empty rfl, Stage.andThen_done, hp,
    Stage.andThen_done, hh, Stage.finish_done, State.accept_eq rfl]

theorem emptyHeader_meets (cap : Nat) : Fresh (freshCap cap [0, 0, 0, 0, 0, 0, 0, 1, 0]) [0, 0, 0, 0, 0, 0, 0, 1, 0] :=
  fresh_meets (by decide)

theorem test_hdrdec_empty (cap : Nat) : exec .hdrdec (freshCap cap [0, 0, 0, 0, 0, 0, 0, 1, 0]) = .next (emptyHeader cap) := by
  rw [exec_hdrdec (s := freshCap cap _) rfl, hdrdecStage_eq_done (emptyHeader_meets cap).input test_parseHeader_empty]
  rfl

theorem inv_emptyCount (cap : Nat) : (emptyCount cap).Inv := exec_inv (empty_meets cap).inv (test_count_empty cap)
theorem inv_emptyHeader (cap : Nat) : (emptyHeader cap).Inv := exec_inv (emptyHeader_meets cap).inv (test_hdrdec_empty cap)

/-! ### Single steps -/

/-- A refused `BUILD`, then `NOP`: `LASTREF` back to 0 (10_state.md R38). -/
theorem test_nop : (afterByte 0x11 State.reset).status = 0x00020000 ∧ (afterByte 0x00 (afterByte 0x11 State.reset)).status = 0 := by
  decide +kernel
/-- `CLEAR` (46_sequencer.md R228). -/
theorem test_clear : (afterByte 0x01 (atPack 9)).status = 0 ∧ (afterByte 0x01 (atPack 9)).inBuf = [] := by decide +kernel
/-- `COUNT` issued again is refused (95_test_vectors.md section 2.1). -/
theorem test_count_again : (afterByte 0x10 (atCount 9)).status = 0x00020009 := by decide +kernel
/-- The `STATUS` words of section 2 of 95_test_vectors.md. -/
theorem test_status : (atBuild 9).status = 0x00000019 ∧ (atPack 9).status = 0x00000079 ∧ (atReady 9).status = 0x000000FA
    ∧ (atHeader 9 6 0x34).status = 0x0000008D ∧ (emptyReady 9).status = 0x000001FA ∧ ((atCodes 9 5 0).enterFault ⟨.bits, 3⟩).status = 0x000050BF := by
  decide +kernel
/-- P4: a full last byte has the bit count 8 (90_conflicts.md C2). -/
theorem test_pack_full : (packBytes 9 aacdCodes (List.replicate 8 0x41)).toOption.map Prod.snd = some 8 := by decide +kernel
/-- C2: the single leaf. -/
theorem test_derive_single : (deriveCodes false [⟨.leaf, 4, 0x41, 0, 0, 0x41⟩] 0).map (codeWord · 0x41) = some [false] := by decide +kernel
/-- A stream of 7 bytes: `E_HDR_TRUNC(7)`. -/
theorem test_hdrdec_short : (afterByte 0x18 (fresh [0, 0, 0, 0, 0, 0, 0])).status = 0x00001007
    ∧ hostRead (afterByte 0x18 (fresh [0, 0, 0, 0, 0, 0, 0])) .reg 12 = some ⟨64, 7⟩ := by decide +kernel
/-- P2 with `OUT_CAP` = 0. -/
theorem test_compress_cap : (afterByte 0x20 (freshCap 0 [0x41])).status = 0x0000903B := by decide +kernel
/-- A reserved byte: `R_ILLEGAL` (30_encoding.md R95). -/
theorem test_reserved_byte : (afterByte 0x15 State.reset).status = 0x00010000 := by decide +kernel
/-- `IN_PUSH` at `IN_CAP`, in a session that has started, and in a fresh one (20_memory.md R66). -/
theorem test_push : (pushInput { State.reset with cfg := ⟨0, 0⟩ } 0x55).status = 0x00030000 ∧ (pushInput (atCount 9) 0x55).status = 0x00040009
    ∧ (pushInput State.reset 0x55).inBuf = [(0, 0x55)] := by decide +kernel
/-- The word of node 3 of B6 (95_test_vectors.md section 2.2). -/
theorem test_node_word : hostRead (atBuild 9) .node 3 = some ⟨107, BitVec.ofNat 107 (2 ^ 106 + 0x43 * 2 ^ 98 + 2 * 2 ^ 89 + 2 ^ 80 + 2)⟩ := by
  decide +kernel
/-- A command placed by `withFetchWord` after reset runs in the next step. -/
theorem test_withFetchWord : (nextOf (step (State.reset.withFetchWord 8 0x10))).status = 0x00000009 := by decide +kernel

/-! ### Witnesses: decoding, guards, the invariant -/

/-- The bounds of the four ranges of reserved bytes, and beside them bytes that are not reserved. -/
theorem witness_ReservedByteRefused :
    (∀ b ∈ [0x02, 0x0F, 0x15, 0x17, 0x1A, 0x1F, 0x22, 0xFF],
      ∃ (s : State) (ops : List HostOp), s.busy = false ∧ s.hostIn = .write .reg 0 b :: ops ∧ reservedByte b)
    ∧ ∀ b ∈ [0x01, 0x10, 0x14, 0x18, 0x19, 0x20, 0x21], ¬ reservedByte b := by
  constructor
  · intro b hb
    refine ⟨{ State.reset with hostIn := [.write .reg 0 b] }, [], rfl, rfl, ?_⟩
    revert b
    simp only [reservedByte]
    decide
  · simp only [reservedByte]
    decide

theorem witness_StepRunsDecodedCommand :
    (∃ (s : State) (ops : List HostOp) (b : Byte) (i : Instr), s.busy = false ∧ s.hostIn = .write .reg 0 b :: ops ∧ decode b = .ok i)
    ∧ ∃ (w : Nat) (i : Instr), decodeTableWord 8 w = some i :=
  ⟨⟨{ State.reset with hostIn := [.write .reg 0 0x10] }, [], 0x10, .count, rfl, rfl, test_decode_count⟩,
    0x21, .decompress, test_decodeTableWord.1⟩

/-- Every command that has a guard, with a state its guard is false in. -/
theorem witness_GuardFalseRefuses : ∀ i : Instr, i ≠ .nop → i ≠ .clear → ¬ Accepted i { State.reset with phase := .faulted } := by
  intro i
  cases i <;> simp [Accepted]

/-- A session with the host's next transactions. -/
def withOps (s : State) (ops : List HostOp) : State := { s with hostIn := ops }

theorem inv_withOps {s : State} (h : s.Inv) (ops : List HostOp) : (withOps s ops).Inv := h.withHostIn ops

theorem step_command {s : State} {b : Byte} {i : Instr} (h : s.busy = false) (hh : s.hostIn = []) (hd : decode b = .ok i) :
    step (withOps s [.write .reg 0 b]) = exec i s := by
  have hs : ({ withOps s [.write .reg 0 b] with hostIn := [] } : State) = s := by
    cases s
    cases hh
    rfl
  rw [step_of_cons (s := withOps s [.write .reg 0 b]) rfl, hs, hostTransaction_of_not_busy h]
  show writeCommand s b = _
  rw [writeCommand, hd]

theorem step_compress : step (withOps (freshCap 10000 aacd) [.write .reg 0 0x20]) = .next (atReady 10000) :=
  (step_command rfl rfl test_decode_compress).trans test_compress

theorem witness_StepKeepsInvariant : ∃ s s' : State, s.Inv ∧ step s = .next s' :=
  ⟨_, _, inv_withOps (aacd_meets 10000).inv _, step_compress⟩

theorem witness_StepAlwaysAnswers : ∃ s : State, s.Inv :=
  ⟨atReady 10000, inv_atReady⟩

/-- Two states after reset that hold different counts, which nothing can read, with `COUNT` to be issued. -/
theorem witness_UnreadableStateNeverShows :
    ∃ s t s' : State, s ≠ t ∧ s.Inv ∧ t.Inv ∧ SameView s t ∧ step s = .next s' := by
  have hi : ({ State.reset with freq := Vector.replicate 256 7 } : State).Inv := by
    obtain ⟨⟨a1, a2, a3, a4, a5, a6, a7, a8, a9, a10⟩, ⟨b1, b2, b3, b4, b5, b6, b7, b8⟩, -⟩ := inv_reset
    refine ⟨⟨a1, a2, a3, a4, a5, a6, a7, a8, a9, a10⟩, ⟨b1, b2, b3, b4, b5, b6, b7, b8⟩, ?_⟩
    constructor <;> simp [State.reset]
  refine ⟨withOps State.reset [.write .reg 0 0x10], withOps { State.reset with freq := Vector.replicate 256 7 } [.write .reg 0 0x10],
    nextOf (step (withOps State.reset [.write .reg 0 0x10])), fun e => ?_, inv_withOps inv_reset _, inv_withOps hi _, ?_, eq_next rfl⟩
  · have : ByteTable.get (Vector.replicate 256 (0 : Count)) 0 = ByteTable.get (Vector.replicate 256 (7 : Count)) 0 :=
      congrArg (fun u : State => u.freq.get 0) e
    simp only [ByteTable.get_replicate] at this
    exact absurd this (by decide)
  · refine ⟨fun space i => ?_, rfl, rfl, rfl, rfl⟩
    cases space <;> rfl

/-- A faulted session: one step that does not end it, one that does. -/
theorem witness_FaultedLeftOnlyByClearOrReset :
    (∃ s s' : State, s.Inv ∧ s.phase = .faulted ∧ step s = .next s' ∧ ¬ s.aboutToEnd)
    ∧ ∃ s s' : State, s.Inv ∧ s.phase = .faulted ∧ step s = .next s' ∧ s.aboutToEnd := by
  have hi : ((atCodes 4 5 0x34).enterFault ⟨.bits, 3⟩).Inv :=
    exec_inv (inv_atHeader 4 5 0x34 (by decide) (by decide)) test_unpack_bits
  exact ⟨⟨_, _, inv_withOps hi [.write .reg 0 0x19], rfl, step_command rfl rfl test_decode_unpack,
      by simp [withOps, State.aboutToEnd, endsSession]⟩,
    _, _, inv_withOps hi [.write .reg 0 0x01], rfl, (step_command rfl rfl test_decode_clear).trans (exec_clear _),
      by simp [withOps, State.aboutToEnd, endsSession]⟩

/-- A completed compression has every flag set. -/
theorem witness_ValidStateIsImmutable :
    ∃ s s' : State, s.Inv ∧ ¬ s.aboutToEnd ∧ step s = .next s' ∧ s.fv = true ∧ s.tv = true ∧ s.cv = true ∧ s.pv = true ∧ s.hv = true
      ∧ s.phase ≠ .notStarted :=
  ⟨_, _, inv_withOps inv_atReady [.write .reg 0 0x00], by simp [withOps, State.aboutToEnd, endsSession],
    (step_command rfl rfl test_decode_nop).trans (exec_nop _), rfl, rfl, rfl, rfl, rfl, fun h => Phase.noConfusion h⟩

/-- A session already faulted, and one that faults in this step. -/
theorem witness_ErrAndFinfoWrittenOnlyAtFaultEntry :
    (∃ s s' : State, s.Inv ∧ step s = .next s' ∧ ¬ s.aboutToEnd ∧ s.err ≠ .none)
    ∧ ∃ s s' : State, s.Inv ∧ step s = .next s' ∧ ¬ s.aboutToEnd ∧ s'.err ≠ s.err ∧ s'.finfo ≠ s.finfo := by
  have hh := inv_atHeader 4 5 0x34 (by decide) (by decide)
  exact ⟨⟨_, _, inv_withOps (exec_inv hh test_unpack_bits) [.write .reg 0 0x00],
      (step_command rfl rfl test_decode_nop).trans (exec_nop _), by simp [withOps, State.aboutToEnd, endsSession],
      fun h => ErrCode.noConfusion h⟩,
    _, _, inv_withOps hh [.write .reg 0 0x19], (step_command rfl rfl test_decode_unpack).trans test_unpack_bits,
      by simp [withOps, State.aboutToEnd, endsSession], fun h => ErrCode.noConfusion h, fun h => absurd (congrArg BitVec.toNat h) (by decide)⟩

/-! ### Witnesses: host access -/

/-- Each kind of transaction: a reserved byte, an accepted and a refused command, `IN_PUSH`, reset, another write, a read. -/
theorem witness_LastrefRecordsTheLastWrite :
    ∀ op ∈ [HostOp.write .reg 0 0x15, .write .reg 0 0x00, .write .reg 0 0x11, .write .reg 2 0x41, .reset, .write .freq 0 0x41, .read .reg 1],
      ∃ (s s' : State) (ops : List HostOp), s.busy = false ∧ s.hostIn = op :: ops ∧ step s = .next s' := by
  intro op hop
  refine ⟨withOps State.reset [op], nextOf (step (withOps State.reset [op])), [], rfl, rfl, eq_next ?_⟩
  revert op
  decide +kernel

/-- The three cases of a push: frozen, full (also at the capacity 0), stored in the last free byte. -/
theorem witness_PushAppendsToInput :
    (∃ (s : State) (ops : List HostOp) (b : Byte), s.busy = false ∧ s.hostIn = .write .reg 2 b :: ops ∧ s.phase ≠ .notStarted)
    ∧ (∃ (s : State) (ops : List HostOp) (b : Byte), s.busy = false ∧ s.hostIn = .write .reg 2 b :: ops ∧ s.phase = .notStarted
        ∧ s.inLen = s.cfg.inCap)
    ∧ ∃ (s : State) (ops : List HostOp) (b : Byte), s.busy = false ∧ s.hostIn = .write .reg 2 b :: ops ∧ s.phase = .notStarted
        ∧ s.inLen ≠ s.cfg.inCap ∧ s.inLen + 1 = s.cfg.inCap :=
  ⟨⟨withOps (atCount 9) [.write .reg 2 0x41], [], 0x41, rfl, rfl, fun h => Phase.noConfusion h⟩,
    ⟨withOps { State.reset with cfg := ⟨0, 0⟩ } [.write .reg 2 0x41], [], 0x41, rfl, rfl, rfl, rfl⟩,
    withOps { State.reset with cfg := ⟨1, 0⟩ } [.write .reg 2 0x41], [], 0x41, rfl, rfl, rfl, by decide, by decide⟩

/-- Registers beside the two that act, and other spaces. -/
theorem witness_OtherWritesHaveNoEffect :
    ∀ p ∈ [(Space.reg, 1), (.reg, 3), (.inbuf, 0), (.outbuf, 2)], ∃ (s : State) (ops : List HostOp) (b : Byte), s.busy = false
      ∧ s.hostIn = .write p.1 p.2 b :: ops ∧ ¬ (p.1 = .reg ∧ (p.2 = 0 ∨ p.2 = 2)) := by
  intro p hp
  refine ⟨withOps State.reset [.write p.1 p.2 0x41], [], 0x41, rfl, rfl, ?_⟩
  revert p
  decide

theorem witness_ReadChangesNothing : ∃ (s : State) (ops : List HostOp), s.busy = false ∧ s.hostIn = .read .reg 1 :: ops :=
  ⟨withOps State.reset [.read .reg 1], [], rfl, rfl⟩

/-- Element 255 of a table of 256, the last node, the last payload byte; and one beyond each. -/
theorem witness_ReadAnsweredExactlyWhenReadable :
    (atPack 10000).Inv ∧ (hostRead (atPack 10000) .freq 255).isSome = true ∧ (hostRead (atPack 10000) .freq 256).isSome = false
      ∧ (hostRead (atPack 10000) .node 4).isSome = true ∧ (hostRead (atPack 10000) .node 5).isSome = false
      ∧ (hostRead (atPack 10000) .outbuf 0).isSome = true ∧ (hostRead (atPack 10000) .outbuf 1).isSome = false
      ∧ (hostRead (atPack 10000) .reg 5).isSome = false ∧ (hostRead (atPack 10000) .reg 6).isSome = true :=
  ⟨inv_atPack, by decide +kernel⟩

/-- A valid table, and the last node. -/
theorem witness_ReadFormats :
    (∃ s : State, s.fv = true ∧ s.cv = true)
    ∧ ∃ (s : State) (i : Nat) (n : Node), s.tv = true ∧ i + 1 = s.nnode.toNat ∧ i < s.nnode.toNat ∧ s.node[i]? = some n :=
  ⟨⟨atPack 9, rfl, rfl⟩, atPack 9, 4, aacdRoot, rfl, by decide, by decide, rfl⟩

/-- The last header byte, the payload byte, the first index beyond the artifact. -/
theorem witness_ArtifactIsHeaderThenPayload :
    (atReady 10000).Inv ∧ (atReady 10000).phase = .ready ∧ (atReady 10000).mode = .enc ∧ 35 < (atReady 10000).hdrLen.toNat
      ∧ ((atReady 10000).hdrLen.toNat ≤ 36 ∧ 36 < (atReady 10000).hdrLen.toNat + (atReady 10000).outLen.toNat)
      ∧ (atReady 10000).hdrLen.toNat + (atReady 10000).outLen.toNat ≤ 37 :=
  ⟨inv_atReady, rfl, rfl, by decide, by decide, by decide⟩

theorem witness_BusyEngineTakesOnlyStatusReadAndReset : ∃ s : State, s.busy = true :=
  ⟨{ State.reset with busy := true }, rfl⟩

/-! ### Witnesses: COUNT, BUILD, DERIVE -/

/-- The empty input and "AACD". -/
theorem witness_CountTabulatesInput :
    (∃ s : State, s.phase = .notStarted ∧ s.inBytes = some []) ∧ ∃ s : State, s.phase = .notStarted ∧ s.inBytes = some aacd :=
  ⟨⟨_, rfl, (empty_meets 9).input⟩, _, rfl, (aacd_meets 9).input⟩

theorem witness_CountsSumToInputLength :
    ∃ s t : State, s.phase = .notStarted ∧ s.inBytes = some aacd ∧ exec .count s = .next t :=
  ⟨_, _, rfl, (aacd_meets 9).input, test_count 9⟩

/-- "AACD", and the empty table. -/
theorem witness_BuildCompletesWithTreeNumbers : Accepted .build (atCount 9) ∧ Accepted .build (emptyCount 9) :=
  ⟨⟨rfl, rfl, rfl⟩, rfl, rfl, rfl⟩

/-- The last leaf, and the first node after the leaves. -/
theorem witness_BuildNumbersLeavesFirst :
    ∃ s t : State, Accepted .build s ∧ exec .build s = .next t ∧ (allBytes.filter (fun x => s.freq.get x ≠ 0))[2]? = some 0x44
      ∧ t.nleaf.toNat ≤ 3 ∧ t.node[3]? = some ⟨.internal, 2, 0, 1, 2, 0x43⟩ :=
  ⟨_, _, ⟨rfl, rfl, rfl⟩, test_build 9, congrArg (fun l : List Byte => l[2]?) test_presentSymbols, by decide, rfl⟩

/-- Node 3 joins two leaves, node 4 a leaf and node 3. -/
theorem witness_InternalNodesJoinTwoEarlierNodes :
    ∃ s t : State, Accepted .build s ∧ exec .build s = .next t ∧ t.node[3]? = some ⟨.internal, 2, 0, 1, 2, 0x43⟩
      ∧ t.node[4]? = some aacdRoot ∧ aacdRoot.kind = .internal :=
  ⟨_, _, ⟨rfl, rfl, rfl⟩, test_build 9, rfl, rfl, rfl⟩

/-- A node that is not the root, and the root. -/
theorem witness_EveryNodeButTheRootHasOneParent :
    ∃ s t : State, Accepted .build s ∧ exec .build s = .next t ∧ 0 < t.node.length ∧ 0 ≠ t.root.toNat ∧ 4 < t.node.length ∧ 4 = t.root.toNat :=
  ⟨_, _, ⟨rfl, rfl, rfl⟩, test_build 9, by decide, by decide, by decide, by decide⟩

/-- A tree in encode mode, from a session that meets the invariant. -/
theorem witness_RootWeighsAllCounts :
    ∃ (s t : State) (n : Node), Accepted .build s ∧ exec .build s = .next t ∧ t.te = false ∧ t.node[t.root.toNat]? = some n ∧ s.Inv ∧ s.mode = .enc :=
  ⟨_, _, aacdRoot, ⟨rfl, rfl, rfl⟩, test_build 9, rfl, rfl, inv_atCount 9, rfl⟩

/-- The leaves C and D of "AACD" in either order. -/
theorem witness_QueueOrderPlaysNoPart :
    ∃ (m : Member) (pq : List Member) (m' : Member) (pq' : List Member),
      (m :: pq).Perm (m' :: pq') ∧ ((m :: pq).map (fun x => x.node.minsym)).Nodup ∧ m ≠ m' :=
  ⟨⟨1, ⟨.leaf, 1, 0x43, 0, 0, 0x43⟩⟩, [⟨2, ⟨.leaf, 1, 0x44, 0, 0, 0x44⟩⟩], ⟨2, ⟨.leaf, 1, 0x44, 0, 0, 0x44⟩⟩, [⟨1, ⟨.leaf, 1, 0x43, 0, 0, 0x43⟩⟩],
    List.Perm.swap .., by decide, by decide⟩

/-- A session with an absent and a present symbol. -/
theorem witness_DeriveRecordsPaths :
    (atBuild 9).Inv ∧ Accepted .derive (atBuild 9) ∧ (atBuild 9).freq.get 0x00 = 0 ∧ (atBuild 9).freq.get 0x41 ≠ 0 :=
  ⟨inv_atBuild 9, ⟨rfl, rfl, rfl⟩, by decide +kernel, by decide +kernel⟩

/-- An input of one symbol, counted and built. -/
theorem witness_SingleLeafGetsOneBitCode :
    ∃ s t : State, s.Inv ∧ Accepted .derive s ∧ s.nleaf.toNat = 1 ∧ exec .derive s = .next t := by
  have h1 : isNext (runCommands [.count, .build] (fresh [0])) = true := rfl
  have h2 : (nextOf (runCommands [.count, .build] (fresh [0]))).nleaf.toNat = 1
      ∧ isNext (exec .derive (nextOf (runCommands [.count, .build] (fresh [0])))) = true := by decide +kernel
  exact ⟨_, _, runCommands_inv (inv_fresh (by decide)) (eq_next h1), ⟨rfl, rfl, rfl⟩, h2.1, eq_next h2.2⟩

theorem witness_CodeTableEntriesWellFormed : (atDerive 9).Inv ∧ (atDerive 9).cv = true :=
  ⟨inv_atDerive 9, rfl⟩

theorem witness_CodesArePrefixFree :
    ∃ x y : Byte, (atDerive 9).Inv ∧ (atDerive 9).cv = true ∧ x ≠ y ∧ (atDerive 9).freq.get x ≠ 0 ∧ (atDerive 9).freq.get y ≠ 0 :=
  ⟨0x41, 0x43, inv_atDerive 9, rfl, by decide, by decide +kernel, by decide +kernel⟩

theorem witness_DecodeStepMatchesExactEntry : ∃ len : Nat, (atDerive 9).Inv ∧ (atDerive 9).cv = true ∧ 1 ≤ len :=
  ⟨1, inv_atDerive 9, rfl, Nat.le_refl 1⟩

/-! ### Witnesses: PACK, HDRENC, HDRDEC -/

/-- "AACD" with exactly the one byte it needs, and the empty input with no room at all. -/
theorem witness_PackEmitsTheBitstream :
    ∀ p ∈ [(aacd, 1), ([], 0)], ∃ s : State, Accepted .pack s ∧ s.inBytes = some p.1 ∧ (∀ b ∈ p.1, s.clen.get b ≠ 0)
      ∧ (bitCount s.codeTable p.1 + 7) / 8 ≤ s.cfg.outCap.toNat := by
  intro p hp
  refine ⟨withCodes { freshCap p.2 p.1 with phase := .processing }, ⟨rfl, rfl, rfl, rfl⟩, ?_⟩
  revert p
  decide +kernel

theorem witness_PackCapacityFault :
    ∃ s : State, Accepted .pack s ∧ s.inBytes = some aacd ∧ (∀ b ∈ aacd, s.clen.get b ≠ 0)
      ∧ s.cfg.outCap.toNat < (bitCount s.codeTable aacd + 7) / 8 :=
  ⟨atDerive 0, ⟨rfl, rfl, rfl, rfl⟩, (aacd_meets 0).input, by decide +kernel, by decide +kernel⟩

theorem witness_InternalFaultUnreachable : ∃ s s' : State, s.Inv ∧ s.err ≠ .internal ∧ step s = .next s' :=
  ⟨_, _, inv_withOps (aacd_meets 10000).inv _, fun h => ErrCode.noConfusion h, step_compress⟩

theorem witness_HdrencWritesTheLayout :
    ∃ (s : State) (present : List Byte), present = allBytes.filter (fun x => s.freq.get x ≠ 0) ∧ Accepted .hdrenc s ∧ present[2]? = some 0x44 :=
  ⟨atPack 9, _, test_presentSymbols.symm, ⟨rfl, rfl, rfl, rfl⟩, rfl⟩

/-- Lengths 0 and 7; a table_size of 0 and of 2; a table_size of 1 with nothing after it. -/
theorem witness_HdrdecSizeFaults :
    (∀ bs ∈ [[], [0, 0, 0, 0, 0, 0, 0]], ∃ s : State, s.phase = .notStarted ∧ s.inBytes = some bs ∧ bs.length < 8)
    ∧ (∀ bs ∈ [[0, 0, 0, 0, 0, 0, 0, 0], [0, 0, 0, 0, 0, 0, 0, 2]], ∃ s : State, s.phase = .notStarted ∧ s.inBytes = some bs ∧ 8 ≤ bs.length
        ∧ (field64 bs 0 = 0 ∨ (field64 bs 0 - 1) % 9 ≠ 0))
    ∧ ∃ (s : State) (bs : List Byte), s.phase = .notStarted ∧ s.inBytes = some bs ∧ 8 ≤ bs.length ∧ field64 bs 0 ≠ 0
        ∧ (field64 bs 0 - 1) % 9 = 0 ∧ bs.length < 8 + field64 bs 0 := by
  refine ⟨fun bs hb => ⟨fresh bs, rfl, ?_⟩, fun bs hb => ⟨fresh bs, rfl, ?_⟩, fresh [0, 0, 0, 0, 0, 0, 0, 1], [0, 0, 0, 0, 0, 0, 0, 1], rfl, ?_⟩
  · revert bs
    decide +kernel
  · revert bs
    decide +kernel
  · decide +kernel

/-- A bit count of 9; a bad entry that is the first (count 0), and one that is the last (out of order); a bit count of 0 with a payload, and of 6 with none. -/
theorem witness_HdrdecFieldFaults :
    (∃ (s : State) (bs : List Byte), s.phase = .notStarted ∧ s.inBytes = some bs ∧ sizesGood bs ∧ 8 < (bs.getD 8 0).toNat)
    ∧ (∀ p ∈ [((aacdStream 6 0x34).set 17 0, 0), ((aacdStream 6 0x34).set 27 0x43, 2)], ∃ s : State, s.phase = .notStarted ∧ s.inBytes = some p.1
        ∧ sizesGood p.1 ∧ (p.1.getD 8 0).toNat ≤ 8 ∧ p.2 < entryTotal p.1 ∧ entryBad p.1 p.2 ∧ ∀ j, j < p.2 → ¬ entryBad p.1 j)
    ∧ ∀ bs ∈ [aacdStream 0 0x34, aacdHeader 6], ∃ s : State, s.phase = .notStarted ∧ s.inBytes = some bs ∧ sizesGood bs
        ∧ (bs.getD 8 0).toNat ≤ 8 ∧ (∀ j, j < entryTotal bs → ¬ entryBad bs j) ∧ ¬ (bs.length = 8 + field64 bs 0 ↔ bs.getD 8 0 = 0) := by
  simp only [sizesGood, entryBad]
  refine ⟨⟨fresh (aacdHeader 9), aacdHeader 9, rfl, ?_⟩, fun p hp => ⟨fresh p.1, rfl, (fresh_meets ?_).input, ?_⟩,
    fun bs hb => ⟨fresh bs, rfl, (fresh_meets ?_).input, ?_⟩⟩
  · exact ⟨(fresh_meets (by decide)).input, by decide +kernel⟩
  · revert p
    decide +kernel
  · revert p
    decide +kernel
  · revert bs
    decide +kernel
  · revert bs
    decide +kernel

/-- The artifact of "AACD", and the empty artifact. -/
theorem witness_HdrdecDecodesTheHeader :
    ∀ bs ∈ [aacdStream 6 0x34, [0, 0, 0, 0, 0, 0, 0, 1, 0]], ∃ s : State, s.phase = .notStarted ∧ s.inBytes = some bs ∧ sizesGood bs
      ∧ (bs.getD 8 0).toNat ≤ 8 ∧ (∀ j, j < entryTotal bs → ¬ entryBad bs j) ∧ (bs.length = 8 + field64 bs 0 ↔ bs.getD 8 0 = 0) := by
  simp only [sizesGood, entryBad]
  refine fun bs hb => ⟨fresh bs, rfl, (fresh_meets ?_).input, ?_⟩
  all_goals
    revert bs
    decide +kernel

/-- Bit counts 0 and 8, each with a payload that goes with it; a header that is decoded. -/
theorem witness_HeaderDecodeAndEncodeAgree :
    (∀ p ∈ [((0 : BitVec 4), ([] : List Byte)), (8, [0x34])], p.1.toNat ≤ 8 ∧ (p.2 = [] ↔ p.1 = 0))
    ∧ ∃ h, parseHeader (aacdStream 6 0x34) = .ok h :=
  ⟨by decide, _, test_parseHeader 6 0x34 (by decide) (by decide)⟩

/-! ### Witnesses: UNPACK -/

/-- The payload 0,0,1,0,1,1 spells "AACD". -/
theorem spelled : payloadBits 6 [0x34] = aacd.flatMap (codeWord aacdCodes) := by decide +kernel

theorem aacd_present : ∀ x ∈ aacd, aacdFreq.get x ≠ 0 := by decide +kernel

/-- The payload of "AACD", with room for exactly four symbols. -/
theorem witness_UnpackEmitsTheSymbolsSpelled :
    ∃ (s : State) (bs : List Byte) (tab : CodeTable), s.Inv ∧ Accepted .unpack s ∧ s.payloadBytes = some bs ∧ codesOf s.freq = some tab
      ∧ payloadBits s.fbc.toNat bs = aacd.flatMap (codeWord tab) ∧ (∀ x ∈ aacd, s.freq.get x ≠ 0) ∧ aacd.length ≤ s.cfg.outCap.toNat :=
  ⟨atHeader 4 6 0x34, [0x34], aacdCodes, inv_atHeader 4 6 0x34 (by decide) (by decide), ⟨rfl, rfl, rfl, rfl⟩, payload_atCodes 4 (f := 6),
    codesOf_aacd, spelled, aacd_present, by decide⟩

/-- The payload 0,1: the symbol A, then a bit that begins a code word and completes none. -/
theorem witness_UnpackExhaustionFault :
    ∃ (s t : State) (bs : List Byte) (tab : CodeTable), s.Inv ∧ Accepted .unpack s ∧ s.payloadBytes = some bs ∧ codesOf s.freq = some tab
      ∧ payloadBits s.fbc.toNat bs = [0x41].flatMap (codeWord tab) ++ [true] ∧ (∀ x ∈ [(0x41 : Byte)], s.freq.get x ≠ 0)
      ∧ [(0x41 : Byte)].length ≤ s.cfg.outCap.toNat ∧ [true] ≠ []
      ∧ (∀ (x : Byte) (n : Nat), s.freq.get x ≠ 0 → codeWord tab x ≠ [true].take n) ∧ exec .unpack s = .next t := by
  refine ⟨atHeader 4 2 0x02, _, [0x02], aacdCodes, inv_atHeader 4 2 0x02 (by decide) (by decide), ⟨rfl, rfl, rfl, rfl⟩, payload_atCodes 4 (f := 2),
    codesOf_aacd, by decide +kernel, by decide +kernel, by decide, by simp, ?_, test_unpack_dangling⟩
  have hw : ∀ x ∈ [(0x41 : Byte), 0x43, 0x44], codeWord aacdCodes x ≠ [] ∧ codeWord aacdCodes x ≠ [true] := by
    decide +kernel
  intro x n hx
  have hx : x ∈ presentSymbols aacdFreq := List.mem_filter.mpr ⟨mem_allBytes x, decide_eq_true hx⟩
  rw [test_presentSymbols] at hx
  obtain ⟨h0, h1⟩ := hw x hx
  cases n with
  | zero => simpa using h0
  | succ n => simpa using h1

/-- The payload of "AACD" with room for three symbols. -/
theorem witness_UnpackCapacityFault :
    ∃ (s t : State) (bs : List Byte) (tab : CodeTable), s.Inv ∧ Accepted .unpack s ∧ s.payloadBytes = some bs ∧ codesOf s.freq = some tab
      ∧ payloadBits s.fbc.toNat bs = aacd.flatMap (codeWord tab) ++ [] ∧ (∀ x ∈ aacd, s.freq.get x ≠ 0)
      ∧ aacd.length = s.cfg.outCap.toNat + 1 ∧ exec .unpack s = .next t :=
  ⟨atHeader 3 6 0x34, _, [0x34], aacdCodes, inv_atHeader 3 6 0x34 (by decide) (by decide), ⟨rfl, rfl, rfl, rfl⟩, payload_atCodes 3 (f := 6),
    codesOf_aacd, spelled.trans (List.append_nil _).symm, aacd_present, by decide, test_unpack_cap⟩

/-- `UNPACK` under an empty table whose tree and codes are still to be made. -/
theorem unpack_empty {s : State} (ha : Accepted .unpack s) (ht : s.tv = false) (hc : s.cv = false) (hf : s.freq = Vector.replicate 256 0) :
    exec .unpack s = (unpackPayload (withNothing s)).finish := by
  have he : (ensureTree s).andThen ensureCodes = (buildStage s).andThen deriveStage := by
    simp only [ensureTree, ht, buildStage, Stage.andThen_done, ensureCodes, buildState_cv, hc, Bool.false_eq_true, if_false]
  rw [exec_unpack ha, unpackStage, he, build_derive_empty hf, Stage.andThen_done]

/-- No payload; and one bit of payload under an empty table. -/
theorem witness_UnpackEmptyCases :
    (∃ s t : State, s.Inv ∧ Accepted .unpack s ∧ exec .unpack s = .next t ∧ s.payOff = s.inLen)
    ∧ ∃ s t : State, s.Inv ∧ Accepted .unpack s ∧ exec .unpack s = .next t ∧ s.payOff ≠ s.inLen ∧ ∀ x, s.freq.get x = 0 := by
  have hd : parseHeader [0, 0, 0, 0, 0, 0, 0, 1, 1, 5] = .ok ⟨Vector.replicate 256 0, 1, 1⟩ := by
    simp [parseHeader, parseEntries, be64At, bigEndian, byteAt]
  have hf : Fresh (freshCap 9 [0, 0, 0, 0, 0, 0, 0, 1, 1, 5]) [0, 0, 0, 0, 0, 0, 0, 1, 1, 5] := fresh_meets (by decide)
  have he := hdrdecStage_eq_done hf.input hd
  refine ⟨⟨emptyHeader 9, _, inv_emptyHeader 9, ⟨rfl, rfl, rfl, rfl⟩, (unpack_empty ⟨rfl, rfl, rfl, rfl⟩ rfl rfl rfl).trans (eq_next ?_), rfl⟩,
    _, _, hdrdecStage_inv hf.inv rfl he, ⟨rfl, rfl, rfl, rfl⟩, (unpack_empty ⟨rfl, rfl, rfl, rfl⟩ rfl rfl rfl).trans (eq_next ?_), by decide,
    fun x => ByteTable.get_replicate _ x⟩
  · decide +kernel
  · decide +kernel

/-- The payload 0x34 with 6 bits, and 0xF4 in its place. -/
theorem witness_UnpackIgnoresPadding :
    ∃ (s t : State) (b b' : Byte), s.Inv ∧ Accepted .unpack s ∧ s.payOff.toNat < s.inLen.toNat ∧ s.inBuf.read (s.inLen.toNat - 1) = some b
      ∧ (∀ k, k < s.fbc.toNat → b.getLsbD k = b'.getLsbD k) ∧ b ≠ b' ∧ exec .unpack s = .next t :=
  ⟨atHeader 4 6 0x34, _, 0x34, 0xF4, inv_atHeader 4 6 0x34 (by decide) (by decide), ⟨rfl, rfl, rfl, rfl⟩, by decide +kernel, by decide +kernel,
    by decide +kernel, by decide, test_unpack⟩

/-- Nothing built yet; and built with no codes derived. -/
theorem witness_UnpackRebuildsWhatIsMissing :
    (∃ s : State, s.Inv ∧ Accepted .unpack s ∧ s.tv = false) ∧ ∃ s : State, s.Inv ∧ Accepted .unpack s ∧ s.tv = true ∧ s.cv = false := by
  have hh := inv_atHeader 4 6 0x34 (by decide) (by decide)
  exact ⟨⟨_, hh, ⟨rfl, rfl, rfl, rfl⟩, rfl⟩, _, exec_inv hh (test_build_header 4 6 0x34), ⟨rfl, rfl, rfl, rfl⟩, rfl, rfl⟩

/-! ### Witnesses: the composite commands and the frames -/

theorem compress_faults : exec .compress (freshCap 0 aacd) = .next ((atDerive 0).enterFault ⟨.cap, 0⟩) := by
  have hp : packStage (atDerive 0) = .raised ⟨.cap, 0⟩ (atDerive 0) :=
    packStage_eq_raised (s := atDerive 0) (aacd_meets 0).input (by decide +kernel)
  have hd : deriveStage (withTree (atCount 0)) = .done (atDerive 0) := derive_stage (s := withTree (atCount 0)) test_deriveCodes
  rw [exec_compress (s := freshCap 0 aacd) rfl, compressStage, count_stage, Stage.andThen_done, build_stage rfl, Stage.andThen_done, hd,
    Stage.andThen_done, hp, Stage.andThen_raised, Stage.finish_raised]

theorem pack_faults : exec .pack (atDerive 0) = .next ((atDerive 0).enterFault ⟨.cap, 0⟩) := by
  rw [exec_pack ⟨rfl, rfl, rfl, rfl⟩, packStage_eq_raised (s := atDerive 0) (aacd_meets 0).input (r := ⟨.cap, 0⟩) (by decide +kernel),
    Stage.finish_raised]

/-- `DECOMPRESS` is `UNPACK` from the decoded header on. -/
theorem decompress_eq {cap : Nat} {f b : Byte} (h : f.toNat ≤ 8) (h0 : f.toNat ≠ 0) :
    exec .decompress (freshCap cap (aacdStream f b)) = exec .unpack (atHeader cap f b) := by
  rw [exec_decompress (s := freshCap cap (aacdStream f b)) rfl, decompressStage, hdrdec_stage cap h h0, Stage.andThen_done,
    exec_unpack ⟨rfl, rfl, rfl, rfl⟩]

/-- One compression that completes, one that faults. -/
theorem witness_CompressIsItsFiveStages :
    (∃ s t : State, s.Inv ∧ s.phase = .notStarted ∧ exec .compress s = .next t ∧ t.phase = .ready)
    ∧ ∃ s t : State, s.Inv ∧ s.phase = .notStarted ∧ exec .compress s = .next t ∧ t.phase = .faulted :=
  ⟨⟨_, _, (aacd_meets 10000).inv, rfl, test_compress, rfl⟩, _, _, (aacd_meets 0).inv, rfl, compress_faults, rfl⟩

/-- A header of three bytes. -/
theorem short_meets : Fresh (freshCap 9 [1, 2, 3]) [1, 2, 3] := fresh_meets (by decide)

theorem short_stage : hdrdecStage (freshCap 9 [1, 2, 3]) = .raised ⟨.hdrTrunc, 3⟩ { freshCap 9 [1, 2, 3] with mode := .dec } :=
  hdrdecStage_eq_raised short_meets.input rfl

theorem hdrdec_faults : exec .hdrdec (freshCap 9 [1, 2, 3]) = .next (({ freshCap 9 [1, 2, 3] with mode := .dec } : State).enterFault ⟨.hdrTrunc, 3⟩) := by
  rw [exec_hdrdec (s := freshCap 9 [1, 2, 3]) rfl, short_stage, Stage.finish_raised]

theorem decompress_faults :
    exec .decompress (freshCap 9 [1, 2, 3]) = .next (({ freshCap 9 [1, 2, 3] with mode := .dec } : State).enterFault ⟨.hdrTrunc, 3⟩) := by
  rw [exec_decompress (s := freshCap 9 [1, 2, 3]) rfl, decompressStage, short_stage, Stage.andThen_raised, Stage.finish_raised]

/-- One decompression that completes, one that faults in its first stage, one in its second. -/
theorem witness_DecompressIsItsTwoStages :
    (∃ s t : State, s.Inv ∧ s.phase = .notStarted ∧ exec .decompress s = .next t ∧ t.phase = .ready)
    ∧ (∃ s t : State, s.Inv ∧ s.phase = .notStarted ∧ exec .decompress s = .next t ∧ t.phase = .faulted ∧ t.fv = false)
    ∧ ∃ s t : State, s.Inv ∧ s.phase = .notStarted ∧ exec .decompress s = .next t ∧ t.phase = .faulted ∧ t.fv = true :=
  ⟨⟨_, _, (header_meets 4 6 0x34).inv, rfl, (decompress_eq (by decide) (by decide)).trans test_unpack, rfl⟩,
    ⟨_, _, short_meets.inv, rfl, decompress_faults, rfl, rfl⟩,
    _, _, (header_meets 4 5 0x34).inv, rfl, (decompress_eq (by decide) (by decide)).trans test_unpack_bits, rfl, rfl⟩

/-- The empty input with no room, and "AACD". -/
theorem witness_CompressCompletes :
    (Fresh (freshCap 0 []) [] ∧ 32 * ([] : List Byte).length ≤ (freshCap 0 []).cfg.outCap.toNat)
    ∧ Fresh (freshCap 128 aacd) aacd ∧ 32 * aacd.length ≤ (freshCap 128 aacd).cfg.outCap.toNat :=
  ⟨⟨empty_meets 0, by decide⟩, aacd_meets 128, by decide⟩

/-- The artifact of "AACD", room for exactly four symbols. -/
theorem witness_DecompressCompletes :
    ∃ (s : State) (freq : ByteTable Count) (tab : CodeTable), Fresh s (headerBytes freq 6 ++ [0x34]) ∧ (6 : BitVec 4).toNat ≤ 8
      ∧ ([(0x34 : Byte)] = [] ↔ (6 : BitVec 4) = 0) ∧ codesOf freq = some tab
      ∧ payloadBits (6 : BitVec 4).toNat [0x34] = aacd.flatMap (codeWord tab) ∧ (∀ x ∈ aacd, freq.get x ≠ 0)
      ∧ aacd.length ≤ s.cfg.outCap.toNat := by
  refine ⟨freshCap 4 (aacdStream 6 0x34), aacdFreq, aacdCodes, ?_, by decide, by decide, codesOf_aacd, spelled, aacd_present, by decide⟩
  rw [test_headerBytes]
  exact header_meets 4 6 0x34

/-- "AACD" compressed, its artifact read from `ART` and pushed into a fresh session. -/
theorem witness_RoundTrip :
    ∃ s t u : State, Fresh s aacd ∧ exec .compress s = .next t ∧ t.phase = .ready ∧ (aacdStream 6 0x34).length = t.hdrLen.toNat + t.outLen.toNat
      ∧ (∀ (i : Nat) (b : Byte), (aacdStream 6 0x34)[i]? = some b → hostRead t .artbuf i = some ⟨8, b⟩)
      ∧ Fresh u (aacdStream 6 0x34) ∧ aacd.length ≤ u.cfg.outCap.toNat := by
  refine ⟨_, _, freshCap 4 (aacdStream 6 0x34), aacd_meets 10000, test_compress, rfl, by decide, fun i b hb => ?_, header_meets 4 6 0x34, by decide⟩
  have hi : i < (aacdStream 6 0x34).length := (List.getElem?_eq_some_iff.mp hb).1
  have hm : (atReady 10000).hdrBuf = Memory.writeN [] 0 (aacdHeader 6) := by simp only [atReady]
  show byteReply (readArtifact (atReady 10000) i) = _
  by_cases h : i < 36
  · have hl : i < (aacdHeader 6).length := h
    rw [readArtifact, if_pos (show i < (atReady 10000).hdrLen.toNat from h), hm, Memory.read_writeN,
      if_pos ⟨Nat.zero_le _, by omega⟩, Nat.sub_zero]
    rw [aacdStream, List.getElem?_append_left hl] at hb
    rw [hb]
    rfl
  · obtain rfl : i = 36 := by
      have : (aacdStream 6 0x34).length = 37 := rfl
      omega
    obtain rfl : b = 0x34 := (Option.some.inj hb).symm
    decide +kernel

/-- For each command a session in which its guard is true and it answers a next state. -/
theorem every_command_runs : ∀ i : Instr, ∃ s t : State, s.Inv ∧ Accepted i s ∧ exec i s = .next t
  | .nop => ⟨_, _, inv_reset, trivial, exec_nop _⟩
  | .clear => ⟨_, _, inv_atReady, trivial, exec_clear _⟩
  | .count => ⟨_, _, (aacd_meets 9).inv, rfl, test_count 9⟩
  | .build => ⟨_, _, inv_atCount 9, ⟨rfl, rfl, rfl⟩, test_build 9⟩
  | .derive => ⟨_, _, inv_atBuild 9, ⟨rfl, rfl, rfl⟩, test_derive 9⟩
  | .pack => ⟨_, _, inv_atDerive 10000, ⟨rfl, rfl, rfl, rfl⟩, test_pack⟩
  | .hdrenc => ⟨_, _, inv_atPack, ⟨rfl, rfl, rfl, rfl⟩, test_hdrenc⟩
  | .hdrdec => ⟨_, _, (header_meets 9 6 0x34).inv, rfl, test_hdrdec 9 6 0x34 (by decide) (by decide)⟩
  | .unpack => ⟨_, _, inv_atHeader 4 6 0x34 (by decide) (by decide), ⟨rfl, rfl, rfl, rfl⟩, test_unpack⟩
  | .compress => ⟨_, _, (aacd_meets 10000).inv, rfl, test_compress⟩
  | .decompress => ⟨_, _, (header_meets 4 6 0x34).inv, rfl, (decompress_eq (by decide) (by decide)).trans test_unpack⟩

theorem witness_CommandsWriteOnlyTheirOperands : ∀ i : Instr, ∃ s t : State, exec i s = .next t := fun i =>
  let ⟨s, t, _, _, h⟩ := every_command_runs i
  ⟨s, t, h⟩

theorem witness_BuffersStoredOnlyByTheirCommands : ∀ i : Instr, ∃ s t : State, s.Inv ∧ exec i s = .next t := fun i =>
  let ⟨s, t, hi, _, h⟩ := every_command_runs i
  ⟨s, t, hi, h⟩

/-- Each command that can fault, faulting; `DECOMPRESS` in either of its stages. -/
theorem witness_FaultKeepsCompletedStages :
    (∀ i ∈ [Instr.pack, .hdrdec, .unpack, .compress, .decompress],
      ∃ s t : State, s.Inv ∧ exec i s = .next t ∧ s.phase ≠ .faulted ∧ t.phase = .faulted)
    ∧ ∃ s t : State, s.Inv ∧ exec .decompress s = .next t ∧ s.phase ≠ .faulted ∧ t.phase = .faulted ∧ t.fv = true := by
  refine ⟨fun i hi => ?_, _, _, (header_meets 4 5 0x34).inv, (decompress_eq (by decide) (by decide)).trans test_unpack_bits,
    fun h => Phase.noConfusion h, rfl, rfl⟩
  simp only [List.mem_cons, List.not_mem_nil, or_false] at hi
  rcases hi with rfl | rfl | rfl | rfl | rfl
  · exact ⟨_, _, inv_atDerive 0, pack_faults, fun h => Phase.noConfusion h, rfl⟩
  · exact ⟨_, _, short_meets.inv, hdrdec_faults, fun h => Phase.noConfusion h, rfl⟩
  · exact ⟨_, _, inv_atHeader 4 5 0x34 (by decide) (by decide), test_unpack_bits, fun h => Phase.noConfusion h, rfl⟩
  · exact ⟨_, _, (aacd_meets 0).inv, compress_faults, fun h => Phase.noConfusion h, rfl⟩
  · exact ⟨_, _, short_meets.inv, decompress_faults, fun h => Phase.noConfusion h, rfl⟩

end Sys2Proof.Tests
end

section
/-! ## Proofs: what each command, each stage and each transaction can do, said once -/

namespace Sys2Proof.Machine

/-! ### Every command is its guard and its body -/

/-- The guard each command is issued under (46_sequencer.md R226). -/
def guardOf : Instr → State → Bool
  | .nop | .clear => guardAlways
  | .count | .hdrdec | .compress | .decompress => guardOpen
  | .build => guardBuild
  | .derive => guardDerive
  | .pack => guardPack
  | .hdrenc => guardHdrenc
  | .unpack => guardUnpack

/-- The body each command runs (46_sequencer.md R226). -/
def bodyOf : Instr → State → Stage
  | .nop => Stage.done
  | .clear => clearStage
  | .count => countStage
  | .build => buildStage
  | .derive => deriveStage
  | .pack => packStage
  | .hdrenc => hdrencStage
  | .hdrdec => hdrdecStage
  | .unpack => unpackStage
  | .compress => compressStage
  | .decompress => decompressStage

theorem exec_eq_issue (i : Instr) (s : State) : exec i s = issue (guardOf i) (bodyOf i) s := by
  cases i <;> rfl

/-- The guards that the model computes are the guard table. -/
theorem guardOf_iff (i : Instr) (s : State) : guardOf i s = true ↔ Accepted i s := by
  cases i
  case nop | clear => simp [guardOf, guardAlways, Accepted]
  case count | hdrdec | compress | decompress => exact guardOpen_iff s
  case build => exact guardBuild_iff s
  case derive => exact guardDerive_iff s
  case pack => exact guardPack_iff s
  case hdrenc => exact guardHdrenc_iff s
  case unpack => exact guardUnpack_iff s

/-- Everything a command can do when it answers a next state. -/
theorem exec_next {i : Instr} {s t : State} (h : exec i s = .next t) :
    (¬ Accepted i s ∧ t = s.refuse .seq) ∨ (Accepted i s ∧ ∃ u, bodyOf i s = .done u ∧ t = u.accept)
      ∨ (Accepted i s ∧ ∃ e u, bodyOf i s = .raised e u ∧ t = u.enterFault e) := by
  rw [exec_eq_issue] at h
  simpa only [guardOf_iff] using issue_next h

/-! ### What each stage leaves when it completes, and when it raises a fault -/

theorem countStage_done {s u : State} (h : countStage s = .done u) :
    ∃ bs, s.inBytes = some bs ∧ u = { s with freq := countBytes bs, mode := .enc, fv := true, phase := .processing } := by
  unfold countStage at h
  split at h
  · cases h
  · cases h
    exact ⟨_, ‹_›, rfl⟩

theorem deriveStage_done {s u : State} (h : deriveStage s = .done u) :
    ∃ tab, deriveCodes s.te s.node s.root = some tab ∧ u = { s with code := tab.code, clen := tab.clen, cv := true } := by
  unfold deriveStage at h
  split at h
  · cases h
  · cases h
    exact ⟨_, ‹_›, rfl⟩

theorem packStage_done {s u : State} (h : packStage s = .done u) :
    ∃ bs out fbc, s.inBytes = some bs ∧ packBytes s.cfg.outCap s.codeTable bs = .ok (out, fbc)
      ∧ u = { s with outBuf := out.mem, outLen := out.len, fbc := fbc, pv := true } := by
  unfold packStage at h
  split at h
  · cases h
  · split at h
    · cases h
    · cases h
      exact ⟨_, _, _, ‹_›, ‹_›, rfl⟩

theorem packStage_raised {s u : State} {e : Raise} (h : packStage s = .raised e u) : u = s := by
  unfold packStage at h
  split at h
  · cases h
  · split at h
    · cases h
      rfl
    · cases h

theorem hdrdecStage_done {s u : State} (h : hdrdecStage s = .done u) :
    ∃ bs hdr, s.inBytes = some bs ∧ parseHeader bs = .ok hdr ∧ u = { s with
      mode := .dec, freq := hdr.freq, tsize := BitVec.ofNat 64 hdr.tsize, fbc := hdr.fbc, payOff := BitVec.ofNat 64 (8 + hdr.tsize)
      fv := true, hv := true, phase := .processing } := by
  unfold hdrdecStage at h
  split at h
  · cases h
  · split at h
    · cases h
    · cases h
      exact ⟨_, _, ‹_›, ‹_›, rfl⟩

theorem hdrdecStage_raised {s u : State} {e : Raise} (h : hdrdecStage s = .raised e u) : u = { s with mode := .dec } := by
  unfold hdrdecStage at h
  split at h
  · cases h
  · split at h
    · cases h
      rfl
    · cases h

theorem unpackPayload_done {s u : State} (h : unpackPayload s = .done u) :
    ∃ bs out, s.payloadBytes = some bs
      ∧ unpackBits s.cfg.outCap s.codeTable 0 0 OutBuffer.empty (payloadBits s.fbc.toNat bs) = .ok out
      ∧ u = { s with outBuf := out.mem, outLen := out.len, pv := true, phase := .ready } := by
  unfold unpackPayload at h
  split at h
  · cases h
  · split at h
    · cases h
    · cases h
      exact ⟨_, _, ‹_›, ‹_›, rfl⟩

theorem unpackPayload_raised {s u : State} {e : Raise} (h : unpackPayload s = .raised e u) : u = s := by
  unfold unpackPayload at h
  split at h
  · cases h
  · split at h
    · cases h
      rfl
    · cases h

theorem ensureTree_eq (s : State) : ensureTree s = .done (if s.tv then s else buildState s) := by
  unfold ensureTree buildStage
  split <;> rfl

/-- `COMPRESS` in the order in which its stages run. -/
theorem compressStage_eq (s : State) :
    compressStage s = (countStage s).andThen fun u => (buildStage u).andThen fun v => (deriveStage v).andThen fun w =>
      (packStage w).andThen hdrencStage := by
  simp only [compressStage, Stage.andThen_assoc]

/-! ### Each stage of a composite command leaves the guard of the next one true -/

theorem countStage_accepts_build {s u : State} (h : s.Inv) (g : s.phase = .notStarted) (e : countStage s = .done u) :
    Accepted .build u ∧ u.mode = .enc := by
  obtain ⟨-, htv, -⟩ := h.flags.notStarted.mp g
  obtain ⟨bs, -, rfl⟩ := countStage_done e
  exact ⟨⟨rfl, rfl, htv⟩, rfl⟩

theorem buildState_accepts_derive {s : State} (h : s.Inv) (g : Accepted .build s) : Accepted .derive (buildState s) := by
  obtain ⟨hp, -, ht⟩ := g
  refine ⟨hp, rfl, ?_⟩
  have := mt h.flags.codes (by simp [ht])
  simpa using this

theorem deriveStage_accepts_pack {s u : State} (h : s.Inv) (g : Accepted .derive s) (hm : s.mode = .enc)
    (e : deriveStage s = .done u) : Accepted .pack u := by
  obtain ⟨hp, -, hc⟩ := g
  have hpv := mt (h.flags.encPayload hm) (by simp [hc])
  obtain ⟨tab, -, rfl⟩ := deriveStage_done e
  exact ⟨hp, hm, rfl, by simpa using hpv⟩

theorem hdrdecStage_accepts_unpack {s u : State} (h : s.Inv) (g : s.phase = .notStarted) (e : hdrdecStage s = .done u) :
    Accepted .unpack u := by
  obtain ⟨-, -, -, hpv, -⟩ := h.flags.notStarted.mp g
  obtain ⟨bs, hdr, -, -, rfl⟩ := hdrdecStage_done e
  exact ⟨rfl, rfl, rfl, hpv⟩

/-! ### The command byte -/

theorem mem_commandTable_of_decode {b : Byte} {i : Instr} (h : decode b = .ok i) : (i, byteFields b) ∈ commandTable := by
  unfold decode at h
  split at h
  · rename_i row hrow
    cases h
    have hf : row.2 = byteFields b := by simpa using List.find?_some hrow
    rw [← hf]
    exact List.mem_of_find?_eq_some hrow
  · cases h

theorem fieldsByte_byteFields (b : Byte) : fieldsByte (byteFields b) = b := by
  apply BitVec.eq_of_getLsbD_eq
  intro k hk
  simp only [fieldsByte, byteFields, BitVec.getLsbD_append, BitVec.getLsbD_extractLsb', Nat.zero_add]
  by_cases h : k < 4
  · simp [h]
  · have : k - 4 < 4 := by omega
    have e : 4 + (k - 4) = k := by omega
    simp [h, this, e]

/-- A byte that decodes to a command is the byte the encoder gives that command. -/
theorem eq_encode_of_decode {b : Byte} {i : Instr} (h : decode b = .ok i) : b = encode i := by
  have hm := mem_commandTable_of_decode h
  simp only [commandTable, List.mem_cons, Prod.mk.injEq, List.not_mem_nil, or_false] at hm
  rw [← fieldsByte_byteFields b]
  cases i <;> simp only [reduceCtorEq, false_and, false_or, or_false, true_and] at hm <;> rw [hm] <;> rfl

/-! ### The transactions of an engine that is not busy -/

/-- Everything one transaction of an engine that is not busy can do: reset, a command, a reserved byte, an `IN_PUSH` write, a write without
effect, a read (20_memory.md R66 to R68, 46_sequencer.md R226). -/
theorem hostTransaction_next {s t : State} {op : HostOp} (hb : s.busy = false) (h : hostTransaction s op = .next t) :
    (op = .reset ∧ t = s.cleared)
      ∨ (∃ b i, op = .write .reg 0 b ∧ decode b = .ok i ∧ exec i s = .next t)
      ∨ (∃ b r, op = .write .reg 0 b ∧ decode b = .error r ∧ t = s.refuse .illegal)
      ∨ (∃ b, op = .write .reg 2 b ∧ t = pushInput s b)
      ∨ (∃ space index b, op = .write space index b ∧ ¬ (space = .reg ∧ (index = 0 ∨ index = 2)) ∧ t = s)
      ∨ ∃ space index, op = .read space index ∧ t = { s with reply := hostRead s space index } := by
  rw [hostTransaction_of_not_busy hb] at h
  cases op with
  | reset =>
    cases h
    exact .inl ⟨rfl, rfl⟩
  | read space index =>
    cases h
    exact .inr (.inr (.inr (.inr (.inr ⟨space, index, rfl, rfl⟩))))
  | write space index b =>
    obtain ⟨rfl, rfl, e⟩ | ⟨rfl, rfl, e⟩ | ⟨hn, e⟩ := hostWrite_cases s space index b
    · simp only [e, writeCommand] at h
      split at h
      · cases h
        exact .inr (.inr (.inl ⟨b, _, rfl, ‹_›, rfl⟩))
      · exact .inr (.inl ⟨b, _, rfl, ‹_›, h⟩)
    · simp only [e] at h
      cases h
      exact .inr (.inr (.inr (.inl ⟨b, rfl, rfl⟩)))
    · simp only [e] at h
      cases h
      exact .inr (.inr (.inr (.inr (.inl ⟨space, index, b, rfl, hn, rfl⟩))))

/-- An answered step is idle, or one transaction taken from the queue. -/
theorem step_next {s s' : State} (h : step s = .next s') :
    (s.hostIn = [] ∧ s' = s) ∨ ∃ op ops, s.hostIn = op :: ops ∧ hostTransaction { s with hostIn := ops } op = .next s' := by
  cases hi : s.hostIn with
  | nil =>
    rw [step_of_nil hi] at h
    cases h
    exact .inl ⟨rfl, rfl⟩
  | cons op ops =>
    rw [step_of_cons hi] at h
    exact .inr ⟨op, ops, rfl, h⟩

theorem aboutToEnd_cons {s : State} {op : HostOp} {ops : List HostOp} (h : s.hostIn = op :: ops) :
    s.aboutToEnd ↔ endsSession op = true := by
  simp [State.aboutToEnd, h]

/-- A `CMD` write of `CLEAR` ends the session. -/
theorem ne_clear_of_not_endsSession {b : Byte} {i : Instr} (hd : decode b = .ok i)
    (h : ¬ endsSession (.write .reg 0 b) = true) : i ≠ .clear := by
  rintro rfl
  exact h (by rw [eq_encode_of_decode hd]; rfl)

/-! ### The invariant through each transaction -/

theorem pushInput_inv {s : State} (h : s.Inv) (b : Byte) : (pushInput s b).Inv := by
  obtain ⟨-, e⟩ | ⟨-, -, e⟩ | ⟨hp, hn, e⟩ := pushInput_cases s b
  · rw [e]
    exact h.refuse _
  · rw [e]
    exact h.refuse _
  · have hlt : s.inLen.toNat < s.cfg.inCap.toNat :=
      Nat.lt_of_le_of_ne h.buffers.inputFits fun e => hn (BitVec.eq_of_toNat_eq e)
    have hs : (s.inLen + 1).toNat = s.inLen.toNat + 1 := by
      have := s.cfg.inCap.isLt
      exact BitVec.toNat_add_of_lt (y := 1#64) (by simp; omega)
    obtain ⟨hfv, htv, hcv, hpv, hhv, -⟩ := h.flags.notStarted.mp hp
    obtain ⟨hf, ⟨b1, b2, b3, b4, b5, b6, b7, b8⟩, -⟩ := h
    rw [e]
    refine ⟨{ hf with }, ⟨?_, b2, b3, ?_, b5, b6, b7, b8⟩, ?_⟩
    · show Holds (s.inBuf.write s.inLen.toNat b) (s.inLen + 1).toNat
      rw [hs]
      exact b1.append b
    · show (s.inLen + 1).toNat ≤ s.cfg.inCap.toNat
      omega
    · constructor <;> simp [hfv, htv, hcv, hpv, hhv]

theorem hostTransaction_inv {s t : State} {op : HostOp} (h : s.Inv) (e : hostTransaction s op = .next t) : t.Inv := by
  obtain ⟨-, rfl⟩ | ⟨b, i, -, -, he⟩ | ⟨b, r, -, -, rfl⟩ | ⟨b, -, rfl⟩ | ⟨space, index, b, -, -, rfl⟩ | ⟨space, index, -, rfl⟩ :=
    hostTransaction_next h.flags.idle e
  · exact s.cleared_inv
  · exact exec_inv h he
  · exact h.refuse _
  · exact pushInput_inv h b
  · exact h
  · exact h.withReply _

theorem step_inv {s s' : State} (h : s.Inv) (e : step s = .next s') : s'.Inv := by
  obtain ⟨-, rfl⟩ | ⟨op, ops, -, ht⟩ := step_next e
  · exact h
  · exact hostTransaction_inv (h.withHostIn ops) ht

/-! ### The statements on the decoded command, on `CLEAR` and reset, and on the invariant -/

/-- Settles O10: the step is idle or one transaction, and each transaction keeps the invariant. -/
theorem stepKeepsInvariant : Obligations.StepKeepsInvariant :=
  fun _ _ h e => step_inv h e

theorem step_of_command {s : State} {ops : List HostOp} {b : Byte} {i : Instr} (hb : s.busy = false)
    (hi : s.hostIn = .write .reg 0 b :: ops) (hd : decode b = .ok i) : step s = exec i { s with hostIn := ops } := by
  rw [step_of_cons hi, hostTransaction_of_not_busy (by exact hb)]
  simp only [hostWrite, writeCommand, hd]

theorem decode_wordByte {w : Nat} {i : Instr} (h : decodeTableWord 8 w = some i) : decode (wordByte 8 w) = .ok i := by
  unfold decodeTableWord at h
  split at h
  · split at h
    · cases h
      assumption
    · cases h
  · cases h

/-- Settles O4: a `CMD` write that decodes is the command it decodes to, and `withFetchWord` puts such a write first. -/
theorem stepRunsDecodedCommand : Obligations.StepRunsDecodedCommand :=
  ⟨fun _ _ _ _ hb hi hd => step_of_command hb hi hd,
    fun s w _ h => step_of_command (State.withFetchWord_busy s 8 w) (State.withFetchWord_hostIn s 8 w) (decode_wordByte h)⟩

/-- Settles O7: `CLEAR` and reset both give `State.cleared`, in a busy engine too. -/
theorem clearGivesResetState : Obligations.ClearGivesResetState := by
  intro s
  have hr : hostTransaction s .reset = .next s.cleared := by simp [hostTransaction, HostOp.quiet]
  exact ⟨exec_clear s, hr.trans (exec_clear s).symm⟩

/-- Settles O9: the reset state with any capacities is a cleared state, and its buffers are empty. -/
theorem resetMeetsInvariant : Obligations.ResetMeetsInvariant :=
  ⟨fun cfg => State.cleared_inv { State.reset with cfg := cfg }, Memory.wf_nil, Memory.wf_nil, Memory.wf_nil⟩

/-! ### `LASTREF` -/

/-- An accepted command leaves 0 in `LASTREF`, one that faults included; a refused one `R_SEQ`. -/
theorem exec_lastref {i : Instr} {s t : State} (h : exec i s = .next t) :
    (Accepted i s → t.lastref = .none) ∧ (¬ Accepted i s → t.lastref = .seq) := by
  obtain ⟨hn, rfl⟩ | ⟨ha, u, -, rfl⟩ | ⟨ha, e, u, -, rfl⟩ := exec_next h
  · exact ⟨fun ha => absurd ha hn, fun _ => rfl⟩
  · exact ⟨fun _ => rfl, fun hn => absurd ha hn⟩
  · exact ⟨fun _ => rfl, fun hn => absurd ha hn⟩

theorem pushInput_lastref (s : State) (b : Byte) :
    (pushInput s b).lastref = if s.phase ≠ .notStarted then .frozen else if s.inLen = s.cfg.inCap then .full else .none := by
  obtain ⟨hp, e⟩ | ⟨hp, hl, e⟩ | ⟨hp, hl, e⟩ := pushInput_cases s b
  · simp [e, hp]
  · simp [e, hp, hl]
  · simp [e, hp, hl]

theorem accepted_withHostIn (i : Instr) (s : State) (ops : List HostOp) : Accepted i { s with hostIn := ops } ↔ Accepted i s := by
  cases i <;> rfl

/-- Settles O16, by the kinds of transaction. -/
theorem lastrefRecordsTheLastWrite : Obligations.LastrefRecordsTheLastWrite := by
  intro s s' op ops hb hi e
  rw [step_of_cons hi] at e
  obtain ⟨rfl, rfl⟩ | ⟨b, i, rfl, hd, he⟩ | ⟨b, r, rfl, hd, rfl⟩ | ⟨b, rfl, rfl⟩ | ⟨space, index, b, rfl, hn, rfl⟩
    | ⟨space, index, rfl, rfl⟩ := hostTransaction_next (by exact hb) e
  · rfl
  · simpa only [hd, accepted_withHostIn] using exec_lastref he
  · simp [hd]
  · exact pushInput_lastref _ b
  · split <;> simp_all
  · rfl

end Sys2Proof.Machine
end

section
/-! ## Proofs: what the commands leave as it was -/

namespace Sys2Proof.Machine

/-! ### Relations between the state before a stage and the state it ends in -/

/-- The stage ends in this state: it completed there, or raised a fault there (the fault entry comes after). -/
def Stage.EndsIn (r : Stage) (u : State) : Prop :=
  r = .done u ∨ ∃ e, r = .raised e u

/-- However a stage started in `s` ends, the state it ends in stands in relation `R` to `s`. -/
def Stage.Leads (R : State → State → Prop) (s : State) (r : Stage) : Prop :=
  ∀ u, r.EndsIn u → R s u

theorem Stage.leads_done {R : State → State → Prop} {s u : State} (h : R s u) : (Stage.done u).Leads R s := by
  rintro v (e | ⟨_, e⟩) <;> cases e
  exact h

/-- A transitive relation that holds across each of two stages holds across both. -/
theorem Stage.Leads.andThen {R : State → State → Prop} (trans : ∀ a b c, R a b → R b c → R a c) {s : State} {r : Stage}
    {f : State → Stage} (hr : r.Leads R s) (hf : ∀ v, r = .done v → (f v).Leads R v) : (r.andThen f).Leads R s := by
  rintro u (hu | ⟨e, hu⟩)
  · obtain ⟨v, hv, hu⟩ := Stage.andThen_eq_done.mp hu
    exact trans _ _ _ (hr v (.inl hv)) (hf v hv u (.inl hu))
  · obtain hu | ⟨v, hv, hu⟩ := Stage.andThen_eq_raised.mp hu
    · exact hr u (.inr ⟨e, hu⟩)
    · exact trans _ _ _ (hr v (.inl hv)) (hf v hv u (.inr ⟨e, hu⟩))

/-- An answered command was refused, or its body ended and the acceptance or the fault entry followed. -/
theorem exec_ends {i : Instr} {s t : State} (h : exec i s = .next t) :
    (¬ Accepted i s ∧ t = s.refuse .seq)
      ∨ (Accepted i s ∧ ∃ u, (bodyOf i s).EndsIn u ∧ (t = u.accept ∨ ∃ e, t = u.enterFault e)) := by
  obtain h | ⟨ha, u, hu, rfl⟩ | ⟨ha, e, u, hu, rfl⟩ := exec_next h
  · exact .inl h
  · exact .inr ⟨ha, u, .inl hu, .inl rfl⟩
  · exact .inr ⟨ha, u, .inr ⟨e, hu⟩, .inr ⟨e, rfl⟩⟩

/-! ### Parts of the state that a stage does not write

Each lemma takes any part `f` of the state that the stage's own writes leave alone. -/

/-- The part `f` of the state is as before. -/
abbrev Keeps {α : Type} (f : State → α) (s u : State) : Prop :=
  f u = f s

section
variable {α : Type} {f : State → α}

theorem Stage.Leads.andThen_keeps {s : State} {r : Stage} {g : State → Stage} (hr : r.Leads (Keeps f) s)
    (hg : ∀ v, (g v).Leads (Keeps f) v) : (r.andThen g).Leads (Keeps f) s :=
  hr.andThen (fun _ _ _ h k => k.trans h) fun v _ => hg v

theorem countStage_keeps (s : State)
    (hf : ∀ x, f { s with freq := x, mode := .enc, fv := true, phase := .processing } = f s) : (countStage s).Leads (Keeps f) s := by
  rintro u (hu | ⟨e, hu⟩)
  · obtain ⟨bs, -, rfl⟩ := countStage_done hu
    exact hf _
  · exact absurd hu (countStage_not_raised s e u)

theorem deriveStage_keeps (s : State) (hf : ∀ x y, f { s with code := x, clen := y, cv := true } = f s) :
    (deriveStage s).Leads (Keeps f) s := by
  rintro u (hu | ⟨e, hu⟩)
  · obtain ⟨tab, -, rfl⟩ := deriveStage_done hu
    exact hf _ _
  · exact absurd hu (deriveStage_not_raised s e u)

theorem packStage_keeps (s : State) (hf : ∀ x y z, f { s with outBuf := x, outLen := y, fbc := z, pv := true } = f s) :
    (packStage s).Leads (Keeps f) s := by
  rintro u (hu | ⟨e, hu⟩)
  · obtain ⟨bs, out, fbc, -, -, rfl⟩ := packStage_done hu
    exact hf _ _ _
  · rw [packStage_raised hu]

theorem hdrdecStage_keeps (s : State) (hm : f { s with mode := .dec } = f s)
    (hf : ∀ w x y z, f { s with mode := .dec, freq := w, tsize := x, fbc := y, payOff := z, fv := true, hv := true,
                                phase := .processing } = f s) :
    (hdrdecStage s).Leads (Keeps f) s := by
  rintro u (hu | ⟨e, hu⟩)
  · obtain ⟨bs, hdr, -, -, rfl⟩ := hdrdecStage_done hu
    exact hf _ _ _ _
  · rw [hdrdecStage_raised hu]
    exact hm

theorem unpackPayload_keeps (s : State)
    (hf : ∀ x y, f { s with outBuf := x, outLen := y, pv := true, phase := .ready } = f s) : (unpackPayload s).Leads (Keeps f) s := by
  rintro u (hu | ⟨e, hu⟩)
  · obtain ⟨bs, out, -, -, rfl⟩ := unpackPayload_done hu
    exact hf _ _
  · rw [unpackPayload_raised hu]

theorem unpackStage_keeps (s : State) (hb : f (buildState s) = f s)
    (hd : ∀ s x y, f { s with code := x, clen := y, cv := true } = f s)
    (hp : ∀ s x y, f { s with outBuf := x, outLen := y, pv := true, phase := .ready } = f s) : (unpackStage s).Leads (Keeps f) s := by
  refine Stage.Leads.andThen_keeps (Stage.Leads.andThen_keeps ?_ fun v => ?_) fun v => unpackPayload_keeps v (hp v)
  · rw [ensureTree_eq]
    refine Stage.leads_done ?_
    split
    · rfl
    · exact hb
  · unfold ensureCodes
    split
    · exact Stage.leads_done rfl
    · exact deriveStage_keeps v (hd v)

end

/-! ### The input, `ERR` and `FINFO` -/

/-- The part of the state that no body but that of `CLEAR` writes: the input, and the fault registers, which only the fault entry writes. -/
def State.inputAndFault (s : State) : Memory × Len × ErrCode × BitVec 64 :=
  (s.inBuf, s.inLen, s.err, s.finfo)

theorem bodyOf_keeps_inputAndFault {i : Instr} (hi : i ≠ .clear) (s : State) :
    (bodyOf i s).Leads (Keeps State.inputAndFault) s := by
  have unpack (s : State) : (unpackStage s).Leads (Keeps State.inputAndFault) s :=
    unpackStage_keeps s rfl (fun _ _ _ => rfl) (fun _ _ _ => rfl)
  cases i with
  | clear => exact absurd rfl hi
  | nop => exact Stage.leads_done rfl
  | count => exact countStage_keeps s fun _ => rfl
  | build => exact Stage.leads_done rfl
  | derive => exact deriveStage_keeps s fun _ _ => rfl
  | pack => exact packStage_keeps s fun _ _ _ => rfl
  | hdrenc => exact Stage.leads_done rfl
  | hdrdec => exact hdrdecStage_keeps s rfl fun _ _ _ _ => rfl
  | unpack => exact unpack s
  | compress =>
    exact (countStage_keeps s fun _ => rfl).andThen_keeps (fun v => Stage.leads_done (u := buildState v) rfl)
      |>.andThen_keeps (fun v => deriveStage_keeps v fun _ _ => rfl)
      |>.andThen_keeps (fun v => packStage_keeps v fun _ _ _ => rfl)
      |>.andThen_keeps (fun v => Stage.leads_done rfl)
  | decompress => exact (hdrdecStage_keeps s rfl fun _ _ _ _ => rfl).andThen_keeps unpack

/-- A part of the state that neither the body nor the end of a command writes is as before the command. -/
theorem exec_keeps {α : Type} {f : State → α} {i : Instr} {s t : State} (hb : (bodyOf i s).Leads (Keeps f) s)
    (hr : f (s.refuse .seq) = f s) (ha : ∀ u : State, f u.accept = f u) (hf : ∀ (u : State) e, f (u.enterFault e) = f u)
    (h : exec i s = .next t) : f t = f s := by
  obtain ⟨-, rfl⟩ | ⟨-, u, hu, rfl | ⟨e, rfl⟩⟩ := exec_ends h
  · exact hr
  · exact (ha u).trans (hb u hu)
  · exact (hf u e).trans (hb u hu)

/-- No command but `CLEAR` writes the input. -/
theorem exec_keeps_input {i : Instr} {s t : State} (hi : i ≠ .clear) (h : exec i s = .next t) :
    t.inBuf = s.inBuf ∧ t.inLen = s.inLen := by
  have hb : (bodyOf i s).Leads (Keeps fun s => (s.inBuf, s.inLen)) s := fun u hu =>
    congrArg (fun p : Memory × Len × ErrCode × BitVec 64 => (p.1, p.2.1)) (bodyOf_keeps_inputAndFault hi s u hu)
  exact Prod.mk.inj (exec_keeps hb rfl (fun _ => rfl) (fun _ _ => rfl) h)

/-! ### `OUT` and `HDR` -/

theorem exec_keeps_output {i : Instr} {s t : State} (hi : i = .nop ∨ i = .count ∨ i = .build ∨ i = .derive ∨ i = .hdrenc ∨ i = .hdrdec)
    (h : exec i s = .next t) : t.outBuf = s.outBuf ∧ t.outLen = s.outLen := by
  have hb : (bodyOf i s).Leads (Keeps fun s => (s.outBuf, s.outLen)) s := by
    obtain rfl | rfl | rfl | rfl | rfl | rfl := hi
    · exact Stage.leads_done rfl
    · exact countStage_keeps s fun _ => rfl
    · exact Stage.leads_done rfl
    · exact deriveStage_keeps s fun _ _ => rfl
    · exact Stage.leads_done rfl
    · exact hdrdecStage_keeps s rfl fun _ _ _ _ => rfl
  exact Prod.mk.inj (exec_keeps hb rfl (fun _ => rfl) (fun _ _ => rfl) h)

theorem exec_keeps_header {i : Instr} {s t : State}
    (hi : i = .nop ∨ i = .count ∨ i = .build ∨ i = .derive ∨ i = .pack ∨ i = .hdrdec ∨ i = .unpack ∨ i = .decompress)
    (h : exec i s = .next t) : t.hdrBuf = s.hdrBuf ∧ t.hdrLen = s.hdrLen := by
  have unpack (s : State) : (unpackStage s).Leads (Keeps fun s => (s.hdrBuf, s.hdrLen)) s :=
    unpackStage_keeps s rfl (fun _ _ _ => rfl) (fun _ _ _ => rfl)
  have hb : (bodyOf i s).Leads (Keeps fun s => (s.hdrBuf, s.hdrLen)) s := by
    obtain rfl | rfl | rfl | rfl | rfl | rfl | rfl | rfl := hi
    · exact Stage.leads_done rfl
    · exact countStage_keeps s fun _ => rfl
    · exact Stage.leads_done rfl
    · exact deriveStage_keeps s fun _ _ => rfl
    · exact packStage_keeps s fun _ _ _ => rfl
    · exact hdrdecStage_keeps s rfl fun _ _ _ _ => rfl
    · exact unpack s
    · exact (hdrdecStage_keeps s rfl fun _ _ _ _ => rfl).andThen_keeps unpack
  exact Prod.mk.inj (exec_keeps hb rfl (fun _ => rfl) (fun _ _ => rfl) h)

/-- A command that fills `OUT` is accepted only while `OUT` is not valid. -/
theorem pv_false_of_accepted {i : Instr} {s : State} (h : s.Inv) (hi : i = .pack ∨ i = .unpack ∨ i = .compress ∨ i = .decompress)
    (ha : Accepted i s) : s.pv = false := by
  have fresh (hp : s.phase = .notStarted) : s.pv = false := by
    obtain ⟨-, -, -, hpv, -⟩ := h.flags.notStarted.mp hp
    exact hpv
  obtain rfl | rfl | rfl | rfl := hi
  · obtain ⟨-, -, -, hpv⟩ := ha
    exact hpv
  · obtain ⟨-, -, -, hpv⟩ := ha
    exact hpv
  · exact fresh ha
  · exact fresh ha

/-- A command that fills `HDR` is accepted only while the header is not valid. -/
theorem hv_false_of_accepted {i : Instr} {s : State} (h : s.Inv) (hi : i = .hdrenc ∨ i = .compress) (ha : Accepted i s) :
    s.hv = false := by
  obtain rfl | rfl := hi
  · obtain ⟨-, -, -, hhv⟩ := ha
    exact hhv
  · obtain ⟨-, -, -, -, hhv, -⟩ := h.flags.notStarted.mp ha
    exact hhv

/-- `OUT` was empty before the command that fills it, and holds nothing at or above its length after. -/
theorem exec_output_above {i : Instr} {s t : State} (h : s.Inv) (hi : i = .pack ∨ i = .unpack ∨ i = .compress ∨ i = .decompress)
    (e : exec i s = .next t) {a : Nat} (ha : t.outLen.toNat ≤ a) : t.outBuf.read a = s.outBuf.read a := by
  obtain ⟨-, rfl⟩ | ⟨acc, -⟩ := exec_ends e
  · rfl
  · rw [(exec_inv h e).buffers.output.read_above ha, h.buffers.outputEmpty (pv_false_of_accepted h hi acc), Memory.read_nil]

/-- `HDR` was empty before the command that fills it, and holds nothing at or above its length after. -/
theorem exec_header_above {i : Instr} {s t : State} (h : s.Inv) (hi : i = .hdrenc ∨ i = .compress)
    (e : exec i s = .next t) {a : Nat} (ha : t.hdrLen.toNat ≤ a) : t.hdrBuf.read a = s.hdrBuf.read a := by
  obtain ⟨-, rfl⟩ | ⟨acc, -⟩ := exec_ends e
  · rfl
  · have hhv := hv_false_of_accepted h hi acc
    rw [(exec_inv h e).buffers.header.read_above ha, h.buffers.headerEmpty (by simp [hhv]), Memory.read_nil]

/-- Settles O57: what a command does not write it keeps; what it fills was empty before, and after holds exactly the bytes below its length. -/
theorem buffersStoredOnlyByTheirCommands : Obligations.BuffersStoredOnlyByTheirCommands := by
  intro s t i h e
  refine ⟨fun hi => ?_, fun hi => ?_, fun hi a ha => exec_output_above h hi e ha, fun hi => ?_,
    fun hi a ha => exec_header_above h hi e ha, ?_⟩
  · obtain ⟨hb, hl⟩ := exec_keeps_input hi e
    exact ⟨fun a => by rw [hb], hl⟩
  · obtain ⟨hb, hl⟩ := exec_keeps_output hi e
    exact ⟨fun a => by rw [hb], hl⟩
  · obtain ⟨hb, hl⟩ := exec_keeps_header hi e
    exact ⟨fun a => by rw [hb], hl⟩
  · rintro rfl a
    rw [exec_clear] at e
    cases e
    exact ⟨rfl, rfl, rfl⟩

/-! ### A valid flag, and what it guards, stays -/

/-- What is valid in `s` is valid in `t` and the same there (10_state.md R35); the input of a started session is frozen (R22). -/
def KeepsValid (s t : State) : Prop :=
  (s.fv = true → t.fv = true ∧ t.freq = s.freq ∧ t.mode = s.mode)
  ∧ (s.tv = true → t.tv = true ∧ t.node = s.node ∧ t.nleaf = s.nleaf ∧ t.nnode = s.nnode ∧ t.root = s.root ∧ t.te = s.te)
  ∧ (s.cv = true → t.cv = true ∧ t.code = s.code ∧ t.clen = s.clen)
  ∧ (s.pv = true → t.pv = true ∧ t.outBuf = s.outBuf ∧ t.outLen = s.outLen ∧ t.fbc = s.fbc)
  ∧ (s.hv = true → t.hv = true ∧ t.hdrBuf = s.hdrBuf ∧ t.hdrLen = s.hdrLen ∧ t.tsize = s.tsize ∧ t.payOff = s.payOff
      ∧ t.fbc = s.fbc)
  ∧ (s.phase ≠ .notStarted → t.phase ≠ .notStarted ∧ t.inBuf = s.inBuf ∧ t.inLen = s.inLen)

theorem KeepsValid.refl (s : State) : KeepsValid s s := by
  refine ⟨?_, ?_, ?_, ?_, ?_, ?_⟩ <;> simp

theorem KeepsValid.trans {s t u : State} (h : KeepsValid s t) (k : KeepsValid t u) : KeepsValid s u := by
  obtain ⟨h1, h2, h3, h4, h5, h6⟩ := h
  obtain ⟨k1, k2, k3, k4, k5, k6⟩ := k
  refine ⟨?_, ?_, ?_, ?_, ?_, ?_⟩ <;> intro hs <;> simp_all

/-- Before the session has started nothing is valid, so whatever follows keeps it. -/
theorem keepsValid_of_notStarted {s : State} (h : s.Inv) (g : s.phase = .notStarted) (t : State) : KeepsValid s t := by
  obtain ⟨hfv, htv, hcv, hpv, hhv, -⟩ := h.flags.notStarted.mp g
  refine ⟨?_, ?_, ?_, ?_, ?_, ?_⟩ <;> simp [*]

theorem keepsValid_refuse (s : State) (r : RefReason) : KeepsValid s (s.refuse r) :=
  KeepsValid.refl s

theorem keepsValid_accept (s : State) : KeepsValid s s.accept :=
  KeepsValid.refl s

theorem keepsValid_enterFault (s : State) (e : Raise) : KeepsValid s (s.enterFault e) := by
  refine ⟨?_, ?_, ?_, ?_, ?_, ?_⟩ <;> simp

theorem keepsValid_buildState {s : State} (ht : s.tv = false) : KeepsValid s (buildState s) := by
  refine ⟨?_, ?_, ?_, ?_, ?_, ?_⟩ <;> simp [ht]

theorem deriveStage_keepsValid {s : State} (hc : s.cv = false) : (deriveStage s).Leads KeepsValid s := by
  rintro u (hu | ⟨e, hu⟩)
  · obtain ⟨tab, -, rfl⟩ := deriveStage_done hu
    refine ⟨?_, ?_, ?_, ?_, ?_, ?_⟩ <;> simp [hc]
  · exact absurd hu (deriveStage_not_raised s e u)

theorem packStage_keepsValid {s : State} (hp : s.pv = false) (hh : s.hv = false) : (packStage s).Leads KeepsValid s := by
  rintro u (hu | ⟨e, hu⟩)
  · obtain ⟨bs, out, fbc, -, -, rfl⟩ := packStage_done hu
    refine ⟨?_, ?_, ?_, ?_, ?_, ?_⟩ <;> simp [hp, hh]
  · rw [packStage_raised hu]
    exact .refl s

theorem hdrencStage_keepsValid {s : State} (hh : s.hv = false) : (hdrencStage s).Leads KeepsValid s := by
  refine Stage.leads_done ?_
  refine ⟨?_, ?_, ?_, ?_, ?_, ?_⟩ <;> simp [hh]

theorem unpackPayload_keepsValid {s : State} (hp : s.pv = false) : (unpackPayload s).Leads KeepsValid s := by
  rintro u (hu | ⟨e, hu⟩)
  · obtain ⟨bs, out, -, -, rfl⟩ := unpackPayload_done hu
    refine ⟨?_, ?_, ?_, ?_, ?_, ?_⟩ <;> simp [hp]
  · rw [unpackPayload_raised hu]
    exact .refl s

theorem unpackStage_keepsValid {s : State} (h : s.Inv) (g : Accepted .unpack s) : (unpackStage s).Leads KeepsValid s := by
  refine Stage.Leads.andThen (fun _ _ _ => .trans) (Stage.Leads.andThen (fun _ _ _ => .trans) ?_ fun v _ => ?_) fun v hv => ?_
  · rw [ensureTree_eq]
    refine Stage.leads_done ?_
    split
    · exact .refl s
    · exact keepsValid_buildState (by simpa using ‹¬ s.tv = true›)
  · unfold ensureCodes
    split
    · exact Stage.leads_done (.refl v)
    · exact deriveStage_keepsValid (by simpa using ‹¬ v.cv = true›)
  · obtain ⟨u, hu, hv⟩ := Stage.andThen_eq_done.mp hv
    obtain ⟨hi, ht, gu⟩ := ensureTree_inv h g hu
    obtain ⟨-, -, -, -, -, hp⟩ := ensureCodes_inv hi ht gu hv
    exact unpackPayload_keepsValid hp

/-- No command but `CLEAR` takes back what is valid. -/
theorem bodyOf_keepsValid {i : Instr} {s : State} (h : s.Inv) (hi : i ≠ .clear) (g : Accepted i s) :
    (bodyOf i s).Leads KeepsValid s := by
  cases i with
  | clear => exact absurd rfl hi
  | nop => exact Stage.leads_done (.refl s)
  | count | hdrdec | compress | decompress => exact fun u _ => keepsValid_of_notStarted h g u
  | build =>
    obtain ⟨-, -, ht⟩ := g
    exact Stage.leads_done (keepsValid_buildState ht)
  | derive =>
    obtain ⟨-, -, hc⟩ := g
    exact deriveStage_keepsValid hc
  | pack =>
    obtain ⟨-, hm, -, hp⟩ := g
    have hh := mt (h.flags.encHeader hm) (by simp [hp])
    exact packStage_keepsValid hp (by simpa using hh)
  | hdrenc =>
    obtain ⟨-, -, -, hh⟩ := g
    exact hdrencStage_keepsValid hh
  | unpack => exact unpackStage_keepsValid h g

theorem exec_keepsValid {i : Instr} {s t : State} (h : s.Inv) (hi : i ≠ .clear) (e : exec i s = .next t) : KeepsValid s t := by
  obtain ⟨-, rfl⟩ | ⟨g, u, hu, rfl | ⟨r, rfl⟩⟩ := exec_ends e
  · exact keepsValid_refuse s _
  · exact (bodyOf_keepsValid h hi g u hu).trans (keepsValid_accept u)
  · exact (bodyOf_keepsValid h hi g u hu).trans (keepsValid_enterFault u r)

theorem pushInput_keepsValid {s : State} (h : s.Inv) (b : Byte) : KeepsValid s (pushInput s b) := by
  obtain ⟨-, e⟩ | ⟨hp, -⟩ | ⟨hp, -⟩ := pushInput_cases s b
  · rw [e]
    exact keepsValid_refuse s _
  · exact keepsValid_of_notStarted h hp _
  · exact keepsValid_of_notStarted h hp _

theorem hostTransaction_keepsValid {s t : State} {op : HostOp} (h : s.Inv) (hn : ¬ endsSession op = true)
    (e : hostTransaction s op = .next t) : KeepsValid s t := by
  obtain ⟨rfl, rfl⟩ | ⟨b, i, rfl, hd, he⟩ | ⟨b, r, -, -, rfl⟩ | ⟨b, -, rfl⟩ | ⟨space, index, b, -, -, rfl⟩ | ⟨space, index, -, rfl⟩ :=
    hostTransaction_next h.flags.idle e
  · exact absurd rfl hn
  · exact exec_keepsValid h (ne_clear_of_not_endsSession hd hn) he
  · exact keepsValid_refuse s _
  · exact pushInput_keepsValid h b
  · exact .refl t
  · exact KeepsValid.refl s

theorem step_keepsValid {s s' : State} (h : s.Inv) (hn : ¬ s.aboutToEnd) (e : step s = .next s') : KeepsValid s s' := by
  obtain ⟨-, rfl⟩ | ⟨op, ops, ho, ht⟩ := step_next e
  · exact .refl s'
  · rw [aboutToEnd_cons ho] at hn
    have k := hostTransaction_keepsValid (h.withHostIn ops) hn ht
    exact k

/-- Settles O14, by the transactions that do not end the session; a command's stages each run only while their own flag is 0. -/
theorem validStateIsImmutable : Obligations.ValidStateIsImmutable :=
  fun _ _ h hn e => step_keepsValid h hn e

/-! ### `ERR` and `FINFO` -/

theorem not_faulted_of_accepted {i : Instr} {s : State} (h1 : i ≠ .nop) (h2 : i ≠ .clear) (g : Accepted i s) : s.phase ≠ .faulted := by
  cases i with
  | nop => exact absurd rfl h1
  | clear => exact absurd rfl h2
  | count | hdrdec | compress | decompress =>
    have hp : s.phase = .notStarted := g
    simp [hp]
  | build | derive | pack | hdrenc | unpack =>
    obtain ⟨hp, -⟩ := g
    simp [hp]

/-- The fault registers are as before, or this is a fault entry. -/
def FaultWrite (s t : State) : Prop :=
  (t.err = s.err ∧ t.finfo = s.finfo) ∨ (s.phase ≠ .faulted ∧ t.phase = .faulted)

theorem exec_faultWrite {i : Instr} {s t : State} (hi : i ≠ .clear) (e : exec i s = .next t) : FaultWrite s t := by
  have kept {u : State} (hu : (bodyOf i s).EndsIn u) : u.err = s.err ∧ u.finfo = s.finfo := by
    have := bodyOf_keeps_inputAndFault hi s u hu
    simp only [Keeps, State.inputAndFault, Prod.mk.injEq] at this
    obtain ⟨-, -, he, hf⟩ := this
    exact ⟨he, hf⟩
  obtain ⟨-, rfl⟩ | ⟨g, u, hu, rfl⟩ | ⟨g, r, u, hu, rfl⟩ := exec_next e
  · exact .inl ⟨rfl, rfl⟩
  · have k := kept (.inl hu)
    exact .inl k
  · refine .inr ⟨not_faulted_of_accepted ?_ hi g, rfl⟩
    rintro rfl
    cases hu

theorem pushInput_faultWrite (s : State) (b : Byte) : FaultWrite s (pushInput s b) := by
  obtain ⟨-, e⟩ | ⟨-, -, e⟩ | ⟨-, -, e⟩ := pushInput_cases s b <;> rw [e] <;> exact .inl ⟨rfl, rfl⟩

theorem hostTransaction_faultWrite {s t : State} {op : HostOp} (h : s.Inv) (hn : ¬ endsSession op = true)
    (e : hostTransaction s op = .next t) : FaultWrite s t := by
  obtain ⟨rfl, rfl⟩ | ⟨b, i, rfl, hd, he⟩ | ⟨b, r, -, -, rfl⟩ | ⟨b, -, rfl⟩ | ⟨space, index, b, -, -, rfl⟩ | ⟨space, index, -, rfl⟩ :=
    hostTransaction_next h.flags.idle e
  · exact absurd rfl hn
  · exact exec_faultWrite (ne_clear_of_not_endsSession hd hn) he
  · exact .inl ⟨rfl, rfl⟩
  · exact pushInput_faultWrite s b
  · exact .inl ⟨rfl, rfl⟩
  · exact .inl ⟨rfl, rfl⟩

/-- A step that does not end the session writes `ERR` and `FINFO` only at a fault entry. -/
theorem step_faultWrite {s s' : State} (h : s.Inv) (hn : ¬ s.aboutToEnd) (e : step s = .next s') : FaultWrite s s' := by
  obtain ⟨-, rfl⟩ | ⟨op, ops, ho, ht⟩ := step_next e
  · exact .inl ⟨rfl, rfl⟩
  · rw [aboutToEnd_cons ho] at hn
    have k := hostTransaction_faultWrite (h.withHostIn ops) hn ht
    exact k

theorem finfo_readable_iff (s : State) : (hostRead s .reg 12).isSome = true ↔ s.phase = .faulted := by
  simp [hostRead, readRegister]

/-- Settles O15: `ERR` against `PHASE` is the invariant of the next state, and the rest is that a step writes these two registers only at a
fault entry. -/
theorem errAndFinfoWrittenOnlyAtFaultEntry : Obligations.ErrAndFinfoWrittenOnlyAtFaultEntry := by
  intro s s' h e
  refine ⟨(step_inv h e).flags.faulted.symm, fun hn he => ?_, fun hn hc => ?_, finfo_readable_iff s'⟩
  · obtain ⟨k, -⟩ | ⟨hp, -⟩ := step_faultWrite h hn e
    · exact k
    · exact absurd (h.flags.faulted.mpr he) hp
  · obtain ⟨k1, k2⟩ | k := step_faultWrite h hn e
    · simp [k1, k2] at hc
    · exact k

end Sys2Proof.Machine
end

section
/-! ## Proofs: what has no value never shows

Under the invariant every valid register, table and buffer is a function of the input, the capacities and the flags: it is what the stages make of the
input. So two states that agree in the part of the state that is always readable agree in all that can be read, and commands, which work on
readable state alone, keep that agreement. -/

namespace Sys2Proof.Machine

/-! ### The part of the state that always has a value -/

/-- The state with only what always has a value: the flags, the input, the model's own fields, and `FINFO` in `FAULTED`. -/
def State.exposed (s : State) : State :=
  { State.reset with
    phase := s.phase, mode := s.mode, fv := s.fv, tv := s.tv, cv := s.cv, pv := s.pv, hv := s.hv, te := s.te, busy := s.busy, err := s.err
    lastref := s.lastref, inLen := s.inLen, inBuf := s.inBuf, cfg := s.cfg, hostIn := s.hostIn, reply := s.reply
    finfo := if s.phase = .faulted then s.finfo else 0 }

/-- The two states agree in that part. -/
def Alike (s t : State) : Prop :=
  s.exposed = t.exposed

section
variable {s t : State}

/-- A function of the state that only the exposed part decides has one value in both. -/
theorem Alike.congr {α : Type} {f : State → α} (h : Alike s t) (hf : ∀ s : State, f s.exposed = f s) : f s = f t := by
  rw [← hf s, ← hf t, h]

theorem Alike.phase (h : Alike s t) : s.phase = t.phase := h.congr fun _ => rfl
theorem Alike.mode (h : Alike s t) : s.mode = t.mode := h.congr fun _ => rfl
theorem Alike.fv (h : Alike s t) : s.fv = t.fv := h.congr fun _ => rfl
theorem Alike.tv (h : Alike s t) : s.tv = t.tv := h.congr fun _ => rfl
theorem Alike.cv (h : Alike s t) : s.cv = t.cv := h.congr fun _ => rfl
theorem Alike.pv (h : Alike s t) : s.pv = t.pv := h.congr fun _ => rfl
theorem Alike.hv (h : Alike s t) : s.hv = t.hv := h.congr fun _ => rfl
theorem Alike.te (h : Alike s t) : s.te = t.te := h.congr fun _ => rfl
theorem Alike.inLen (h : Alike s t) : s.inLen = t.inLen := h.congr fun _ => rfl
theorem Alike.inBuf (h : Alike s t) : s.inBuf = t.inBuf := h.congr fun _ => rfl
theorem Alike.cfg (h : Alike s t) : s.cfg = t.cfg := h.congr fun _ => rfl
theorem Alike.hostIn (h : Alike s t) : s.hostIn = t.hostIn := h.congr fun _ => rfl
theorem Alike.reply (h : Alike s t) : s.reply = t.reply := h.congr fun _ => rfl
theorem Alike.status (h : Alike s t) : s.status = t.status := h.congr fun _ => rfl
theorem Alike.inBytes (h : Alike s t) : s.inBytes = t.inBytes := h.congr fun _ => rfl
theorem Alike.input (h : Alike s t) : s.input = t.input := h.congr fun _ => rfl
theorem Alike.guardOf (h : Alike s t) (i : Instr) : guardOf i s = guardOf i t := h.congr fun _ => by cases i <;> rfl

theorem Alike.accepted (h : Alike s t) {i : Instr} (g : Accepted i s) : Accepted i t := by
  rw [← guardOf_iff, ← h.guardOf, guardOf_iff]
  exact g

theorem Alike.finfo (h : Alike s t) (hp : s.phase = .faulted) : s.finfo = t.finfo := by
  have e : s.exposed.finfo = t.exposed.finfo := by rw [show s.exposed = t.exposed from h]
  simpa only [State.exposed, hp, h.phase ▸ hp, if_true] using e

end

/-- Two reads under one condition are the same where they are the same while it holds. -/
theorem gated_congr {c d : Prop} [Decidable c] [Decidable d] {a b : Option Reply} (hcd : c = d) (hab : c → a = b) :
    (if c then a else none) = if d then b else none :=
  ite_congr hcd (fun hd => hab (hcd ▸ hd)) fun _ => rfl

/-! ### Valid state is a function of the exposed part -/

section
variable {s t : State} (h : Alike s t) (hs : s.Inv) (ht : t.Inv)
include h hs ht

theorem Alike.decHeader (hm : s.mode = .dec) (hv : s.hv = true) :
    s.freq = t.freq ∧ s.fbc = t.fbc ∧ s.tsize = t.tsize ∧ s.payOff = t.payOff := by
  obtain ⟨es, ps⟩ := hs.session.decHeader hm hv
  obtain ⟨et, pt⟩ := ht.session.decHeader (h.mode ▸ hm) (h.hv ▸ hv)
  rw [h.input, et] at es
  obtain ⟨hf, hb, hz⟩ := Header.mk.inj (Except.ok.inj es)
  exact ⟨hf.symm, hb.symm, BitVec.eq_of_toNat_eq hz.symm, by rw [ps, pt, hz]⟩

theorem Alike.freq (hf : s.fv = true) : s.freq = t.freq := by
  cases hm : s.mode with
  | enc => rw [hs.session.encFreq hm hf, ht.session.encFreq (h.mode ▸ hm) (h.fv ▸ hf), h.input]
  | dec =>
    obtain ⟨e, -⟩ := h.decHeader hs ht hm ((hs.flags.decHeader hm).mpr hf)
    exact e

theorem Alike.tree (hv : s.tv = true) :
    s.node = t.node ∧ s.nnode = t.nnode ∧ s.nleaf = t.nleaf ∧ (s.te = false → s.root = t.root) := by
  have hf := h.freq hs ht (hs.flags.tree hv)
  obtain ⟨n1, n2, n3, -, n5⟩ := hs.session.tree hv
  obtain ⟨m1, m2, m3, -, m5⟩ := ht.session.tree (h.tv ▸ hv)
  refine ⟨by rw [n1, m1, hf], by rw [n2, m2, hf], by rw [n3, m3, hf], fun he => ?_⟩
  rw [n5 he, m5 (h.te ▸ he), hf]

theorem Alike.codeTable (hv : s.cv = true) : s.codeTable = t.codeTable := by
  have es := hs.session.codes hv
  rw [h.freq hs ht (hs.flags.tree (hs.flags.codes hv)), ht.session.codes (h.cv ▸ hv)] at es
  exact (Option.some.inj es).symm

theorem Alike.encPayload (hm : s.mode = .enc) (hv : s.pv = true) :
    s.outBuf = t.outBuf ∧ s.outLen = t.outLen ∧ s.fbc = t.fbc := by
  have es := hs.session.encPayload hm hv
  rw [h.cfg, h.codeTable hs ht (hs.flags.encPayload hm hv), h.input, ht.session.encPayload (h.mode ▸ hm) (h.pv ▸ hv)] at es
  obtain ⟨ho, hb⟩ := Prod.mk.inj (Except.ok.inj es)
  obtain ⟨hbuf, hlen⟩ := OutBuffer.mk.inj ho
  exact ⟨hbuf.symm, hlen.symm, hb.symm⟩

theorem Alike.payloadBytes (hm : s.mode = .dec) (hv : s.hv = true) : s.payloadBytes = t.payloadBytes := by
  obtain ⟨-, -, -, hp⟩ := h.decHeader hs ht hm hv
  rw [State.payloadBytes, State.payloadBytes, h.inBuf, h.inLen, hp]

theorem Alike.output (hv : s.pv = true) : s.outBuf = t.outBuf ∧ s.outLen = t.outLen := by
  cases hm : s.mode with
  | enc =>
    obtain ⟨hbuf, hlen, -⟩ := h.encPayload hs ht hm hv
    exact ⟨hbuf, hlen⟩
  | dec =>
    obtain ⟨hc, hh⟩ := hs.flags.decPayload hm hv
    obtain ⟨-, hb, -⟩ := h.decHeader hs ht hm hh
    have es := hs.session.decPayload hm hv
    rw [h.cfg, h.codeTable hs ht hc, hb, h.payloadBytes hs ht hm hh, ht.session.decPayload (h.mode ▸ hm) (h.pv ▸ hv)] at es
    obtain ⟨hbuf, hlen⟩ := OutBuffer.mk.inj (Except.ok.inj es)
    exact ⟨hbuf.symm, hlen.symm⟩

theorem Alike.encHeader (hm : s.mode = .enc) (hv : s.hv = true) :
    s.hdrBuf = t.hdrBuf ∧ s.tsize = t.tsize ∧ s.hdrLen = t.hdrLen := by
  have hp := hs.flags.encHeader hm hv
  have hf := h.freq hs ht (hs.flags.tree (hs.flags.codes (hs.flags.encPayload hm hp)))
  obtain ⟨-, -, hb⟩ := h.encPayload hs ht hm hp
  obtain ⟨n1, n2, n3⟩ := hs.session.encHeader hm hv
  obtain ⟨m1, m2, m3⟩ := ht.session.encHeader (h.mode ▸ hm) (h.hv ▸ hv)
  exact ⟨by rw [n1, m1, hf, hb], by rw [n2, m2, hf], by rw [n3, m3, hf]⟩

theorem Alike.tsize (hv : s.hv = true) : s.tsize = t.tsize := by
  cases hm : s.mode with
  | enc =>
    obtain ⟨-, e, -⟩ := h.encHeader hs ht hm hv
    exact e
  | dec =>
    obtain ⟨-, -, e, -⟩ := h.decHeader hs ht hm hv
    exact e

theorem Alike.fbc (hv : (s.mode = .enc ∧ s.pv = true) ∨ (s.mode = .dec ∧ s.hv = true)) : s.fbc = t.fbc := by
  obtain ⟨hm, hp⟩ | ⟨hm, hh⟩ := hv
  · obtain ⟨-, -, e⟩ := h.encPayload hs ht hm hp
    exact e
  · obtain ⟨-, e, -⟩ := h.decHeader hs ht hm hh
    exact e

/-! ### Alike states answer every read alike -/

theorem Alike.readRegister (n : Nat) : readRegister s n = readRegister t n := by
  unfold Machine.readRegister
  split
  · rw [h.status]
  · rw [h.inLen]
  · refine gated_congr (by rw [h.pv]) fun hv => ?_
    obtain ⟨-, e⟩ := h.output hs ht hv
    rw [e]
  · refine gated_congr (by rw [h.mode, h.hv]) fun hv => ?_
    obtain ⟨hm, hh⟩ : s.mode = .enc ∧ s.hv = true := by simpa using hv
    obtain ⟨-, -, e⟩ := h.encHeader hs ht hm hh
    rw [e]
  · refine gated_congr (by rw [h.mode, h.pv, h.hv]) fun hv => ?_
    rw [h.fbc hs ht (by simpa using hv)]
  · refine gated_congr (by rw [h.hv]) fun hv => ?_
    rw [h.tsize hs ht hv]
  · refine gated_congr (by rw [h.mode, h.hv]) fun hv => ?_
    obtain ⟨hm, hh⟩ : s.mode = .dec ∧ s.hv = true := by simpa using hv
    obtain ⟨-, -, -, e⟩ := h.decHeader hs ht hm hh
    rw [e]
  · refine gated_congr (by rw [h.tv]) fun hv => ?_
    obtain ⟨-, -, e, -⟩ := h.tree hs ht hv
    rw [e]
  · refine gated_congr (by rw [h.tv]) fun hv => ?_
    obtain ⟨-, e, -⟩ := h.tree hs ht hv
    rw [e]
  · refine gated_congr (by rw [h.tv, h.te]) fun hv => ?_
    obtain ⟨htv, hte⟩ : s.tv = true ∧ s.te = false := by simpa using hv
    obtain ⟨-, -, -, e⟩ := h.tree hs ht htv
    rw [e hte]
  · refine gated_congr (by rw [h.phase]) fun hp => ?_
    rw [h.finfo hp]
  · rfl

/-- The artifact view is read in `READY` with `MODE` = ENC, where the header and the payload are both valid. -/
theorem Alike.readArtifact (hp : s.phase = .ready) (hm : s.mode = .enc) (i : Nat) : readArtifact s i = readArtifact t i := by
  have hv : s.hv = true := by
    obtain ⟨-, hr⟩ := hs.flags.ready.mp hp
    simpa [hm] using hr
  obtain ⟨hbuf, -, hlen⟩ := h.encHeader hs ht hm hv
  obtain ⟨obuf, olen⟩ := h.output hs ht (hs.flags.encHeader hm hv)
  simp only [Machine.readArtifact, hbuf, hlen, obuf, olen]

theorem Alike.hostRead (space : Space) (i : Nat) : hostRead s space i = hostRead t space i := by
  cases space with
  | reg => exact h.readRegister hs ht i
  | inbuf => rfl
  | outbuf =>
    by_cases hv : s.pv = true
    · obtain ⟨hbuf, hlen⟩ := h.output hs ht hv
      simp only [Machine.hostRead, h.pv, hbuf, hlen]
    · simp [Machine.hostRead, ← h.pv, hv]
  | hdrbuf =>
    by_cases hv : s.mode = .enc ∧ s.hv = true
    · obtain ⟨hm, hh⟩ := hv
      obtain ⟨hbuf, -, hlen⟩ := h.encHeader hs ht hm hh
      simp only [Machine.hostRead, h.mode, h.hv, hbuf, hlen]
    · simp [Machine.hostRead, ← h.mode, ← h.hv, hv]
  | artbuf =>
    refine gated_congr (by rw [h.phase, h.mode]) fun hv => ?_
    obtain ⟨hp, hm⟩ : s.phase = .ready ∧ s.mode = .enc := by simpa using hv
    rw [h.readArtifact hs ht hp hm]
  | freq =>
    refine gated_congr (by rw [h.fv]) fun hv => ?_
    rw [h.freq hs ht (Bool.and_elim_left hv)]
  | node =>
    by_cases hv : s.tv = true
    · obtain ⟨hn, hc, -⟩ := h.tree hs ht hv
      simp only [Machine.hostRead, h.tv, hn, hc]
    · simp [Machine.hostRead, ← h.tv, hv]
  | code =>
    refine gated_congr (by rw [h.cv]) fun hv => ?_
    have e : s.code = t.code := congrArg CodeTable.code (h.codeTable hs ht (Bool.and_elim_left hv))
    rw [e]
  | clen =>
    refine gated_congr (by rw [h.cv]) fun hv => ?_
    have e : s.clen = t.clen := congrArg CodeTable.clen (h.codeTable hs ht (Bool.and_elim_left hv))
    rw [e]

theorem Alike.sameView : SameView s t :=
  ⟨h.hostRead hs ht, h.inBuf, h.cfg, h.hostIn, h.reply⟩

end

/-! ### States of the same view are alike -/

theorem append_inj {w v : Nat} {a c : BitVec w} {b d : BitVec v} (h : a ++ b = c ++ d) : a = c ∧ b = d := by
  constructor
  · simpa only [BitVec.extractLsb'_append_eq_left] using congrArg (BitVec.extractLsb' v w) h
  · simpa only [BitVec.extractLsb'_append_eq_right] using congrArg (BitVec.extractLsb' 0 v) h

theorem Phase.bits_inj {p q : Phase} (h : p.bits = q.bits) : p = q := by
  cases p <;> cases q <;> simp_all [Phase.bits]

theorem Mode.bit_inj {p q : Mode} (h : p.bit = q.bit) : p = q := by
  cases p <;> cases q <;> simp_all [Mode.bit]

theorem ErrCode.bits4_inj {p q : ErrCode} (h : p.bits4 = q.bits4) : p = q := by
  cases p <;> cases q <;> simp_all [ErrCode.bits4]

theorem RefReason.bits4_inj {p q : RefReason} (h : p.bits4 = q.bits4) : p = q := by
  cases p <;> cases q <;> simp_all [RefReason.bits4]

theorem ofBool_inj {p q : Bool} (h : BitVec.ofBool p = BitVec.ofBool q) : p = q := by
  cases p <;> cases q <;> simp_all

/-- The `STATUS` word tells every flag (10_state.md R31). -/
theorem flags_eq_of_status_eq {s t : State} (h : s.status = t.status) :
    s.phase = t.phase ∧ s.mode = t.mode ∧ s.fv = t.fv ∧ s.tv = t.tv ∧ s.cv = t.cv ∧ s.pv = t.pv ∧ s.hv = t.hv ∧ s.te = t.te
      ∧ s.busy = t.busy ∧ s.err = t.err ∧ s.lastref = t.lastref := by
  obtain ⟨h, hphase⟩ := append_inj h
  obtain ⟨h, hmode⟩ := append_inj h
  obtain ⟨h, hfv⟩ := append_inj h
  obtain ⟨h, htv⟩ := append_inj h
  obtain ⟨h, hcv⟩ := append_inj h
  obtain ⟨h, hpv⟩ := append_inj h
  obtain ⟨h, hhv⟩ := append_inj h
  obtain ⟨h, hte⟩ := append_inj h
  obtain ⟨h, hbusy⟩ := append_inj h
  obtain ⟨h, -⟩ := append_inj h
  obtain ⟨h, herr⟩ := append_inj h
  obtain ⟨-, hlastref⟩ := append_inj h
  exact ⟨Phase.bits_inj hphase, Mode.bit_inj hmode, ofBool_inj hfv, ofBool_inj htv, ofBool_inj hcv, ofBool_inj hpv, ofBool_inj hhv,
    ofBool_inj hte, ofBool_inj hbusy, ErrCode.bits4_inj herr, RefReason.bits4_inj hlastref⟩

theorem alike_of_sameView {s t : State} (v : SameView s t) : Alike s t := by
  have hstatus : s.status = t.status := by simpa [hostRead, readRegister] using v.reads .reg 1
  have hlen : s.inLen = t.inLen := by simpa [hostRead, readRegister] using v.reads .reg 3
  obtain ⟨hphase, hmode, hfv, htv, hcv, hpv, hhv, hte, hbusy, herr, hlastref⟩ := flags_eq_of_status_eq hstatus
  have hfinfo : (if s.phase = .faulted then s.finfo else 0) = if t.phase = .faulted then t.finfo else 0 := by
    refine ite_congr (by rw [hphase]) (fun hp => ?_) fun _ => rfl
    simpa [hostRead, readRegister, hphase, hp] using v.reads .reg 12
  simp only [Alike, State.exposed, hfinfo]
  simp only [hphase, hmode, hfv, htv, hcv, hpv, hhv, hte, hbusy, herr, hlastref, hlen, v.input, v.cfg,
    v.hostIn, v.reply]

/-! ### Every stage keeps the agreement -/

/-- An update of the state that has its own effect on the exposed part keeps the agreement. -/
theorem Alike.map {g : State → State} (f : State → State) (hg : ∀ s, (g s).exposed = f s.exposed) {s t : State} (h : Alike s t) :
    Alike (g s) (g t) := by
  rw [Alike, hg, hg, h]

theorem Alike.refuse {s t : State} (h : Alike s t) (r : RefReason) : Alike (s.refuse r) (t.refuse r) :=
  h.map (g := (State.refuse · r)) (State.refuse · r) fun _ => rfl

theorem Alike.accept {s t : State} (h : Alike s t) : Alike s.accept t.accept :=
  h.map State.accept fun _ => rfl

theorem Alike.enterFault {s t : State} (h : Alike s t) (e : Raise) : Alike (s.enterFault e) (t.enterFault e) :=
  h.map (g := (State.enterFault · e)) (State.enterFault · e) fun _ => rfl

theorem Alike.cleared {s t : State} (h : Alike s t) : Alike s.cleared t.cleared :=
  h.map State.cleared fun _ => rfl

theorem Alike.withHostIn {s t : State} (h : Alike s t) (ops : List HostOp) : Alike { s with hostIn := ops } { t with hostIn := ops } :=
  h.map (g := fun x => { x with hostIn := ops }) (fun x => { x with hostIn := ops }) fun _ => rfl

theorem Alike.withReply {s t : State} (h : Alike s t) (r : Option Reply) : Alike { s with reply := r } { t with reply := r } :=
  h.map (g := fun x => { x with reply := r }) (fun x => { x with reply := r }) fun _ => rfl

/-- How a stage ends, with only the exposed part of the state it ends in. -/
def Stage.exposed : Stage → Stage
  | .done s => .done s.exposed
  | .raised e s => .raised e s.exposed
  | .stuck f => .stuck f

theorem Stage.exposed_andThen {r q : Stage} {f g : State → Stage} (h : r.exposed = q.exposed)
    (hf : ∀ u v, r = .done u → q = .done v → Alike u v → (f u).exposed = (g v).exposed) :
    (r.andThen f).exposed = (q.andThen g).exposed := by
  cases r with
  | done u =>
    cases q with
    | done v => exact hf u v rfl rfl (Stage.done.inj h)
    | raised e v => cases h
    | stuck e => cases h
  | raised e u =>
    cases q with
    | raised d v => exact h
    | done v => cases h
    | stuck d => cases h
  | stuck e =>
    cases q with
    | stuck d => exact h
    | done v => cases h
    | raised d v => cases h

section
variable {s t : State}

theorem Alike.countStage (h : Alike s t) : (countStage s).exposed = (countStage t).exposed := by
  unfold Machine.countStage
  rw [h.inBytes]
  split
  · rfl
  · exact congrArg (fun x : State => Stage.done { x with mode := .enc, fv := true, phase := .processing, finfo := 0 }) h

theorem Alike.hdrencStage (h : Alike s t) : (hdrencStage s).exposed = (hdrencStage t).exposed :=
  congrArg (fun x : State => Stage.done { x with hv := true, phase := .ready, finfo := 0 }) h

theorem Alike.hdrdecStage (h : Alike s t) : (hdrdecStage s).exposed = (hdrdecStage t).exposed := by
  unfold Machine.hdrdecStage
  rw [h.inBytes]
  split
  · rfl
  · split
    · exact congrArg (fun x : State => Stage.raised _ { x with mode := .dec }) h
    · exact congrArg (fun x : State => Stage.done { x with mode := .dec, fv := true, hv := true, phase := .processing, finfo := 0 }) h

variable (h : Alike s t) (hs : s.Inv) (ht : t.Inv)
include h hs ht

theorem Alike.buildState (hf : s.fv = true) : Alike (buildState s) (buildState t) := by
  have e := h.freq hs ht hf
  unfold Machine.buildState
  rw [e]
  exact congrArg (fun x : State => { x with te := (presentSymbols t.freq).isEmpty, tv := true }) h

theorem Alike.deriveStage (hv : s.tv = true) : (deriveStage s).exposed = (deriveStage t).exposed := by
  have e := h.freq hs ht (hs.flags.tree hv)
  unfold Machine.deriveStage
  rw [deriveCodes_eq_codesOf hs hv, deriveCodes_eq_codesOf ht (h.tv ▸ hv), e]
  split
  · rfl
  · exact congrArg (fun x : State => Stage.done { x with cv := true }) h

theorem Alike.packStage (hv : s.cv = true) : (packStage s).exposed = (packStage t).exposed := by
  unfold Machine.packStage
  have e : packBytes s.cfg.outCap s.codeTable = packBytes t.cfg.outCap t.codeTable := by rw [h.cfg, h.codeTable hs ht hv]
  rw [h.inBytes, e]
  split
  · rfl
  · split
    · exact congrArg (Stage.raised _) h
    · exact congrArg (fun x : State => Stage.done { x with pv := true }) h

theorem Alike.unpackPayload (hv : s.cv = true) (g : Accepted .unpack s) : (unpackPayload s).exposed = (unpackPayload t).exposed := by
  obtain ⟨-, hm, hh, -⟩ := g
  unfold Machine.unpackPayload
  have e : unpackBits s.cfg.outCap s.codeTable = unpackBits t.cfg.outCap t.codeTable := by rw [h.cfg, h.codeTable hs ht hv]
  rw [h.payloadBytes hs ht hm hh, e, h.fbc hs ht (.inr ⟨hm, hh⟩)]
  split
  · rfl
  · split
    · exact congrArg (Stage.raised _) h
    · exact congrArg (fun x : State => Stage.done { x with pv := true, phase := .ready, finfo := 0 }) h

theorem Alike.ensureTree (g : Accepted .unpack s) : (ensureTree s).exposed = (ensureTree t).exposed := by
  obtain ⟨-, hm, hh, -⟩ := g
  unfold Machine.ensureTree
  rw [h.tv]
  split
  · exact congrArg Stage.done h
  · exact congrArg Stage.done (h.buildState hs ht ((hs.flags.decHeader hm).mp hh))

theorem Alike.ensureCodes (hv : s.tv = true) : (ensureCodes s).exposed = (ensureCodes t).exposed := by
  unfold Machine.ensureCodes
  rw [h.cv]
  split
  · exact congrArg Stage.done h
  · exact h.deriveStage hs ht hv

theorem Alike.unpackStage (g : Accepted .unpack s) : (unpackStage s).exposed = (unpackStage t).exposed := by
  refine Stage.exposed_andThen (Stage.exposed_andThen (h.ensureTree hs ht g) fun u v hu hv k => ?_) fun u v hu hv k => ?_
  · obtain ⟨iu, tu, -⟩ := ensureTree_inv hs g hu
    obtain ⟨iv, -, -⟩ := ensureTree_inv ht (h.accepted g) hv
    exact k.ensureCodes iu iv tu
  · obtain ⟨u', hu', hu⟩ := Stage.andThen_eq_done.mp hu
    obtain ⟨v', hv', hv⟩ := Stage.andThen_eq_done.mp hv
    obtain ⟨iu', tu', gu'⟩ := ensureTree_inv hs g hu'
    obtain ⟨iv', tv', gv'⟩ := ensureTree_inv ht (h.accepted g) hv'
    obtain ⟨iu, cu, gu⟩ := ensureCodes_inv iu' tu' gu' hu
    obtain ⟨iv, -, -⟩ := ensureCodes_inv iv' tv' gv' hv
    exact k.unpackPayload iu iv cu gu

theorem Alike.decompressStage (g : s.phase = .notStarted) : (decompressStage s).exposed = (decompressStage t).exposed := by
  refine Stage.exposed_andThen h.hdrdecStage fun u v hu hv k => ?_
  have iu := hdrdecStage_inv hs g hu
  have iv := hdrdecStage_inv ht (h.phase ▸ g) hv
  exact k.unpackStage iu iv (hdrdecStage_accepts_unpack hs g hu)

theorem Alike.compressStage (g : s.phase = .notStarted) : (compressStage s).exposed = (compressStage t).exposed := by
  rw [compressStage_eq, compressStage_eq]
  refine Stage.exposed_andThen h.countStage fun s1 t1 e1 d1 k1 => ?_
  have is1 := countStage_inv hs g e1
  have it1 := countStage_inv ht (h.phase ▸ g) d1
  obtain ⟨g1, m1⟩ := countStage_accepts_build hs g e1
  obtain ⟨p1, f1, v1⟩ := g1
  refine Stage.exposed_andThen (congrArg Stage.done (k1.buildState is1 it1 f1)) fun s2 t2 e2 d2 k2 => ?_
  have is2 := buildStage_inv is1 p1 f1 v1 e2
  have it2 := buildStage_inv it1 (k1.phase ▸ p1) (k1.fv ▸ f1) (k1.tv ▸ v1) d2
  cases e2
  cases d2
  obtain ⟨p2, v2, c2⟩ := buildState_accepts_derive is1 ⟨p1, f1, v1⟩
  refine Stage.exposed_andThen (k2.deriveStage is2 it2 v2) fun s3 t3 e3 d3 k3 => ?_
  have is3 := deriveStage_inv is2 v2 c2 e3
  have it3 := deriveStage_inv it2 (k2.tv ▸ v2) (k2.cv ▸ c2) d3
  obtain ⟨-, -, c3, -⟩ := deriveStage_accepts_pack is2 ⟨p2, v2, c2⟩ m1 e3
  refine Stage.exposed_andThen (k3.packStage is3 it3 c3) fun s4 t4 _ _ k4 => ?_
  exact k4.hdrencStage

/-! ### Every command and every step keeps the agreement -/

theorem Alike.bodyOf {i : Instr} (g : Accepted i s) : (bodyOf i s).exposed = (bodyOf i t).exposed := by
  cases i with
  | nop => exact congrArg Stage.done h
  | clear => exact congrArg Stage.done h.cleared
  | count => exact h.countStage
  | build =>
    obtain ⟨-, hf, -⟩ := g
    exact congrArg Stage.done (h.buildState hs ht hf)
  | derive =>
    obtain ⟨-, hv, -⟩ := g
    exact h.deriveStage hs ht hv
  | pack =>
    obtain ⟨-, -, hv, -⟩ := g
    exact h.packStage hs ht hv
  | hdrenc => exact h.hdrencStage
  | hdrdec => exact h.hdrdecStage
  | unpack => exact h.unpackStage hs ht g
  | compress => exact h.compressStage hs ht g
  | decompress => exact h.decompressStage hs ht g

end

theorem exposed_pushInput (s : State) (b : Byte) : (pushInput s b).exposed = pushInput s.exposed b := by
  unfold pushInput
  split
  · exact (if_pos ‹_›).symm
  · refine Eq.trans ?_ (if_neg ‹_›).symm
    split
    · exact (if_pos ‹_›).symm
    · exact (if_neg ‹_›).symm

theorem Alike.pushInput {s t : State} (h : Alike s t) (b : Byte) : Alike (pushInput s b) (pushInput t b) :=
  h.map (g := (Machine.pushInput · b)) (Machine.pushInput · b) (exposed_pushInput · b)

theorem Alike.finish {r q : Stage} {s' : State} (h : r.exposed = q.exposed) (e : r.finish = .next s') :
    ∃ t', q.finish = .next t' ∧ Alike s' t' := by
  obtain ⟨u, rfl, rfl⟩ | ⟨x, u, rfl, rfl⟩ := Stage.finish_next.mp e
  · cases q with
    | done v => exact ⟨v.accept, rfl, Alike.accept (Stage.done.inj h)⟩
    | raised x v => cases h
    | stuck f => cases h
  · cases q with
    | raised y v =>
      obtain ⟨rfl, k⟩ := Stage.raised.inj h
      exact ⟨v.enterFault x, rfl, Alike.enterFault k x⟩
    | done v => cases h
    | stuck f => cases h

theorem Alike.exec {i : Instr} {s t s' : State} (h : Alike s t) (hs : s.Inv) (ht : t.Inv) (e : exec i s = .next s') :
    ∃ t', exec i t = .next t' ∧ Alike s' t' := by
  rw [exec_eq_issue] at e ⊢
  by_cases g : Machine.guardOf i s = true
  · rw [issue_of_guard g] at e
    rw [issue_of_guard (h.guardOf i ▸ g)]
    exact Alike.finish (h.bodyOf hs ht ((guardOf_iff i s).mp g)) e
  · rw [issue_of_not_guard g] at e
    rw [issue_of_not_guard (h.guardOf i ▸ g)]
    cases e
    exact ⟨t.refuse .seq, rfl, h.refuse .seq⟩

theorem Alike.hostTransaction {s t s' : State} {op : HostOp} (h : Alike s t) (hs : s.Inv) (ht : t.Inv)
    (e : hostTransaction s op = .next s') : ∃ t', hostTransaction t op = .next t' ∧ Alike s' t' := by
  rw [hostTransaction_of_not_busy ht.flags.idle]
  obtain ⟨rfl, rfl⟩ | ⟨b, i, rfl, hd, he⟩ | ⟨b, r, rfl, hd, rfl⟩ | ⟨b, rfl, rfl⟩ | ⟨space, index, b, rfl, hn, rfl⟩
    | ⟨space, index, rfl, rfl⟩ := hostTransaction_next hs.flags.idle e
  · exact ⟨t.cleared, rfl, h.cleared⟩
  · simp only [hostWrite, writeCommand, hd]
    exact h.exec hs ht he
  · simp only [hostWrite, writeCommand, hd]
    exact ⟨t.refuse .illegal, rfl, h.refuse .illegal⟩
  · exact ⟨Machine.pushInput t b, rfl, h.pushInput b⟩
  · refine ⟨t, ?_, h⟩
    obtain ⟨rfl, rfl, -⟩ | ⟨rfl, rfl, -⟩ | ⟨-, e⟩ := hostWrite_cases t space index b
    · simp at hn
    · simp at hn
    · exact e
  · exact ⟨_, rfl, h.hostRead hs ht space index ▸ h.withReply _⟩

/-- Settles O12: a view decides the exposed part, a step keeps the agreement in it, and with the invariant of the next states that part decides
the view. -/
theorem unreadableStateNeverShows : Obligations.UnreadableStateNeverShows := by
  intro s t s' hs ht v e
  have h := alike_of_sameView v
  obtain ⟨hn, rfl⟩ | ⟨op, ops, ho, e'⟩ := step_next e
  · exact ⟨t, step_of_nil (h.hostIn ▸ hn), v⟩
  · obtain ⟨t', et, k⟩ := (h.withHostIn ops).hostTransaction (hs.withHostIn ops) (ht.withHostIn ops) e'
    rw [← step_of_cons (h.hostIn ▸ ho)] at et
    exact ⟨t', et, k.sameView (step_inv hs e) (step_inv ht et)⟩

end Sys2Proof.Machine
end

section
/-! ## Proofs: the tree that `BUILD` makes, and the code table of that tree -/

namespace Sys2Proof.Machine

/-! ### One round of the merge loop -/

theorem popMin_perm (m : Member) (xs : List Member) : ((popMin m xs).1 :: (popMin m xs).2).Perm (m :: xs) := by
  induction xs generalizing m with
  | nil => exact .refl _
  | cons x xs ih =>
    simp only [popMin]
    split
    · exact ((List.Perm.swap m _ _).trans ((ih x).cons m))
    · exact (List.Perm.swap x _ _).trans (((ih m).cons x).trans (.swap m x xs))

/-- What a round does: with fewer than two members nothing; else two members leave the queue and the node made over them joins it
(41_tree_builder.md R130). -/
theorem mergeRound_cases (w : Merge) :
    (w.queue.length < 2 ∧ mergeRound w = w)
      ∨ ∃ a b rest, (a :: b :: rest).Perm w.queue
          ∧ mergeRound w = ⟨w.nodes ++ [combine a b], rest ++ [⟨BitVec.ofNat 9 w.nodes.length, combine a b⟩]⟩ := by
  unfold mergeRound
  split
  · rename_i m x xs hq
    have hp := popMin_perm m (x :: xs)
    simp only
    split
    · rename_i he
      rw [he] at hp
      simpa using hp.length_eq
    · rename_i y ys hy
      refine .inr ⟨_, _, _, ?_, rfl⟩
      rw [hq]
      rw [hy] at hp
      exact ((popMin_perm y ys).cons _).trans hp
  · rename_i hq
    refine .inl ⟨?_, rfl⟩
    match h : w.queue with
    | [] => simp
    | [_] => simp
    | m :: x :: xs => exact absurd h (hq m x xs)

theorem mergeRounds_succ (k : Nat) (w : Merge) : mergeRounds (k + 1) w = mergeRounds k (mergeRound w) := rfl

theorem buildTree_eq (freq : ByteTable Count) :
    buildTree freq = mergeRounds ((leafNodes freq).length - 1) ⟨leafNodes freq, leafMembers (leafNodes freq)⟩ := rfl

/-- What every round keeps holds of the tree if it holds of the leaves. -/
theorem buildTree_induction {P : Merge → Prop} {freq : ByteTable Count} (leaves : P ⟨leafNodes freq, leafMembers (leafNodes freq)⟩)
    (round : ∀ w, P w → P (mergeRound w)) : P (buildTree freq) := by
  have rounds : ∀ k w, P w → P (mergeRounds k w) := by
    intro k
    induction k with
    | zero => exact fun _ h => h
    | succ k ih => exact fun w h => ih _ (round w h)
  exact rounds _ _ leaves

/-! ### How many nodes there are -/

theorem length_leafNodes (freq : ByteTable Count) : (leafNodes freq).length = (presentSymbols freq).length := by
  simp [leafNodes]

theorem length_leafMembers (leaves : List Node) : (leafMembers leaves).length = leaves.length := by
  simp [leafMembers]

theorem mergeRound_length (w : Merge) :
    (mergeRound w).nodes.length + (mergeRound w).queue.length = w.nodes.length + w.queue.length
      ∧ (mergeRound w).queue.length = if w.queue.length < 2 then w.queue.length else w.queue.length - 1 := by
  obtain ⟨h, e⟩ | ⟨a, b, rest, hp, e⟩ := mergeRound_cases w
  · rw [e, if_pos h]
    exact ⟨rfl, rfl⟩
  · have hl := hp.length_eq
    simp only [List.length_cons] at hl
    rw [e, if_neg (by omega)]
    simp only [List.length_append, List.length_cons, List.length_nil]
    omega

/-- Each of the members in the queue after the leaf loop, but one, is paid for by a node. -/
theorem buildTree_length (freq : ByteTable Count) :
    (buildTree freq).nodes.length + (buildTree freq).queue.length = 2 * (presentSymbols freq).length := by
  refine buildTree_induction (P := fun w => w.nodes.length + w.queue.length = 2 * (presentSymbols freq).length) ?_ fun w h => ?_
  · simp only [length_leafMembers, length_leafNodes]
    omega
  · obtain ⟨e, -⟩ := mergeRound_length w
    rw [e, h]

theorem mergeRounds_queue_length (k : Nat) {w : Merge} (h : k < w.queue.length) : (mergeRounds k w).queue.length = w.queue.length - k := by
  induction k generalizing w with
  | zero => rfl
  | succ k ih =>
    obtain ⟨-, e⟩ := mergeRound_length w
    rw [if_neg (by omega)] at e
    rw [mergeRounds_succ, ih (by omega)]
    omega

/-- The merge loop ends with one member in the queue (41_tree_builder.md R130). -/
theorem buildTree_queue {freq : ByteTable Count} (h : presentSymbols freq ≠ []) : ∃ m, (buildTree freq).queue = [m] := by
  have hn := List.length_pos_iff.mpr h
  apply List.length_eq_one_iff.mp
  have hq : (leafMembers (leafNodes freq)).length = (presentSymbols freq).length := by rw [length_leafMembers, length_leafNodes]
  rw [buildTree_eq, mergeRounds_queue_length _ (by simp only [length_leafNodes, hq]; omega)]
  simp only [length_leafNodes, hq]
  omega

theorem buildTree_of_empty {freq : ByteTable Count} (h : presentSymbols freq = []) : buildTree freq = ⟨[], []⟩ := by
  have hl : leafNodes freq = [] := List.map_eq_nil_iff.mpr h
  rw [buildTree_eq, hl]
  rfl

/-- The youngest member of the queue is the youngest node. -/
theorem buildTree_last_index (freq : ByteTable Count) :
    ∀ m, (buildTree freq).queue.getLast? = some m → m.index = BitVec.ofNat 9 ((buildTree freq).nodes.length - 1) := by
  refine buildTree_induction (P := fun w => ∀ m, w.queue.getLast? = some m → m.index = BitVec.ofNat 9 (w.nodes.length - 1)) ?_ fun w h => ?_
  · intro m hm
    simp only [leafMembers, List.getLast?_map, List.getLast?_zipIdx, Option.map_map, Option.map_eq_some_iff] at hm
    obtain ⟨n, -, rfl⟩ := hm
    simp
  · obtain ⟨-, e⟩ | ⟨a, b, rest, -, e⟩ := mergeRound_cases w
    · rw [e]
      exact h
    · rw [e]
      simp

/-! ### The numbers that `BUILD` writes -/

theorem buildTree_root {freq : ByteTable Count} (h : presentSymbols freq ≠ []) (old : NodeIndex) :
    rootOf old (buildTree freq).queue = BitVec.ofNat 9 ((buildTree freq).nodes.length - 1) := by
  obtain ⟨m, hm⟩ := buildTree_queue h
  have hi := buildTree_last_index freq m (by simp [hm])
  rw [hm]
  exact hi

theorem buildTree_nodes_length {freq : ByteTable Count} (h : presentSymbols freq ≠ []) :
    (buildTree freq).nodes.length = 2 * (presentSymbols freq).length - 1 := by
  obtain ⟨m, hm⟩ := buildTree_queue h
  have hl := buildTree_length freq
  rw [hm, List.length_singleton] at hl
  omega

theorem buildTree_nodes_length_le (freq : ByteTable Count) : (buildTree freq).nodes.length ≤ 511 := by
  have hn := length_presentSymbols_le freq
  by_cases h : presentSymbols freq = []
  · simp [buildTree_of_empty h]
  · rw [buildTree_nodes_length h]
    omega

/-- Settles O26: the queue loses a member where the node store gains one, so `NLEAF` leaves make 2 `NLEAF` - 1 nodes, the last of them the root. -/
theorem buildCompletesWithTreeNumbers : Obligations.BuildCompletesWithTreeNumbers := by
  intro s g
  have e : exec .build s = .next (buildState s).accept := exec_build g
  have hn := length_presentSymbols_le s.freq
  have hnodes := buildTree_nodes_length_le s.freq
  have hleaf : (BitVec.ofNat 9 (presentSymbols s.freq).length).toNat = (presentSymbols s.freq).length := by
    rw [BitVec.toNat_ofNat]
    omega
  have hnode : (BitVec.ofNat 9 (buildTree s.freq).nodes.length).toNat = (buildTree s.freq).nodes.length := by
    rw [BitVec.toNat_ofNat]
    omega
  refine ⟨(buildTree s.freq).nodes, BitVec.ofNat 9 (presentSymbols s.freq).length, BitVec.ofNat 9 (buildTree s.freq).nodes.length,
    rootOf s.root (buildTree s.freq).queue, (presentSymbols s.freq).isEmpty, e, hleaf, hnode.symm, fun h0 => ?_, fun hpos => ?_⟩
  · have hnil : presentSymbols s.freq = [] := List.length_eq_zero_iff.mp (hleaf.symm.trans h0)
    refine ⟨by simp [buildTree_of_empty hnil], by simp [hnil], fun t ht => ?_⟩
    rw [e] at ht
    cases ht
    simp [hostRead, readRegister, hnil]
  · rw [hleaf] at hpos
    have hne : presentSymbols s.freq ≠ [] := List.length_pos_iff.mp hpos
    refine ⟨?_, ?_, by simpa using hne⟩
    · rw [hnode, hleaf, buildTree_nodes_length hne]
    · rw [hnode, buildTree_root hne, BitVec.toNat_ofNat]
      omega

/-! ### The leaves below a node -/

/-- Within `h` levels, the symbols at the leaves below node `i` are `xs`, from left to right. -/
def LeavesBelow (nodes : List Node) : Nat → Nat → List Byte → Prop
  | 0, _, _ => False
  | h + 1, i, xs => ∃ n, nodes[i]? = some n ∧
      ((n.kind = .leaf ∧ xs = [n.sym])
        ∨ (n.kind = .internal ∧ ∃ l r, xs = l ++ r ∧ LeavesBelow nodes h n.left.toNat l ∧ LeavesBelow nodes h n.right.toNat r))

theorem leavesBelow_leaf {nodes : List Node} {i : Nat} {n : Node} (hn : nodes[i]? = some n) (hk : n.kind = .leaf) :
    LeavesBelow nodes 1 i [n.sym] :=
  ⟨n, hn, .inl ⟨hk, rfl⟩⟩

/-- More levels and later nodes change nothing below a node. -/
theorem LeavesBelow.mono {nodes : List Node} {h i : Nat} {xs : List Byte} (b : LeavesBelow nodes h i xs) (more : List Node)
    {k : Nat} (hk : h ≤ k) : LeavesBelow (nodes ++ more) k i xs := by
  induction h generalizing i xs k with
  | zero => exact b.elim
  | succ h ih =>
    obtain ⟨k, rfl⟩ : ∃ j, k = j + 1 := ⟨k - 1, by omega⟩
    obtain ⟨n, hn, c⟩ := b
    refine ⟨n, ?_, c.imp id ?_⟩
    · rw [List.getElem?_append_left (List.getElem?_eq_some_iff.mp hn).1, hn]
    · rintro ⟨hi, l, r, e, bl, br⟩
      exact ⟨hi, l, r, e, ih bl (by omega), ih br (by omega)⟩

theorem LeavesBelow.ne_nil {nodes : List Node} {h i : Nat} {xs : List Byte} (b : LeavesBelow nodes h i xs) : xs ≠ [] := by
  induction h generalizing i xs with
  | zero => exact b.elim
  | succ h ih =>
    obtain ⟨n, -, ⟨-, rfl⟩ | ⟨-, l, r, rfl, bl, -⟩⟩ := b
    · simp
    · simp [ih bl]

/-- The members of the queue are the roots of subtrees whose leaves, all together, are the symbols `syms`; a subtree has no more levels than
leaves. -/
def Forest (syms : List Byte) (w : Merge) : Prop :=
  ∃ leaves : List (List Byte), List.Forall₂ (fun m xs => LeavesBelow w.nodes xs.length m.index.toNat xs) w.queue leaves
    ∧ leaves.flatten.Perm syms

theorem leafMembers_forest (freq : ByteTable Count) :
    Forest (presentSymbols freq) ⟨leafNodes freq, leafMembers (leafNodes freq)⟩ := by
  refine ⟨(presentSymbols freq).map ([·]), List.forall₂_iff_get.mpr ⟨?_, fun i hi hj => ?_⟩, ?_⟩
  · simp [length_leafMembers, length_leafNodes]
  · have hn := length_presentSymbols_le freq
    have hlt : i < (presentSymbols freq).length := by simpa using hj
    have hm : i % 512 = i := by omega
    have hx : (leafNodes freq)[i]? = some (leafNode freq (presentSymbols freq)[i]) := by simp [leafNodes, hlt]
    have b : LeavesBelow (leafNodes freq) 1 i [(presentSymbols freq)[i]] := leavesBelow_leaf hx rfl
    simpa [leafMembers, hm] using b
  · rw [← List.flatMap_def, List.flatMap_singleton']

/-- The node made over two members has below it what they have below them. -/
theorem mergeRound_forest {syms : List Byte} {w : Merge} (hlen : w.nodes.length + w.queue.length ≤ 512) (f : Forest syms w) :
    Forest syms (mergeRound w) := by
  obtain ⟨-, e⟩ | ⟨a, b, rest, hp, e⟩ := mergeRound_cases w
  · rwa [e]
  · obtain ⟨leaves, hf, hs⟩ := f
    obtain ⟨leaves', hf', hp'⟩ := List.perm_comp_forall₂ hp hf
    obtain _ | ⟨ba, _ | ⟨bb, brest⟩⟩ := hf'
    rename_i xa xb xrest
    have hl := hp.length_eq
    simp only [List.length_cons] at hl
    have hi : (BitVec.ofNat 9 w.nodes.length).toNat = w.nodes.length := by
      rw [BitVec.toNat_ofNat]
      omega
    have ha := List.length_pos_iff.mpr ba.ne_nil
    have hb := List.length_pos_iff.mpr bb.ne_nil
    rw [e]
    refine ⟨xrest ++ [xa ++ xb], ?_, ?_⟩
    · refine List.rel_append (brest.imp fun m xs h => h.mono _ (Nat.le_refl _)) (.cons ?_ .nil)
      obtain ⟨k, hk⟩ : ∃ k, (xa ++ xb).length = k + 1 := ⟨xa.length + xb.length - 1, by rw [List.length_append]; omega⟩
      rw [List.length_append] at hk
      rw [List.length_append, hk, hi]
      exact ⟨combine a b, by simp, .inr ⟨rfl, xa, xb, rfl, ba.mono _ (by omega), bb.mono _ (by omega)⟩⟩
    · refine List.Perm.trans ?_ (hp'.flatten.trans hs)
      simpa [List.append_assoc] using List.perm_append_comm (l₁ := xrest.flatten) (l₂ := xa ++ xb)

/-- Below the root are exactly the present symbols, within as many levels as there are of them (41_tree_builder.md R134). -/
theorem buildTree_leavesBelow {freq : ByteTable Count} (h : presentSymbols freq ≠ []) (old : NodeIndex) :
    ∃ xs, xs.Perm (presentSymbols freq)
      ∧ LeavesBelow (buildTree freq).nodes (presentSymbols freq).length (rootOf old (buildTree freq).queue).toNat xs := by
  have hn := length_presentSymbols_le freq
  have hforest : (buildTree freq).nodes.length + (buildTree freq).queue.length ≤ 512 ∧ Forest (presentSymbols freq) (buildTree freq) := by
    refine buildTree_induction (P := fun w => w.nodes.length + w.queue.length ≤ 512 ∧ Forest (presentSymbols freq) w)
      ⟨?_, leafMembers_forest freq⟩ fun w hw => ⟨?_, mergeRound_forest hw.1 hw.2⟩
    · simp only [length_leafMembers, length_leafNodes]
      omega
    · obtain ⟨e, -⟩ := mergeRound_length w
      rw [e]
      exact hw.1
  obtain ⟨-, leaves, hf, hp⟩ := hforest
  obtain ⟨m, hm⟩ := buildTree_queue h
  rw [hm] at hf ⊢
  obtain _ | ⟨bm, _ | _⟩ := hf
  rename_i xs
  rw [List.flatten_singleton] at hp
  rw [hp.length_eq] at bm
  exact ⟨xs, hp, bm⟩

/-! ### The code table of a tree -/

/-- The entry of a present symbol: a length other than 0, and no bit of the code at that length or above (10_state.md R43). -/
def CodeTable.Coded (t : CodeTable) (x : Byte) : Prop :=
  t.clen.get x ≠ 0 ∧ ∀ k, (t.clen.get x).toNat ≤ k → (t.code.get x).getLsbD k = false

/-- The two tables have the same entry for `x`. -/
def CodeTable.SameEntry (t u : CodeTable) (x : Byte) : Prop :=
  t.code.get x = u.code.get x ∧ t.clen.get x = u.clen.get x

theorem CodeTable.Coded.of_sameEntry {t u : CodeTable} {x : Byte} (h : t.Coded x) (e : t.SameEntry u x) : u.Coded x := by
  obtain ⟨hne, hbits⟩ := h
  obtain ⟨hc, hl⟩ := e
  rw [hl] at hne hbits
  rw [hc] at hbits
  exact ⟨hne, hbits⟩

/-- The entry of a lone leaf (42_code_table.md R152). -/
theorem CodeTable.record_zero (t : CodeTable) (x : Byte) (code : Code) : t.record x code 0 = ⟨t.code.put x 0, t.clen.put x 1⟩ := rfl

theorem CodeTable.record_pos (t : CodeTable) (x : Byte) (code : Code) {depth : Nat} (h : depth ≠ 0) :
    t.record x code depth = ⟨t.code.put x code, t.clen.put x (BitVec.ofNat 8 depth)⟩ := if_neg h

theorem CodeTable.record_coded (t : CodeTable) (x : Byte) {code : Code} {depth : Nat} (hd : depth ≤ 255)
    (hc : ∀ k, depth ≤ k → code.getLsbD k = false) : (t.record x code depth).Coded x := by
  by_cases h0 : depth = 0
  · subst h0
    rw [CodeTable.record_zero]
    constructor <;> simp
  · have hl : (BitVec.ofNat 8 depth).toNat = depth := by
      rw [BitVec.toNat_ofNat]
      omega
    rw [CodeTable.record_pos _ _ _ h0]
    refine ⟨fun h => ?_, fun k hk => ?_⟩
    · simp only [ByteTable.get_put_same] at h
      rw [h] at hl
      exact h0 hl.symm
    · simp only [ByteTable.get_put_same, hl] at hk ⊢
      exact hc k hk

theorem CodeTable.record_other (t : CodeTable) {x y : Byte} (code : Code) (depth : Nat) (h : x ≠ y) :
    t.SameEntry (t.record x code depth) y := by
  by_cases h0 : depth = 0
  · subst h0
    exact ⟨(t.code.get_put_other 0 h).symm, (t.clen.get_put_other 1 h).symm⟩
  · rw [CodeTable.record_pos _ _ _ h0]
    exact ⟨(t.code.get_put_other code h).symm, (t.clen.get_put_other _ h).symm⟩

/-- The bit of a right branch is set at the depth of the branch, and none above it. -/
theorem code_right_above {code : Code} {depth : Nat} (hc : ∀ k, depth ≤ k → code.getLsbD k = false) {k : Nat} (hk : depth + 1 ≤ k) :
    (code ||| (1#255 <<< depth)).getLsbD k = false := by
  have h1 : k - depth ≠ 0 := by omega
  simp [hc k (by omega), h1]

/-- The walk of a subtree codes the symbols at its leaves and leaves every other entry as it was (42_code_table.md R150). -/
theorem walk_codes {nodes : List Node} {h i : Nat} {xs : List Byte} (b : LeavesBelow nodes h i xs) {fuel : Nat} (hf : h ≤ fuel)
    {code : Code} {depth : Nat} (hd : depth + h ≤ 256) (hc : ∀ k, depth ≤ k → code.getLsbD k = false) (t : CodeTable) :
    ∃ t', walk nodes fuel i code depth t = some t' ∧ (∀ x ∈ xs, t'.Coded x) ∧ ∀ x, x ∉ xs → t.SameEntry t' x := by
  induction h generalizing i xs fuel code depth t with
  | zero => exact b.elim
  | succ h ih =>
    obtain ⟨fuel, rfl⟩ : ∃ f, fuel = f + 1 := ⟨fuel - 1, by omega⟩
    obtain ⟨n, hn, ⟨hk, rfl⟩ | ⟨hk, l, r, rfl, bl, br⟩⟩ := b
    · refine ⟨t.record n.sym code depth, by simp [walk, hn, hk], fun x hx => ?_, fun x hx => ?_⟩
      · rw [List.mem_singleton.mp hx]
        exact t.record_coded n.sym (by omega) hc
      · exact t.record_other code depth fun e => hx (List.mem_singleton.mpr e.symm)
    · obtain ⟨t1, w1, in1, out1⟩ := ih bl (fuel := fuel) (by omega) (depth := depth + 1) (by omega) (fun k hk => hc k (by omega)) t
      obtain ⟨t2, w2, in2, out2⟩ := ih br (fuel := fuel) (by omega) (depth := depth + 1) (by omega) (fun k hk => code_right_above hc hk) t1
      refine ⟨t2, by simp [walk, hn, hk, w1, w2], fun x hx => ?_, fun x hx => ?_⟩
      · by_cases hr : x ∈ r
        · exact in2 x hr
        · exact (in1 x ((List.mem_append.mp hx).resolve_right hr)).of_sameEntry (out2 x hr)
      · obtain ⟨hl, hr⟩ := not_or.mp (mt List.mem_append.mpr hx)
        obtain ⟨c1, l1⟩ := out1 x hl
        obtain ⟨c2, l2⟩ := out2 x hr
        exact ⟨c1.trans c2, l1.trans l2⟩

theorem mem_presentSymbols (freq : ByteTable Count) (x : Byte) : x ∈ presentSymbols freq ↔ freq.get x ≠ 0 := by
  simp [presentSymbols]

/-- Every frequency table has a code table, which codes the present symbols and has the empty entry for every other. -/
theorem codesOf_codes (freq : ByteTable Count) :
    ∃ tab, codesOf freq = some tab ∧ (∀ x, freq.get x ≠ 0 → tab.Coded x) ∧ ∀ x, freq.get x = 0 → tab.code.get x = 0 ∧ tab.clen.get x = 0 := by
  by_cases h : presentSymbols freq = []
  · refine ⟨emptyCodes, by simp [codesOf, deriveCodes, h], fun x hx => ?_, fun x _ => by simp [emptyCodes]⟩
    have := (mem_presentSymbols freq x).mpr hx
    simp [h] at this
  · obtain ⟨xs, hp, b⟩ := buildTree_leavesBelow h 0
    have hn := length_presentSymbols_le freq
    have hlen := buildTree_nodes_length h
    have hpos := List.length_pos_iff.mpr h
    obtain ⟨tab, hw, hin, hout⟩ := walk_codes b (fuel := (buildTree freq).nodes.length) (by omega) (code := 0) (depth := 0) (by omega)
      (by simp) emptyCodes
    have htab : codesOf freq = some tab := by
      rw [codesOf, deriveCodes, if_neg (by simpa using h)]
      exact hw
    refine ⟨tab, htab, fun x hx => hin x (hp.mem_iff.mpr ((mem_presentSymbols freq x).mpr hx)), fun x hx => ?_⟩
    obtain ⟨hc, hl⟩ := hout x fun hm => (mem_presentSymbols freq x).mp (hp.mem_iff.mp hm) hx
    exact ⟨hc.symm.trans (by simp [emptyCodes]), hl.symm.trans (by simp [emptyCodes])⟩

/-- Settles O35: a valid code table is that of the frequency table, whose walk codes exactly the present symbols. -/
theorem codeTableEntriesWellFormed : Obligations.CodeTableEntriesWellFormed := by
  intro s h hv x
  obtain ⟨tab, htab, hin, hout⟩ := codesOf_codes s.freq
  obtain rfl : s.codeTable = tab := Option.some.inj ((h.session.codes hv).symm.trans htab)
  by_cases hx : s.freq.get x = 0
  · obtain ⟨hc, hl⟩ := hout x hx
    have hc : s.code.get x = 0 := hc
    have hl : s.clen.get x = 0 := hl
    simp [hc, hl, hx]
  · obtain ⟨hl, hc⟩ := hin x hx
    exact ⟨⟨fun e => absurd e hl, fun e => absurd e hx⟩, fun e => absurd e hl, hc⟩

end Sys2Proof.Machine
end

section
/-! ## Proofs: the host's writes and reads -/

namespace Sys2Proof.Machine

/-! ### The transactions, one equation for each kind -/

theorem step_of_write {s : State} {ops : List HostOp} {space : Space} {index : Nat} {b : Byte} (hb : s.busy = false)
    (hi : s.hostIn = .write space index b :: ops) : step s = hostWrite { s with hostIn := ops } space index b := by
  rw [step_of_cons hi, hostTransaction_of_not_busy (by exact hb)]

/-- Settles O17, by the three cases of an `IN_PUSH` write. -/
theorem pushAppendsToInput : Obligations.PushAppendsToInput := by
  intro s ops b hb hi
  have hstep : step s = .next (pushInput { s with hostIn := ops } b) := step_of_write hb hi
  rw [hstep]
  obtain ⟨hp, e⟩ | ⟨hp, hl, e⟩ | ⟨hp, hl, e⟩ := pushInput_cases { s with hostIn := ops } b <;> rw [e]
  · exact ⟨fun _ => rfl, fun h => absurd h hp, fun h => absurd h hp⟩
  · exact ⟨fun h => absurd hp h, fun _ _ => rfl, fun _ h => absurd hl h⟩
  · exact ⟨fun h => absurd hp h, fun _ h => absurd h hl,
      fun _ _ => ⟨_, rfl, Memory.read_write_same .., fun a ha => Memory.read_write_other _ b ha.symm⟩⟩

/-- Settles O18: of the kinds of write only those of `CMD` and `IN_PUSH` act. -/
theorem otherWritesHaveNoEffect : Obligations.OtherWritesHaveNoEffect := by
  intro s ops space index b hb hi hn
  obtain ⟨hs, h0, -⟩ | ⟨hs, h2, -⟩ | ⟨-, e⟩ := hostWrite_cases { s with hostIn := ops } space index b
  · exact absurd ⟨hs, .inl h0⟩ hn
  · exact absurd ⟨hs, .inr h2⟩ hn
  · exact (step_of_write hb hi).trans e

/-- Settles O19. What is read does not depend on the queue the transaction was taken from. -/
theorem readChangesNothing : Obligations.ReadChangesNothing := by
  intro s ops space index hb hi
  have hqueue : hostRead { s with hostIn := ops } space index = hostRead s space index := by
    cases space <;> rfl
  rw [step_of_cons hi, hostTransaction_of_not_busy (by exact hb)]
  simp only [hqueue]

/-! ### Which reads are answered -/

theorem byteReply_isSome (b : Option Byte) : (byteReply b).isSome = b.isSome := Option.isSome_map

theorem isSome_guarded {α : Type} (c : Prop) [Decidable c] (v : Option α) :
    (if c then v else none).isSome = true ↔ c ∧ v.isSome = true := by
  by_cases h : c <;> simp [h]

/-- The registers that can be read, each under its condition (10_state.md R21). -/
theorem readRegister_isSome (s : State) (i : Nat) : (readRegister s i).isSome = true ↔
    i = 1 ∨ i = 3 ∨ (i = 4 ∧ s.pv = true) ∨ (i = 5 ∧ s.mode = .enc ∧ s.hv = true)
      ∨ (i = 6 ∧ ((s.mode = .enc ∧ s.pv = true) ∨ (s.mode = .dec ∧ s.hv = true))) ∨ (i = 7 ∧ s.hv = true)
      ∨ (i = 8 ∧ s.mode = .dec ∧ s.hv = true) ∨ (i = 9 ∧ s.tv = true) ∨ (i = 10 ∧ s.tv = true)
      ∨ (i = 11 ∧ s.tv = true ∧ s.te = false) ∨ (i = 12 ∧ s.phase = .faulted) := by
  unfold readRegister
  split
  case h_12 => simp_all
  all_goals simp

theorem hv_of_ready {s : State} (h : s.Inv) (hp : s.phase = .ready) (hm : s.mode = .enc) : s.hv = true := by
  obtain ⟨-, ⟨-, hv⟩ | ⟨hd, -⟩⟩ := h.flags.ready.mp hp
  · exact hv
  · simp [hm] at hd

/-- Every byte of the artifact has a value, and no other (20_memory.md R65). -/
theorem readArtifact_isSome {s : State} (h : s.Inv) (i : Nat) :
    (readArtifact s i).isSome = true ↔ i < s.hdrLen.toNat + s.outLen.toNat := by
  unfold readArtifact
  split
  · rw [h.buffers.header.read_isSome]
    omega
  · split
    · rw [h.buffers.output.read_isSome]
      omega
    · simpa using Nat.le_of_not_lt ‹_›

/-- A valid tree has a record at every index below `NNODE`. -/
theorem node_isSome {s : State} (h : s.Inv) (hv : s.tv = true) {i : Nat} (hi : i < s.nnode.toNat) : (s.node[i]?).isSome = true := by
  obtain ⟨hn, hc, -⟩ := h.session.tree hv
  have hlen : s.nnode.toNat ≤ s.node.length := by
    rw [hc, hn, BitVec.toNat_ofNat]
    exact Nat.mod_le _ _
  simpa using Nat.lt_of_lt_of_le hi hlen

/-- Settles O20, space by space: a buffer holds the bytes below its length, a tree the nodes below `NNODE`. -/
theorem readAnsweredExactlyWhenReadable : Obligations.ReadAnsweredExactlyWhenReadable := by
  intro s space i h
  cases space with
  | reg => exact readRegister_isSome s i
  | inbuf => simp [hostRead]
  | outbuf => simp [hostRead, isSome_guarded, byteReply_isSome, h.buffers.output.read_isSome]
  | hdrbuf => simp [hostRead, isSome_guarded, byteReply_isSome, h.buffers.header.read_isSome, and_assoc]
  | artbuf => simp [hostRead, isSome_guarded, byteReply_isSome, readArtifact_isSome h, and_assoc]
  | freq | code | clen => simp [hostRead]
  | node =>
    rw [hostRead, isSome_guarded, Option.isSome_map, Bool.and_eq_true, decide_eq_true_eq]
    exact ⟨And.left, fun ⟨hv, hi⟩ => ⟨⟨hv, hi⟩, node_isSome h hv hi⟩⟩

/-- Settles O22: in `READY` with `MODE` = ENC the header and the payload are both valid, so their own views read the same bytes. -/
theorem artifactIsHeaderThenPayload : Obligations.ArtifactIsHeaderThenPayload := by
  intro s i h hp hm
  have hh := hv_of_ready h hp hm
  have hv := h.flags.encHeader hm hh
  have hart : hostRead s .artbuf i = byteReply (readArtifact s i) := by simp [hostRead, hp, hm]
  rw [hart, readArtifact]
  refine ⟨fun hi => ?_, fun hlo hhi => ?_, fun hhi => ?_⟩
  · simp [hostRead, hm, hh, hi]
  · have hi : i - s.hdrLen.toNat < s.outLen.toNat := by omega
    simp [hostRead, hv, hi, hhi, Nat.not_lt.mpr hlo]
  · rw [if_neg (by omega), if_neg (by omega)]
    rfl

/-! ### The places of the fields -/

theorem toNat_append_eq_add {w v : Nat} (x : BitVec w) (y : BitVec v) : (x ++ y).toNat = y.toNat + 2 ^ v * x.toNat := by
  rw [BitVec.toNat_append, ← Nat.shiftLeft_add_eq_or_of_lt y.isLt, Nat.shiftLeft_eq, Nat.mul_comm, Nat.add_comm]

theorem Phase.toNat_bits (p : Phase) :
    p.bits.toNat = match p with | .notStarted => 0 | .processing => 1 | .ready => 2 | .faulted => 3 := by
  cases p <;> rfl

theorem Mode.toNat_bit (m : Mode) : m.bit.toNat = match m with | .enc => 0 | .dec => 1 := by
  cases m <;> rfl

theorem ErrCode.toNat_bits4 (e : ErrCode) : e.bits4.toNat = match e with
    | .none => 0 | .hdrTrunc => 1 | .hdrTsize => 2 | .hdrFbc => 3 | .hdrEntry => 4 | .bits => 5 | .internal => 8 | .cap => 9 := by
  cases e <;> rfl

theorem RefReason.toNat_bits4 (r : RefReason) :
    r.bits4.toNat = match r with | .none => 0 | .illegal => 1 | .seq => 2 | .full => 3 | .frozen => 4 := by
  cases r <;> rfl

/-- The `STATUS` word is the sum of its fields, each at its place (10_state.md R31). -/
theorem State.toNat_status (s : State) : s.status.toNat =
    s.phase.bits.toNat + 2 ^ 2 * s.mode.bit.toNat + 2 ^ 3 * s.fv.toNat + 2 ^ 4 * s.tv.toNat + 2 ^ 5 * s.cv.toNat + 2 ^ 6 * s.pv.toNat
      + 2 ^ 7 * s.hv.toNat + 2 ^ 8 * s.te.toNat + 2 ^ 9 * s.busy.toNat + 2 ^ 12 * s.err.bits4.toNat + 2 ^ 16 * s.lastref.bits4.toNat := by
  simp only [State.status, toNat_append_eq_add, BitVec.toNat_ofBool, BitVec.toNat_ofNat]
  omega

/-- A field above the lower part of a word lies in the upper part. -/
theorem extractLsb'_of_upper {w v start len : Nat} {x : BitVec w} {y : BitVec v} {z : BitVec len} (h : v ≤ start)
    (e : x.extractLsb' (start - v) len = z) : (x ++ y).extractLsb' start len = z :=
  (BitVec.extractLsb'_append_eq_of_le h).trans e

theorem Node.word_kind (n : Node) : n.word.getLsbD 106 = decide (n.kind = .internal) := by
  unfold Node.word
  rw [BitVec.getLsbD_append]
  cases n.kind <;> simp only [BitVec.getLsbD_append] <;> rfl

/-- The fields of the 107-bit word of a node (20_memory.md R69). -/
theorem Node.word_fields (n : Node) : n.word.extractLsb' 0 72 = n.weight ∧ n.word.extractLsb' 72 8 = n.sym
    ∧ n.word.extractLsb' 80 9 = n.left ∧ n.word.extractLsb' 89 9 = n.right ∧ n.word.extractLsb' 98 8 = n.minsym
    ∧ n.word.getLsbD 106 = decide (n.kind = .internal) := by
  have low {w v : Nat} {x : BitVec w} {y : BitVec v} : (x ++ y).extractLsb' 0 v = y := BitVec.extractLsb'_append_eq_right
  refine ⟨low, ?_, ?_, ?_, ?_, n.word_kind⟩
  · exact extractLsb'_of_upper (by decide) low
  · exact extractLsb'_of_upper (by decide) <| extractLsb'_of_upper (by decide) low
  · exact extractLsb'_of_upper (by decide) <| extractLsb'_of_upper (by decide) <| extractLsb'_of_upper (by decide) low
  · exact extractLsb'_of_upper (by decide) <| extractLsb'_of_upper (by decide) <| extractLsb'_of_upper (by decide) <|
      extractLsb'_of_upper (by decide) low

/-- Settles O21: `STATUS` and the word of a node are their fields put together, each at its place; a table read finds its entry. -/
theorem readFormats : Obligations.ReadFormats := by
  refine ⟨fun s => ⟨rfl, ?_⟩, fun s x => ⟨fun hv => ?_, fun hv => ?_⟩, fun s i n hv hi hn => ?_, Node.word_fields⟩
  · have hsum := s.toNat_status
    rw [Phase.toNat_bits, Mode.toNat_bit, ErrCode.toNat_bits4, RefReason.toNat_bits4] at hsum
    exact hsum
  · simp [hostRead, hv, x.isLt]
  · simp [hostRead, hv, x.isLt]
  · simp [hostRead, hv, hi, hn]

end Sys2Proof.Machine
end

section
/-! ## Proofs: no code word begins another, and what `UNPACK` reads from a run of code words -/

namespace Sys2Proof.Machine

/-! ### Code words along the walk -/

theorem lowBits_eq {w : Nat} (v : BitVec w) (n : Nat) : lowBits v n = (List.range n).map v.getLsbD := rfl

theorem codeWord_eq (t : CodeTable) (x : Byte) : codeWord t x = lowBits (t.code.get x) (t.clen.get x).toNat := rfl

@[simp] theorem length_lowBits {w : Nat} (v : BitVec w) (n : Nat) : (lowBits v n).length = n := by
  simp [lowBits_eq]

theorem getElem?_lowBits {w : Nat} (v : BitVec w) {n k : Nat} (h : k < n) : (lowBits v n)[k]? = some (v.getLsbD k) := by
  simp [lowBits_eq, h]

theorem lowBits_succ {w : Nat} (v : BitVec w) (n : Nat) : lowBits v (n + 1) = lowBits v n ++ [v.getLsbD n] := by
  simp [lowBits_eq, List.range_succ]

theorem lowBits_congr {w : Nat} {v u : BitVec w} {n : Nat} (h : ∀ k, k < n → v.getLsbD k = u.getLsbD k) : lowBits v n = lowBits u n :=
  List.map_congr_left fun k hk => h k (List.mem_range.mp hk)

@[simp] theorem length_codeWord (t : CodeTable) (x : Byte) : (codeWord t x).length = (t.clen.get x).toNat :=
  length_lowBits _ _

theorem CodeTable.Coded.codeWord_ne_nil {t : CodeTable} {x : Byte} (h : t.Coded x) : codeWord t x ≠ [] := by
  obtain ⟨hl, -⟩ := h
  intro e
  have := congrArg List.length e
  rw [length_codeWord] at this
  exact hl (BitVec.eq_of_toNat_eq this)

theorem CodeTable.SameEntry.codeWord {t u : CodeTable} {x : Byte} (h : t.SameEntry u x) : codeWord u x = Machine.codeWord t x := by
  obtain ⟨hc, hl⟩ := h
  rw [codeWord_eq, codeWord_eq, hc, hl]

/-- The word of a leaf recorded at `depth` begins with the branches taken to it; at depth 0 there are none (42_code_table.md R151, R152). -/
theorem CodeTable.record_codeWord (t : CodeTable) (x : Byte) (code : Code) {depth : Nat} (hd : depth ≤ 255) :
    lowBits code depth <+: codeWord (t.record x code depth) x := by
  by_cases h0 : depth = 0
  · subst h0
    exact List.nil_prefix
  · have hl : (BitVec.ofNat 8 depth).toNat = depth := by
      rw [BitVec.toNat_ofNat]
      omega
    rw [CodeTable.record_pos _ _ _ h0, codeWord_eq]
    simp only [ByteTable.get_put_same, hl]
    exact List.prefix_rfl

/-- The branch to the left adds a 0 to the path, the branch to the right a 1 (42_code_table.md R151). -/
theorem lowBits_left {code : Code} {depth : Nat} (hc : ∀ k, depth ≤ k → code.getLsbD k = false) :
    lowBits code (depth + 1) = lowBits code depth ++ [false] := by
  rw [lowBits_succ, hc depth (Nat.le_refl _)]

theorem lowBits_right {code : Code} {depth : Nat} (hd : depth < 255) :
    lowBits (code ||| (1#255 <<< depth)) (depth + 1) = lowBits code depth ++ [true] := by
  have low : lowBits (code ||| (1#255 <<< depth)) depth = lowBits code depth :=
    lowBits_congr fun k hk => by simp [hk]
  rw [lowBits_succ, low]
  simp [hd]

/-- Words that part at a branch: neither begins the other. -/
theorem not_prefix_of_branch {p v w : List Bool} {a b : Bool} (hv : p ++ [a] <+: v) (hw : p ++ [b] <+: w) (hab : a ≠ b) : ¬ v <+: w := by
  intro h
  have hpre := List.prefix_of_prefix_length_le (hv.trans h) hw (by simp)
  have heq := hpre.eq_of_length (by simp)
  exact hab (by simpa using heq)

/-- The words of these symbols: none begins another (42_code_table.md R154). -/
def CodeTable.PrefixFree (t : CodeTable) (xs : List Byte) : Prop :=
  ∀ x ∈ xs, ∀ y ∈ xs, x ≠ y → ¬ codeWord t x <+: codeWord t y

/-- After the walk of a subtree the words of its leaves all begin with the path to it, and none begins another. -/
theorem walk_prefixFree {nodes : List Node} {h i : Nat} {xs : List Byte} (b : LeavesBelow nodes h i xs) (nd : xs.Nodup) {fuel : Nat}
    (hf : h ≤ fuel) {code : Code} {depth : Nat} (hd : depth + h ≤ 256) (hc : ∀ k, depth ≤ k → code.getLsbD k = false)
    {t t' : CodeTable} (w : walk nodes fuel i code depth t = some t') :
    (∀ x ∈ xs, lowBits code depth <+: codeWord t' x) ∧ t'.PrefixFree xs := by
  induction h generalizing i xs fuel code depth t t' with
  | zero => exact b.elim
  | succ h ih =>
    obtain ⟨fuel, rfl⟩ : ∃ f, fuel = f + 1 := ⟨fuel - 1, by omega⟩
    obtain ⟨n, hn, ⟨hk, rfl⟩ | ⟨hk, l, r, rfl, bl, br⟩⟩ := b
    · obtain rfl : t.record n.sym code depth = t' := by simpa [walk, hn, hk] using w
      refine ⟨fun x hx => ?_, fun x hx y hy hxy => absurd ((List.mem_singleton.mp hx).trans (List.mem_singleton.mp hy).symm) hxy⟩
      rw [List.mem_singleton.mp hx]
      exact t.record_codeWord n.sym code (by omega)
    · obtain ⟨ndl, ndr, disj⟩ := List.nodup_append'.mp nd
      have hh : 0 < h := Nat.pos_of_ne_zero fun e => by
        subst e
        exact bl
      have hcr := fun k => code_right_above (code := code) (depth := depth) hc (k := k)
      obtain ⟨t1, w1, -, -⟩ := walk_codes bl (fuel := fuel) (by omega) (depth := depth + 1) (by omega) (fun k hk => hc k (by omega)) t
      obtain ⟨t2, w2, -, out2⟩ := walk_codes br (fuel := fuel) (by omega) (depth := depth + 1) (by omega) hcr t1
      obtain rfl : t2 = t' := by simpa [walk, hn, hk, w1, w2] using w
      obtain ⟨pl, fl⟩ := ih bl ndl (by omega) (by omega) (fun k hk => hc k (by omega)) w1
      obtain ⟨pr, fr⟩ := ih br ndr (by omega) (by omega) hcr w2
      rw [lowBits_left hc] at pl
      rw [lowBits_right (by omega)] at pr
      have kept : ∀ x ∈ l, codeWord t2 x = codeWord t1 x := fun x hx => (out2 x fun hr => disj hx hr).codeWord
      refine ⟨fun x hx => ?_, fun x hx y hy hxy => ?_⟩
      · obtain hx | hx := List.mem_append.mp hx
        · rw [kept x hx]
          exact (List.prefix_append _ _).trans (pl x hx)
        · exact (List.prefix_append _ _).trans (pr x hx)
      · obtain hx | hx := List.mem_append.mp hx <;> obtain hy | hy := List.mem_append.mp hy
        · rw [kept x hx, kept y hy]
          exact fl x hx y hy hxy
        · rw [kept x hx]
          exact not_prefix_of_branch (pl x hx) (pr y hy) Bool.false_ne_true
        · rw [kept y hy]
          exact not_prefix_of_branch (pr x hx) (pl y hy) Bool.false_ne_true.symm
        · exact fr x hx y hy hxy

theorem nodup_presentSymbols (freq : ByteTable Count) : (presentSymbols freq).Nodup := by
  refine List.Nodup.filter _ (List.Nodup.map_on (fun x hx y hy e => ?_) List.nodup_range)
  have hxy := congrArg BitVec.toNat e
  rw [List.mem_range] at hx hy
  rw [BitVec.toNat_ofNat, BitVec.toNat_ofNat, Nat.mod_eq_of_lt hx, Nat.mod_eq_of_lt hy] at hxy
  exact hxy

/-- No code word of a present symbol begins the word of another (42_code_table.md R154). -/
theorem codesOf_prefixFree {freq : ByteTable Count} {tab : CodeTable} (h : codesOf freq = some tab) {x y : Byte} (hx : freq.get x ≠ 0)
    (hy : freq.get y ≠ 0) (hxy : x ≠ y) : ¬ codeWord tab x <+: codeWord tab y := by
  rw [← mem_presentSymbols] at hx hy
  have hp := List.ne_nil_of_mem hx
  obtain ⟨xs, hperm, b⟩ := buildTree_leavesBelow hp 0
  have hn := length_presentSymbols_le freq
  have hlen := buildTree_nodes_length hp
  have hpos := List.length_pos_iff.mpr hp
  rw [codesOf, deriveCodes, if_neg (by simpa using hp)] at h
  obtain ⟨-, hfree⟩ := walk_prefixFree b (hperm.nodup_iff.mpr (nodup_presentSymbols freq)) (by omega) (by omega) (by simp) h
  exact hfree x (hperm.mem_iff.mpr hx) y (hperm.mem_iff.mpr hy) hxy

/-! ### The accumulator of the bit loop -/

/-- The accumulator holds these bits, the first in bit 0 (44_bit_unpacker.md R185). -/
def Accumulates (code : Nat) (bits : List Bool) : Prop :=
  ∀ k, code.testBit k = bits.getD k false

theorem accumulates_nil : Accumulates 0 [] := fun k => by simp

theorem Accumulates.append {code : Nat} {bits : List Bool} (h : Accumulates code bits) (bit : Bool) :
    Accumulates (code ||| (bit.toNat <<< bits.length)) (bits ++ [bit]) := by
  intro k
  rw [Nat.testBit_or, Nat.testBit_shiftLeft, h k]
  obtain hk | rfl | hk := Nat.lt_trichotomy k bits.length
  · rw [List.getD_append _ _ _ _ hk]
    simp [Nat.not_le.mpr hk]
  · cases bit <;> simp
  · have h1 : k - bits.length ≠ 0 := by omega
    rw [List.getD_eq_default _ _ hk.le, List.getD_eq_default _ _ (by simpa using hk)]
    simp [Nat.testBit_bool_toNat, h1]

theorem Accumulates.inj {code code' : Nat} {bits : List Bool} (h : Accumulates code bits) (h' : Accumulates code' bits) : code = code' :=
  Nat.eq_of_testBit_eq fun k => (h k).trans (h' k).symm

/-- With their number, the accumulator determines the bits it holds. -/
theorem Accumulates.bits_inj {code : Nat} {u v : List Bool} (hu : Accumulates code u) (hv : Accumulates code v)
    (hl : u.length = v.length) : u = v := by
  refine List.ext_getElem hl fun k hku hkv => ?_
  have hk := (hu k).symm.trans (hv k)
  rwa [List.getD_eq_getElem _ _ hku, List.getD_eq_getElem _ _ hkv] at hk

/-- The register of a coded symbol holds its code word. -/
theorem CodeTable.Coded.accumulates {t : CodeTable} {x : Byte} (h : t.Coded x) : Accumulates (t.code.get x).toNat (codeWord t x) := by
  obtain ⟨-, hz⟩ := h
  intro k
  rw [BitVec.testBit_toNat, List.getD_eq_getElem?_getD]
  by_cases hk : k < (t.clen.get x).toNat
  · rw [codeWord_eq, getElem?_lowBits _ hk, Option.getD_some]
  · rw [hz k (by omega), List.getElem?_eq_none (by rw [length_codeWord]; omega), Option.getD_none]

/-! ### What the lookup finds -/

section
variable {freq : ByteTable Count} {t : CodeTable}

theorem coded_of_codesOf (h : codesOf freq = some t) {x : Byte} (hx : freq.get x ≠ 0) : t.Coded x := by
  obtain ⟨t', ht', hin, -⟩ := codesOf_codes freq
  obtain rfl : t' = t := Option.some.inj (ht'.symm.trans h)
  exact hin x hx

theorem present_of_codesOf (h : codesOf freq = some t) {x : Byte} (hl : t.clen.get x ≠ 0) : freq.get x ≠ 0 := by
  obtain ⟨t', ht', -, hout⟩ := codesOf_codes freq
  obtain rfl : t' = t := Option.some.inj (ht'.symm.trans h)
  intro hx
  obtain ⟨-, h0⟩ := hout x hx
  exact hl h0

/-- A match is a coded symbol whose word is exactly the bits read. -/
theorem eq_of_decodeStep (h : codesOf freq = some t) {code : Nat} {bits : List Bool} (ha : Accumulates code bits) {y : Byte}
    (hd : decodeStep t bits.length code = some y) : freq.get y ≠ 0 ∧ codeWord t y = bits := by
  have hy := List.find?_some hd
  simp only [Bool.and_eq_true, decide_eq_true_eq] at hy
  obtain ⟨⟨hlen, hne⟩, hcode⟩ := hy
  have hmem := present_of_codesOf h hne
  have hword := (coded_of_codesOf h hmem).accumulates
  rw [hcode] at hword
  exact ⟨hmem, hword.bits_inj ha ((length_codeWord t y).trans hlen)⟩

/-- When the bits read are the word of a coded symbol, the lookup finds that symbol (42_code_table.md R156). -/
theorem decodeStep_word (h : codesOf freq = some t) {code : Nat} {x : Byte} (hx : freq.get x ≠ 0) (ha : Accumulates code (codeWord t x)) :
    decodeStep t (codeWord t x).length code = some x := by
  have hcode : (t.code.get x).toNat = code := (coded_of_codesOf h hx).accumulates.inj ha
  obtain ⟨hne, -⟩ := coded_of_codesOf h hx
  cases hd : decodeStep t (codeWord t x).length code with
  | none =>
    have := List.find?_eq_none.mp hd x (mem_allBytes x)
    exact absurd (by simpa [hcode] using this) hne
  | some y =>
    obtain ⟨hy, hw⟩ := eq_of_decodeStep h ha hd
    by_contra hxy
    exact codesOf_prefixFree h hy hx (fun e => hxy (by rw [e])) (hw ▸ List.prefix_rfl)

/-- Before the word of a coded symbol is complete, the lookup finds nothing. -/
theorem decodeStep_part (h : codesOf freq = some t) {code : Nat} {x : Byte} (hx : freq.get x ≠ 0) {bits rest : List Bool}
    (hw : codeWord t x = bits ++ rest) (hr : rest ≠ []) (ha : Accumulates code bits) : decodeStep t bits.length code = none := by
  by_contra hn
  obtain ⟨y, hd⟩ := Option.ne_none_iff_exists'.mp hn
  obtain ⟨hy, e⟩ := eq_of_decodeStep h ha hd
  refine codesOf_prefixFree h hy hx ?_ (by rw [e, hw]; exact List.prefix_append _ _)
  rintro rfl
  rw [e] at hw
  exact hr (List.self_eq_append_right.mp hw)

/-! ### The bit loop over code words -/

theorem unpackBits_keepReading {cap : Len} {code len : Nat} {bit : Bool} (o : OutBuffer) (bits : List Bool)
    (h : decodeStep t (len + 1) (code ||| (bit.toNat <<< len)) = none) :
    unpackBits cap t code len o (bit :: bits) = unpackBits cap t (code ||| (bit.toNat <<< len)) (len + 1) o bits := by
  simp only [unpackBits, h]

theorem unpackBits_match {cap : Len} {code len : Nat} {bit : Bool} {x : Byte} (o : OutBuffer) (bits : List Bool)
    (h : decodeStep t (len + 1) (code ||| (bit.toNat <<< len)) = some x) :
    unpackBits cap t code len o (bit :: bits) = (o.append cap x).bind fun o' => unpackBits cap t 0 0 o' bits := by
  simp only [unpackBits, h]
  cases o.append cap x <;> rfl

/-- The loop reads the rest of a word that it is inside of, and appends its symbol. -/
theorem unpackBits_word_rest (h : codesOf freq = some t) (cap : Len) {x : Byte} (hx : freq.get x ≠ 0) {todo : List Bool}
    (hne : todo ≠ []) {seen : List Bool} (hw : codeWord t x = seen ++ todo) {code : Nat} (ha : Accumulates code seen)
    (o : OutBuffer) (rest : List Bool) :
    unpackBits cap t code seen.length o (todo ++ rest) =
      (o.append cap x).bind (fun o' => unpackBits cap t 0 0 o' rest) := by
  induction todo generalizing seen code with
  | nil => exact absurd rfl hne
  | cons bit todo ih =>
    have ha' := ha.append bit
    have hlen : (seen ++ [bit]).length = seen.length + 1 := by simp
    have hw' : codeWord t x = (seen ++ [bit]) ++ todo := by simpa using hw
    by_cases ht : todo = []
    · subst ht
      rw [List.append_nil] at hw'
      rw [← hw'] at ha' hlen
      exact unpackBits_match o rest (hlen ▸ decodeStep_word h hx ha')
    · have hpart := decodeStep_part h hx hw' ht ha'
      rw [hlen] at hpart
      rw [List.cons_append, unpackBits_keepReading o _ hpart, ← hlen]
      exact ih ht hw' ha'

/-- The loop reads a whole word and appends its symbol (44_bit_unpacker.md R185). -/
theorem unpackBits_word (h : codesOf freq = some t) (cap : Len) {x : Byte} (hx : freq.get x ≠ 0) (o : OutBuffer) (rest : List Bool) :
    unpackBits cap t 0 0 o (codeWord t x ++ rest) = (o.append cap x).bind (fun o' => unpackBits cap t 0 0 o' rest) :=
  unpackBits_word_rest h cap hx (coded_of_codesOf h hx).codeWord_ne_nil (List.nil_append _).symm accumulates_nil o rest

/-- The loop reads a run of words and appends their symbols, as long as there is room. -/
theorem unpackBits_words (h : codesOf freq = some t) (cap : Len) {xs : List Byte} (hxs : ∀ x ∈ xs, freq.get x ≠ 0) (o : OutBuffer)
    (hroom : o.len.toNat + xs.length ≤ cap.toNat) (rest : List Bool) :
    unpackBits cap t 0 0 o (xs.flatMap (codeWord t) ++ rest) =
      unpackBits cap t 0 0 ⟨o.mem.writeN o.len.toNat xs, o.len + BitVec.ofNat 64 xs.length⟩ rest := by
  induction xs generalizing o with
  | nil => simp [Memory.writeN]
  | cons x xs ih =>
    rw [List.length_cons] at hroom
    have hcap := cap.isLt
    have hlen : (o.len + 1).toNat = o.len.toNat + 1 := BitVec.toNat_add_of_lt (y := 1#64) (by simp; omega)
    have happ : o.append cap x = .ok ⟨o.mem.write o.len.toNat x, o.len + 1⟩ := by
      refine OutBuffer.append_ok.mpr ⟨fun e => ?_, rfl⟩
      rw [e] at hroom
      omega
    have hsum : o.len + 1 + BitVec.ofNat 64 xs.length = o.len + BitVec.ofNat 64 (xs.length + 1) := by
      rw [BitVec.add_assoc, Nat.add_comm, BitVec.ofNat_add]
      rfl
    rw [List.flatMap_cons, List.append_assoc, unpackBits_word h cap (hxs x List.mem_cons_self), happ]
    simp only [Except.bind]
    rw [ih (fun y hy => hxs y (List.mem_cons_of_mem _ hy)) _ (by simp only [hlen]; omega), hlen]
    simp only [hsum, List.length_cons, Memory.writeN]

/-- One word more than there is room for raises `E_CAP`, whatever follows it (20_memory.md R64, 60_exceptions.md R273). -/
theorem unpackBits_full (h : codesOf freq = some t) (cap : Len) {xs : List Byte} (hxs : ∀ x ∈ xs, freq.get x ≠ 0)
    (hlen : xs.length = cap.toNat + 1) (rest : List Bool) :
    unpackBits cap t 0 0 OutBuffer.empty (xs.flatMap (codeWord t) ++ rest) = .error ⟨.cap, cap⟩ := by
  obtain rfl | ⟨ys, y, rfl⟩ := List.eq_nil_or_concat' xs
  · simp at hlen
  · obtain ⟨hys, hy⟩ := List.forall_mem_append.mp hxs
    have hn : ys.length = cap.toNat := by simpa using hlen
    have hfull : OutBuffer.empty.len + BitVec.ofNat 64 ys.length = cap := by simp [hn, OutBuffer.empty]
    have hraise (mem : Memory) : OutBuffer.append cap ⟨mem, cap⟩ y = .error ⟨.cap, cap⟩ := OutBuffer.append_error.mpr ⟨rfl, rfl⟩
    rw [List.flatMap_append, List.append_assoc, unpackBits_words h cap hys _ (by simp [hn, OutBuffer.empty]), hfull,
      List.flatMap_singleton, unpackBits_word h cap (hy y List.mem_cons_self), hraise]
    rfl

end

/-! ### `UNPACK` with its tree and its codes -/

/-- Whatever `UNPACK` has to build and derive first, its bit loop runs with the code table of `FREQ`, and nothing but the tree and the codes has
changed (44_bit_unpacker.md R185, R186). -/
theorem unpackStage_eq_unpackPayload {s : State} {tab : CodeTable} (h : s.Inv) (g : Accepted .unpack s) (ht : codesOf s.freq = some tab) :
    ∃ node nleaf nnode root te, node = (buildTree s.freq).nodes
      ∧ unpackStage s = unpackPayload { s with node := node, nleaf := nleaf, nnode := nnode, root := root, te := te, tv := true,
                                               code := tab.code, clen := tab.clen, cv := true } := by
  have tree : ∃ node nleaf nnode root te, ensureTree s = .done { s with node := node, nleaf := nleaf, nnode := nnode, root := root,
                                                                        te := te, tv := true } := by
    by_cases hv : s.tv = true
    · exact ⟨s.node, s.nleaf, s.nnode, s.root, s.te, by rw [ensureTree_eq, if_pos hv, ← hv]⟩
    · exact ⟨_, _, _, _, _, by rw [ensureTree_eq, if_neg hv]; rfl⟩
  obtain ⟨node, nleaf, nnode, root, te, e⟩ := tree
  obtain ⟨hi, htv, -⟩ := ensureTree_inv h g e
  obtain ⟨hnode, -⟩ := hi.session.tree htv
  refine ⟨node, nleaf, nnode, root, te, hnode, ?_⟩
  rw [unpackStage, e, Stage.andThen_done, ensureCodes]
  split
  case isTrue hcv =>
    have htab : s.codeTable = tab := Option.some.inj ((hi.session.codes hcv).symm.trans ht)
    rw [Stage.andThen_done, ← htab]
    have hcv : s.cv = true := hcv
    rw [← hcv]
    rfl
  case isFalse =>
    rw [deriveStage_eq ((deriveCodes_eq_codesOf hi htv).trans ht), Stage.andThen_done]

/-- Settles O48: the loop appends the first `OUT_CAP` symbols, and the word of one more finds `OUT` full. -/
theorem unpackCapacityFault : Obligations.UnpackCapacityFault := by
  intro s t bs tab xs rest h g hbs htab hbits hxs hlen e
  obtain ⟨node, nleaf, nnode, root, te, -, hstage⟩ := unpackStage_eq_unpackPayload h g htab
  have hloop : unpackBits s.cfg.outCap tab 0 0 OutBuffer.empty (payloadBits s.fbc.toNat bs) = .error ⟨.cap, s.cfg.outCap⟩ := by
    rw [hbits]
    exact unpackBits_full htab _ hxs hlen rest
  rw [exec_unpack g, hstage.trans (unpackPayload_eq_raised hbs hloop), Stage.finish_raised] at e
  obtain ⟨-, hm, hh, hp⟩ := g
  have hf : s.fv = true := (h.flags.decHeader hm).mp hh
  cases e
  exact ⟨rfl, rfl, rfl, rfl, hf, rfl, rfl, hp, hh⟩

end Sys2Proof.Machine
end

section
/-! ## Proofs: the command byte, and the payload that `PACK` makes -/

namespace Sys2Proof.Machine

/-! ### Commands and reserved bytes -/

theorem decode_encode (i : Instr) : decode (encode i) = .ok i := by
  cases i <;> rfl

/-- The decoder takes exactly the one byte that the encoder gives a command (30_encoding.md R94). -/
theorem decode_eq_ok_iff {b : Byte} {i : Instr} : decode b = .ok i ↔ b = encode i :=
  ⟨eq_encode_of_decode, fun h => h ▸ decode_encode i⟩

/-- Settles O1: each byte is what the encoder gives its command. -/
theorem commandTableDecodes : Obligations.CommandTableDecodes :=
  ⟨decode_encode .nop, decode_encode .clear, decode_encode .count, decode_encode .build, decode_encode .derive, decode_encode .pack,
    decode_encode .hdrenc, decode_encode .hdrdec, decode_encode .unpack, decode_encode .compress, decode_encode .decompress⟩

/-- Settles O2: the decoder inverts the encoder, in both directions. -/
theorem decodeAndEncodeAgree : Obligations.DecodeAndEncodeAgree :=
  ⟨decode_encode, fun _ _ => eq_encode_of_decode⟩

/-- The list of reserved values is what the bytes of the commands leave (30_encoding.md R95, R96). -/
theorem reservedByte_iff (b : Byte) : reservedByte b ↔ ∀ i, b ≠ encode i := by
  constructor
  · rintro h i rfl
    cases i <;> simp [reservedByte, encode] at h
  · intro h
    have hn : ∀ i ∈ commandTable.map Prod.fst, b.toNat ≠ (encode i).toNat := fun i _ e => h i (BitVec.eq_of_toNat_eq e)
    simp only [commandTable, List.map_cons, List.map_nil, List.forall_mem_cons, encode, BitVec.reduceToNat] at hn
    have hlt : b.toNat < 256 := b.isLt
    unfold reservedByte
    omega

theorem writeCommand_reserved (s : State) {b : Byte} (h : reservedByte b) : writeCommand s b = .next (s.refuse .illegal) := by
  unfold writeCommand
  split
  · rfl
  · exact absurd (eq_encode_of_decode ‹_›) ((reservedByte_iff b).mp h _)

/-- Settles O3: a reserved byte is no command's byte, so the decoder fails on it and the write is refused. -/
theorem reservedByteRefused : Obligations.ReservedByteRefused := by
  refine ⟨fun s ops b hb hi hr => ?_, fun b => ?_⟩
  · rw [step_of_write hb hi]
    exact writeCommand_reserved _ hr
  · simp only [reservedByte_iff, ne_eq, decode_eq_ok_iff]

/-! ### The bytes of a stream of bits -/

/-- The byte that stands at index `a` when these bits are packed, the first of each 8 lowest, with zeros beyond their end
(30_encoding.md R104, R105). -/
def IsPackedByte (bits : List Bool) (a : Nat) (v : Byte) : Prop :=
  ∀ j, j < 8 → v.getLsbD j = bits.getD (8 * a + j) false

/-- Every byte of the output buffer is that of these bits. -/
def OutBuffer.Packs (o : OutBuffer) (bits : List Bool) : Prop :=
  ∀ a, a < o.len.toNat → ∃ v, o.mem.read a = some v ∧ IsPackedByte bits a v

/-- The packer has taken in these bits: the whole bytes of them are in the buffer, the others in `acc` (43_bit_packer.md R170). -/
def Packer.Carries (p : Packer) (bits : List Bool) : Prop :=
  p.out.len.toNat = bits.length / 8 ∧ p.n = bits.length % 8 ∧ p.out.Packs bits ∧ IsPackedByte bits p.out.len.toNat p.acc

theorem Packer.carries_start : Packer.Carries ⟨OutBuffer.empty, 0, 0⟩ [] :=
  ⟨rfl, rfl, fun _ h => absurd h (Nat.not_lt_zero _), fun j _ => by simp⟩

/-- Bits that follow do not change a byte that is full. -/
theorem IsPackedByte.append {bits : List Bool} {a : Nat} {v : Byte} (h : IsPackedByte bits a v) (ha : 8 * a + 8 ≤ bits.length)
    (more : List Bool) : IsPackedByte (bits ++ more) a v := fun j hj => by
  rw [h j hj, List.getD_append _ _ _ _ (by omega)]

theorem OutBuffer.Packs.append {o : OutBuffer} {bits : List Bool} (h : o.Packs bits) (hl : 8 * o.len.toNat ≤ bits.length)
    (more : List Bool) : o.Packs (bits ++ more) := fun a ha =>
  let ⟨v, hv, hp⟩ := h a ha
  ⟨v, hv, hp.append (by omega) more⟩

/-- The bit that comes next goes to the lowest free place of the byte that is being filled. -/
theorem IsPackedByte.or_bit {bits : List Bool} {a : Nat} {acc : Byte} (h : IsPackedByte bits a acc) (ha : a = bits.length / 8) (bit : Bool) :
    IsPackedByte (bits ++ [bit]) a (acc ||| ((BitVec.ofBool bit).setWidth 8 <<< (bits.length % 8))) := fun j hj => by
  rw [BitVec.getLsbD_or, h j hj]
  obtain hlt | heq | hgt := Nat.lt_trichotomy j (bits.length % 8)
  · rw [List.getD_append _ _ _ _ (by omega)]
    simp [hlt]
  · have e : 8 * a + j = bits.length := by omega
    subst heq
    simp [e, hj]
  · rw [List.getD_eq_default bits _ (by omega), List.getD_eq_default _ _ (by simp; omega)]
    have : j - bits.length % 8 ≠ 0 := by omega
    simp [this]

/-! ### The packer's loops -/

/-- Where there is room, `Append` puts the byte after those already there (20_memory.md R64). -/
theorem OutBuffer.Packs.append_byte {o : OutBuffer} {bits : List Bool} {b : Byte} (h : o.Packs bits) (hb : IsPackedByte bits o.len.toNat b)
    {cap : Len} (hc : o.len.toNat < cap.toNat) : ∃ o', o.append cap b = .ok o' ∧ o'.len.toNat = o.len.toNat + 1 ∧ o'.Packs bits := by
  have hcap := cap.isLt
  have hlen : (o.len + 1).toNat = o.len.toNat + 1 := BitVec.toNat_add_of_lt (y := 1#64) (by simp; omega)
  refine ⟨_, OutBuffer.append_ok.mpr ⟨fun e => ?_, rfl⟩, hlen, fun a ha => ?_⟩
  · rw [e] at hc
    omega
  · simp only [hlen] at ha
    by_cases e : o.len.toNat = a
    · subst e
      exact ⟨b, Memory.read_write_same _ _ _, hb⟩
    · rw [Memory.read_write_other _ _ e]
      exact h a (by omega)

theorem Packer.Carries.emit {p : Packer} {bits : List Bool} (h : p.Carries bits) (bit : Bool) {cap : Len}
    (hc : (bits.length + 1) / 8 ≤ cap.toNat) : ∃ p', p.emit cap bit = .ok p' ∧ p'.Carries (bits ++ [bit]) := by
  obtain ⟨hw, hn, hp, ha⟩ := h
  have hp' := hp.append (by omega) [bit]
  have ha' := ha.or_bit hw bit
  rw [← hn] at ha'
  have hl : (bits ++ [bit]).length = bits.length + 1 := by simp
  by_cases hfull : p.n + 1 = 8
  · obtain ⟨o, ho, hlen, hpo⟩ := hp'.append_byte ha' (cap := cap) (by omega)
    refine ⟨⟨o, 0, 0⟩, by simp [Packer.emit, hfull, ho], by simp only [hl]; omega, by simp only [hl]; omega, hpo, fun j _ => ?_⟩
    rw [List.getD_eq_default _ _ (by simp only [hl]; omega)]
    exact BitVec.getLsbD_zero
  · exact ⟨⟨p.out, _, p.n + 1⟩, by simp [Packer.emit, hfull], by simp only [hl]; omega, by simp only [hl]; omega, hp', ha'⟩

theorem Packer.Carries.emitAll {p : Packer} {bits : List Bool} (h : p.Carries bits) {cap : Len} (more : List Bool)
    (hc : (bits ++ more).length / 8 ≤ cap.toNat) : ∃ p', p.emitAll cap more = .ok p' ∧ p'.Carries (bits ++ more) := by
  induction more generalizing p bits with
  | nil => exact ⟨p, rfl, by simpa using h⟩
  | cons bit more ih =>
    rw [List.append_cons] at hc ⊢
    obtain ⟨p', e, h'⟩ := h.emit bit (cap := cap) (by simp at hc; omega)
    obtain ⟨q, eq, hq⟩ := ih h' hc
    exact ⟨q, by simp only [Packer.emitAll, e, eq], hq⟩

theorem Packer.emitAll_append (cap : Len) (p : Packer) (xs ys : List Bool) :
    p.emitAll cap (xs ++ ys) = (p.emitAll cap xs).bind fun q => q.emitAll cap ys := by
  induction xs generalizing p with
  | nil => rfl
  | cons x xs ih =>
    simp only [List.cons_append, Packer.emitAll]
    cases p.emit cap x with
    | error r => rfl
    | ok q => exact ih q

/-- Where every input byte has a code, the loop over the bytes is the loop over the bits of the bitstream. -/
theorem packFrom_eq_emitAll (cap : Len) {t : CodeTable} {bs : List Byte} (h : ∀ b ∈ bs, t.clen.get b ≠ 0) (i : Nat) (p : Packer) :
    packFrom cap t i p bs = p.emitAll cap (bitstream t bs) := by
  induction bs generalizing i p with
  | nil => rfl
  | cons b bs ih =>
    obtain ⟨hb, hbs⟩ := List.forall_mem_cons.mp h
    rw [packFrom, if_neg hb, bitstream, List.flatMap_cons, Packer.emitAll_append]
    cases p.emitAll cap (codeWord t b) with
    | error r => rfl
    | ok q => exact ih hbs (i + 1) q

theorem Packer.Carries.flush {p : Packer} {bits : List Bool} (h : p.Carries bits) {cap : Len} (hc : (bits.length + 7) / 8 ≤ cap.toNat) :
    ∃ o, p.flush cap = .ok o ∧ o.len.toNat = (bits.length + 7) / 8 ∧ o.Packs bits := by
  obtain ⟨hw, hn, hp, ha⟩ := h
  by_cases h0 : p.n > 0
  · obtain ⟨o, ho, hlen, hpo⟩ := hp.append_byte ha (cap := cap) (by omega)
    exact ⟨o, by rw [Packer.flush, if_pos h0, ho], by omega, hpo⟩
  · exact ⟨p.out, by rw [Packer.flush, if_neg h0], by omega, hp⟩

/-! ### The whole payload -/

theorem length_bitstream (t : CodeTable) (bs : List Byte) : (bitstream t bs).length = bitCount t bs := by
  simp [bitstream, bitCount, List.length_flatMap]

theorem toNat_finalBitCount {n : Nat} {len : Len} {total : Nat} (hn : n = total % 8) (hlen : len.toNat = (total + 7) / 8) :
    (finalBitCount n len).toNat = if total = 0 then 0 else if total % 8 ≠ 0 then total % 8 else 8 := by
  subst hn
  have hz : len = 0#64 ↔ len.toNat = 0 := BitVec.toNat_eq
  by_cases h8 : total % 8 = 0
  · by_cases h0 : total = 0
    · have : len = 0#64 := hz.mpr (by omega)
      simp [finalBitCount, h0, this]
    · have : len ≠ 0#64 := fun e => by
        rw [hz] at e
        omega
      simp [finalBitCount, h0, h8, this]
  · have h0 : total ≠ 0 := fun e => h8 (by rw [e])
    have hmod : total % 8 < 16 := by omega
    simp [finalBitCount, h0, h8, Nat.pos_of_ne_zero, Nat.mod_eq_of_lt hmod]

/-- Where every input byte has a code and the payload fits, the payload is the packed bitstream (43_bit_packer.md R171, R175). -/
theorem packBytes_ok {cap : Len} {t : CodeTable} {bs : List Byte} (h : ∀ b ∈ bs, t.clen.get b ≠ 0)
    (hc : (bitCount t bs + 7) / 8 ≤ cap.toNat) :
    ∃ o fbc, packBytes cap t bs = .ok (o, fbc) ∧ o.len.toNat = (bitCount t bs + 7) / 8 ∧ o.Packs (bitstream t bs)
      ∧ fbc.toNat = if bitCount t bs = 0 then 0 else if bitCount t bs % 8 ≠ 0 then bitCount t bs % 8 else 8 := by
  rw [← length_bitstream] at hc ⊢
  obtain ⟨p, hp, hcarries⟩ := Packer.carries_start.emitAll (cap := cap) (bitstream t bs) (by rw [List.nil_append]; omega)
  rw [List.nil_append] at hcarries
  obtain ⟨o, ho, hlen, hpacks⟩ := hcarries.flush hc
  obtain ⟨-, hn, -⟩ := hcarries
  refine ⟨o, finalBitCount p.n o.len, ?_, hlen, hpacks, toNat_finalBitCount hn hlen⟩
  simp only [packBytes, packFrom_eq_emitAll cap h, hp, ho]

/-- Settles O38: the packer's loop over the bytes is a loop over the bits of the bitstream, and after each bit it holds the bits so far. -/
theorem packEmitsTheBitstream : Obligations.PackEmitsTheBitstream := by
  intro s bs g hbs hcodes hfits
  obtain ⟨o, fbc, ho, hlen, hpacks, hfbc⟩ := packBytes_ok (t := s.codeTable) hcodes hfits
  obtain ⟨hold, -⟩ := packBytes_good ho
  refine ⟨o.mem, o.len, fbc, ?_, hlen, hfbc, fun a ha => hold.read_above ha, hpacks⟩
  rw [exec_pack g, packStage_eq_done hbs ho]
  rfl

end Sys2Proof.Machine
end

section
/-! ## Proofs: the frequency counter, and which registers and tables each command writes -/

namespace Sys2Proof.Machine

/-! ### The loop of `COUNT` -/

theorem nodup_allBytes : allBytes.Nodup := by
  refine List.Nodup.map_on (fun x hx y hy e => ?_) List.nodup_range
  rw [List.mem_range] at hx hy
  simpa [Nat.mod_eq_of_lt hx, Nat.mod_eq_of_lt hy] using congrArg BitVec.toNat e

theorem countBytes_nil : countBytes [] = Vector.replicate 256 0 := rfl

theorem countBytes_concat (bs : List Byte) (b : Byte) :
    countBytes (bs ++ [b]) = (countBytes bs).put b ((countBytes bs).get b + 1) := by
  simp [countBytes]

/-- Each counter is the number of occurrences of its symbol, at the width of a counter. -/
theorem get_countBytes (bs : List Byte) (x : Byte) : (countBytes bs).get x = BitVec.ofNat 64 (bs.count x) := by
  induction bs using List.reverseRecOn with
  | nil => simp [countBytes_nil]
  | append_singleton bs b ih =>
    rw [countBytes_concat, ByteTable.get_put, List.count_append, List.count_singleton, ih]
    by_cases h : b = x
    · subst h
      simp [ih, BitVec.ofNat_add]
    · simp [h]

/-- No counter wraps where the input is no longer than `IN_LEN` can say (notes/assumptions/15.md). -/
theorem toNat_get_countBytes {bs : List Byte} (h : bs.length < 2 ^ 64) (x : Byte) : ((countBytes bs).get x).toNat = bs.count x := by
  rw [get_countBytes, BitVec.toNat_ofNat, Nat.mod_eq_of_lt (List.count_le_length.trans_lt h)]

theorem length_of_inBytes {s : State} {bs : List Byte} (h : s.inBytes = some bs) : bs.length = s.inLen.toNat :=
  Memory.length_of_readN h

theorem length_lt_of_inBytes {s : State} {bs : List Byte} (h : s.inBytes = some bs) : bs.length < 2 ^ 64 :=
  length_of_inBytes h ▸ s.inLen.isLt

theorem exec_count_eq {s : State} {bs : List Byte} (g : s.phase = .notStarted) (h : s.inBytes = some bs) :
    exec .count s =
      .next { s with freq := countBytes bs, mode := .enc, fv := true, phase := .processing, lastref := .none } := by
  rw [exec_count g, countStage_eq h]
  rfl

/-- Settles O24: each round of the loop adds one to the counter of its byte and leaves the others, so a counter is a number of occurrences. -/
theorem countTabulatesInput : Obligations.CountTabulatesInput := fun _ bs g h =>
  ⟨countBytes bs, exec_count_eq g h, toNat_get_countBytes (length_lt_of_inBytes h)⟩

/-! ### The sum of the counters, and the symbols present -/

theorem sum_count_allBytes (bs : List Byte) : (allBytes.map fun x => bs.count x).sum = bs.length := by
  rw [← List.sum_toFinset _ nodup_allBytes]
  have h := Multiset.sum_count_eq_card (s := allBytes.toFinset) (m := (bs : Multiset Byte)) fun x _ => List.mem_toFinset.mpr (mem_allBytes x)
  simpa only [Multiset.coe_count, Multiset.coe_card] using h

/-- The symbols with a count are exactly the bytes of the input. -/
theorem mem_presentSymbols_countBytes {bs : List Byte} (h : bs.length < 2 ^ 64) (x : Byte) :
    x ∈ presentSymbols (countBytes bs) ↔ x ∈ bs := by
  rw [mem_presentSymbols, ← List.count_pos_iff, ← toNat_get_countBytes h, Nat.pos_iff_ne_zero]
  exact not_congr BitVec.toNat_eq

theorem presentSymbols_countBytes_perm {bs : List Byte} (h : bs.length < 2 ^ 64) : (presentSymbols (countBytes bs)).Perm bs.dedup := by
  refine (List.perm_ext_iff_of_nodup (nodup_presentSymbols _) (List.nodup_dedup bs)).mpr fun x => ?_
  rw [mem_presentSymbols_countBytes h, List.mem_dedup]

/-- Settles O25: every input byte is counted at one symbol, and a counter is non-zero exactly where its symbol is in the input. -/
theorem countsSumToInputLength : Obligations.CountsSumToInputLength := by
  intro s t bs g h e
  have hlen := length_lt_of_inBytes h
  rw [exec_count_eq g h] at e
  cases e
  refine ⟨?_, (presentSymbols_countBytes_perm hlen).length_eq⟩
  simp only [toNat_get_countBytes hlen, sum_count_allBytes]
  exact length_of_inBytes h

/-! ### The registers and tables each command writes -/

/-- The state `s` with all that command `i` may write taken from `t` (the operands lines of 40 to 46); `CLEAR` may write all that is the engine's. -/
def takeOperands (i : Instr) (t s : State) : State :=
  match i with
  | .nop => { s with lastref := t.lastref }
  | .clear => { t with cfg := s.cfg, hostIn := s.hostIn, reply := s.reply }
  | .count => { s with freq := t.freq, fv := t.fv, mode := t.mode, phase := t.phase, lastref := t.lastref }
  | .build => { s with node := t.node, nleaf := t.nleaf, nnode := t.nnode, root := t.root, te := t.te, tv := t.tv, lastref := t.lastref }
  | .derive => { s with code := t.code, clen := t.clen, cv := t.cv, lastref := t.lastref }
  | .pack => { s with outBuf := t.outBuf, outLen := t.outLen, fbc := t.fbc, pv := t.pv, phase := t.phase, err := t.err,
                      finfo := t.finfo, lastref := t.lastref }
  | .hdrenc => { s with hdrBuf := t.hdrBuf, hdrLen := t.hdrLen, tsize := t.tsize, hv := t.hv, phase := t.phase, lastref := t.lastref }
  | .hdrdec => { s with freq := t.freq, fbc := t.fbc, tsize := t.tsize, payOff := t.payOff, mode := t.mode, fv := t.fv, hv := t.hv,
                        phase := t.phase, err := t.err, finfo := t.finfo, lastref := t.lastref }
  | .unpack => { s with node := t.node, nleaf := t.nleaf, nnode := t.nnode, root := t.root, te := t.te, tv := t.tv, code := t.code,
                        clen := t.clen, cv := t.cv, outBuf := t.outBuf, outLen := t.outLen, pv := t.pv, phase := t.phase, err := t.err,
                        finfo := t.finfo, lastref := t.lastref }
  | .compress => { t with inBuf := s.inBuf, inLen := s.inLen, payOff := s.payOff, busy := s.busy, cfg := s.cfg, hostIn := s.hostIn,
                          reply := s.reply }
  | .decompress => { t with inBuf := s.inBuf, inLen := s.inLen, hdrBuf := s.hdrBuf, hdrLen := s.hdrLen, busy := s.busy, cfg := s.cfg,
                            hostIn := s.hostIn, reply := s.reply }

@[simp] theorem takeOperands_self (i : Instr) (t : State) : takeOperands i t t = t := by
  cases i <;> rfl

theorem takeOperands_refuse (i : Instr) (t s : State) (r : RefReason) : takeOperands i t (s.refuse r) = takeOperands i t s := by
  cases i <;> rfl

theorem takeOperands_accept (i : Instr) (t s : State) : takeOperands i t s.accept = takeOperands i t s :=
  takeOperands_refuse i t s .none

/-- A command whose body can raise a fault has the registers of the fault entry among its operands. -/
theorem takeOperands_enterFault {i : Instr} {s u : State} {e : Raise} (h : bodyOf i s = .raised e u) (t : State) :
    takeOperands i t (u.enterFault e) = takeOperands i t u := by
  cases i with
  | nop | clear | build | hdrenc => exact Stage.noConfusion h
  | count => exact absurd h (countStage_not_raised s e u)
  | derive => exact absurd h (deriveStage_not_raised s e u)
  | pack | hdrdec | unpack | compress | decompress => rfl

/-- A part of the state that none of its five stages writes is as before `COMPRESS`. -/
theorem compressStage_keeps {α : Type} {f : State → α} (s : State)
    (hc : ∀ s x, f { s with freq := x, mode := .enc, fv := true, phase := .processing } = f s)
    (hb : ∀ s, f (buildState s) = f s) (hd : ∀ s x y, f { s with code := x, clen := y, cv := true } = f s)
    (hp : ∀ s x y z, f { s with outBuf := x, outLen := y, fbc := z, pv := true } = f s)
    (hh : ∀ s x y z, f { s with hdrBuf := x, hdrLen := y, tsize := z, hv := true, phase := .ready } = f s) :
    (compressStage s).Leads (Keeps f) s :=
  (countStage_keeps s (hc s)).andThen_keeps (fun v => Stage.leads_done (hb v))
    |>.andThen_keeps (fun v => deriveStage_keeps v (hd v))
    |>.andThen_keeps (fun v => packStage_keeps v (hp v))
    |>.andThen_keeps (fun v => Stage.leads_done (hh v _ _ _))

/-- The body of a command writes nothing but the command's operands. -/
theorem bodyOf_keeps_takeOperands (i : Instr) (t s : State) : (bodyOf i s).Leads (Keeps (takeOperands i t)) s := by
  cases i with
  | nop | clear | build | hdrenc => exact Stage.leads_done rfl
  | count => exact countStage_keeps s fun _ => rfl
  | derive => exact deriveStage_keeps s fun _ _ => rfl
  | pack => exact packStage_keeps s fun _ _ _ => rfl
  | hdrdec => exact hdrdecStage_keeps s rfl fun _ _ _ _ => rfl
  | unpack => exact unpackStage_keeps s rfl (fun _ _ _ => rfl) fun _ _ _ => rfl
  | compress =>
    exact compressStage_keeps s (fun _ _ => rfl) (fun _ => rfl) (fun _ _ _ => rfl) (fun _ _ _ _ => rfl) fun _ _ _ _ => rfl
  | decompress =>
    exact (hdrdecStage_keeps s rfl fun _ _ _ _ => rfl).andThen_keeps fun v =>
      unpackStage_keeps v rfl (fun _ _ _ => rfl) fun _ _ _ => rfl

/-- The frame of every command: the state it answers is the state before it but for the command's operands. -/
theorem exec_frame {i : Instr} {s t : State} (h : exec i s = .next t) : t = takeOperands i t s := by
  have hkeeps : takeOperands i t t = takeOperands i t s := by
    obtain ⟨-, ht⟩ | ⟨-, u, hu, ht⟩ | ⟨-, e, u, hu, ht⟩ := exec_next h
    · exact (congrArg _ ht).trans (takeOperands_refuse i t s .seq)
    · exact (congrArg _ ht).trans ((takeOperands_accept i t u).trans (bodyOf_keeps_takeOperands i t s u (.inl hu)))
    · exact (congrArg _ ht).trans ((takeOperands_enterFault hu t).trans (bodyOf_keeps_takeOperands i t s u (.inr ⟨e, hu⟩)))
  rwa [takeOperands_self] at hkeeps

/-- Settles O58: no stage of a command, and neither its acceptance nor a fault entry that can follow, writes outside the command's operands. -/
theorem commandsWriteOnlyTheirOperands : Obligations.CommandsWriteOnlyTheirOperands := by
  intro s t i h
  cases i
  case clear =>
    rw [exec_clear] at h
    exact (Host.Outcome.next.inj h).symm
  all_goals exact exec_frame h

end Sys2Proof.Machine
end

section
/-! ## Proofs: the priority queue, and the tree that the merge loop makes (41_tree_builder.md) -/

namespace Sys2Proof.Machine

/-! ### The order of the queue -/

theorem keyLess_iff (a b : Node) : keyLess a b = true ↔
    a.weight.toNat < b.weight.toNat ∨ (a.weight.toNat = b.weight.toNat ∧ a.minsym.toNat < b.minsym.toNat) := by
  simp [keyLess, BitVec.lt_def, BitVec.toNat_inj]

theorem keyLess_irrefl (a : Node) : ¬ keyLess a a = true := by
  rw [keyLess_iff]
  omega

theorem keyLess_asymm {a b : Node} (h : keyLess a b = true) : ¬ keyLess b a = true := by
  rw [keyLess_iff] at h ⊢
  omega

theorem not_keyLess_trans {a b c : Node} (hab : ¬ keyLess a b = true) (hbc : ¬ keyLess b c = true) : ¬ keyLess a c = true := by
  rw [keyLess_iff] at hab hbc ⊢
  omega

/-- Two nodes of different `minsym` never have the same key, so one of them comes first. -/
theorem keyLess_of_not_keyLess {a b : Node} (hne : a.minsym ≠ b.minsym) (h : ¬ keyLess b a = true) : keyLess a b = true := by
  rw [keyLess_iff] at h ⊢
  have := mt BitVec.eq_of_toNat_eq hne
  omega

/-! ### `PopMin` -/

/-- No member of the queue comes before the one that `PopMin` returns. -/
theorem popMin_least (m : Member) (xs : List Member) : ∀ y ∈ m :: xs, ¬ keyLess y.node (popMin m xs).1.node = true := by
  induction xs generalizing m with
  | nil =>
    intro y hy
    rw [List.mem_singleton.mp hy]
    exact keyLess_irrefl m.node
  | cons x xs ih =>
    simp only [popMin, List.forall_mem_cons]
    split
    next hx =>
      have hx' := not_keyLess_trans (keyLess_asymm hx) (ih x x List.mem_cons_self)
      exact ⟨hx', List.forall_mem_cons.mp (ih x)⟩
    next hx =>
      obtain ⟨hm, hxs⟩ := List.forall_mem_cons.mp (ih m)
      exact ⟨hm, not_keyLess_trans hx hm, hxs⟩

theorem popMin_fst_mem (m : Member) (xs : List Member) : (popMin m xs).1 ∈ m :: xs :=
  (popMin_perm m xs).mem_iff.mp List.mem_cons_self

/-- Settles O31: what `PopMin` returns and leaves are the members of the queue, none of which comes before the one returned. -/
theorem popMinTakesTheLeastKey : Obligations.PopMinTakesTheLeastKey := by
  intro m pq
  refine ⟨popMin_perm m pq, fun x hx => ?_⟩
  have hleast := popMin_least m pq x ((popMin_perm m pq).mem_iff.mp (List.mem_cons_of_mem _ hx))
  rwa [keyLess_iff, BitVec.toNat_inj] at hleast

/-- Settles O32: both arrangements return a member that no member comes before, and where every `minsym` differs there is only one. -/
theorem queueOrderPlaysNoPart : Obligations.QueueOrderPlaysNoPart := by
  intro m pq m' pq' hp hd
  have hmem : (popMin m' pq').1 ∈ m :: pq := hp.mem_iff.mpr (popMin_fst_mem m' pq')
  have hle := popMin_least m' pq' (popMin m pq).1 (hp.mem_iff.mp (popMin_fst_mem m pq))
  have hsym : (popMin m pq).1.node.minsym = (popMin m' pq').1.node.minsym := by
    by_contra hne
    exact popMin_least m pq _ hmem (keyLess_of_not_keyLess (Ne.symm hne) hle)
  have hfst : (popMin m pq).1 = (popMin m' pq').1 := List.inj_on_of_nodup_map hd (popMin_fst_mem m pq) hmem hsym
  exact ⟨hfst, ((popMin_perm m pq).trans (hp.trans (hfst ▸ (popMin_perm m' pq').symm))).cons_inv⟩

/-! ### The merge loop, member by member -/

/-- The queue member for the node that a round makes over `a` and `b`. -/
def joinedMember (nodes : List Node) (a b : Member) : Member :=
  ⟨BitVec.ofNat 9 nodes.length, combine a b⟩

/-- A round with the order of its two pops, which `mergeRound_cases` leaves out: the second member popped does not come before the first. -/
theorem mergeRound_pops (w : Merge) :
    mergeRound w = w
      ∨ ∃ a b rest, (a :: b :: rest).Perm w.queue ∧ ¬ keyLess b.node a.node = true
          ∧ mergeRound w = ⟨w.nodes ++ [combine a b], rest ++ [joinedMember w.nodes a b]⟩ := by
  unfold mergeRound
  split
  next m x xs hq =>
    have hp := popMin_perm m (x :: xs)
    simp only
    split
    next => exact .inl rfl
    next y ys hy =>
      rw [hy] at hp
      have hp2 : ((popMin m (x :: xs)).1 :: (popMin y ys).1 :: (popMin y ys).2).Perm (m :: x :: xs) :=
        ((popMin_perm y ys).cons _).trans hp
      exact .inr ⟨_, _, _, hq ▸ hp2, popMin_least m (x :: xs) _ (hp2.mem_iff.mp (by simp)), rfl⟩
  next => exact .inl rfl

/-- What holds of the leaves, does not depend on the order of the queue, and is kept where two members, the lesser key first, give way to the node
over them, holds of the tree. -/
theorem buildTree_rounds {P : List Node → List Member → Prop} {freq : ByteTable Count}
    (leaves : P (leafNodes freq) (leafMembers (leafNodes freq)))
    (perm : ∀ {nodes queue queue'}, queue.Perm queue' → P nodes queue → P nodes queue')
    (join : ∀ {nodes a b rest}, ¬ keyLess b.node a.node = true → P nodes (a :: b :: rest) →
      P (nodes ++ [combine a b]) (joinedMember nodes a b :: rest)) :
    P (buildTree freq).nodes (buildTree freq).queue := by
  refine buildTree_induction (P := fun w => P w.nodes w.queue) leaves fun w h => ?_
  obtain e | ⟨a, b, rest, hp, hab, e⟩ := mergeRound_pops w
  · rwa [e]
  · rw [e]
    exact perm (List.perm_append_singleton _ _).symm (join hab (perm hp.symm h))

/-! ### The leaves come first -/

theorem buildTree_leaves_first (freq : ByteTable Count) :
    ∃ made, (buildTree freq).nodes = leafNodes freq ++ made ∧ ∀ n ∈ made, n.kind = .internal ∧ n.sym = 0 := by
  refine buildTree_rounds (P := fun nodes _ => ∃ made, nodes = leafNodes freq ++ made ∧ ∀ n ∈ made, n.kind = .internal ∧ n.sym = 0)
    ⟨[], by simp⟩ (fun _ h => h) ?_
  rintro _ a b rest - ⟨made, rfl, h⟩
  refine ⟨made ++ [combine a b], List.append_assoc .., fun n hn => ?_⟩
  obtain hn | hn := List.mem_append.mp hn
  · exact h n hn
  · rw [List.mem_singleton.mp hn]
    exact ⟨rfl, rfl⟩

theorem exec_build_next {s t : State} (g : Accepted .build s) (e : exec .build s = .next t) : t = (buildState s).accept := by
  rw [exec_build g] at e
  exact (Host.Outcome.next.inj e).symm

/-- Settles O27: the leaf loop makes a leaf for each present symbol in ascending order, and a round only appends an internal node. -/
theorem buildNumbersLeavesFirst : Obligations.BuildNumbersLeavesFirst := by
  intro s t g e
  obtain rfl := exec_build_next g e
  obtain ⟨made, hnodes, hmade⟩ := buildTree_leaves_first s.freq
  have hlen := length_leafNodes s.freq
  simp only [State.accept_node, State.accept_nleaf, buildState_node, buildState_nleaf, hnodes]
  refine ⟨fun k x hx => ?_, fun k n hk hn => ?_⟩
  · have hleaf : (leafNodes s.freq)[k]? = some (leafNode s.freq x) := by
      rw [leafNodes, List.getElem?_map, presentSymbols, hx]
      rfl
    rw [List.getElem?_append_left (List.getElem?_eq_some_iff.mp hleaf).1, hleaf]
    rfl
  · have hn256 := length_presentSymbols_le s.freq
    rw [BitVec.toNat_ofNat, Nat.mod_eq_of_lt (by omega), ← hlen] at hk
    rw [List.getElem?_append_right hk] at hn
    exact hmade n (List.mem_of_getElem? hn)

/-! ### What the merge loop keeps -/

/-- The sum of the counts of a frequency table. -/
def countTotal (freq : ByteTable Count) : Nat :=
  (allBytes.map (fun x => (freq.get x).toNat)).sum

/-- The node `n` is the parent of the node at index `j`. -/
def isParentOf (j : Nat) (n : Node) : Bool :=
  n.kind = .internal && (n.left.toNat = j || n.right.toNat = j)

theorem isParentOf_iff (j : Nat) (n : Node) :
    isParentOf j n = true ↔ n.kind = .internal ∧ (n.left.toNat = j ∨ n.right.toNat = j) := by
  simp [isParentOf]

/-- The node `n` at index `i` joins two different earlier nodes, the lesser key to the left (41_tree_builder.md R134 (c)). -/
def Joins (nodes : List Node) (i : Nat) (n : Node) : Prop :=
  ∃ l r : Node, nodes[n.left.toNat]? = some l ∧ nodes[n.right.toNat]? = some r
    ∧ n.left.toNat < i ∧ n.right.toNat < i ∧ n.left ≠ n.right
    ∧ n.weight.toNat = l.weight.toNat + r.weight.toNat ∧ n.minsym.toNat = min l.minsym.toNat r.minsym.toNat
    ∧ (l.weight.toNat < r.weight.toNat ∨ (l.weight = r.weight ∧ l.minsym.toNat < r.minsym.toNat))

/-- The nodes made so far and the queue, in any order: the queue holds the nodes that have no parent yet, with pairwise different `minsym` and,
between them, all the counts. -/
def Merging (total : Nat) (nodes : List Node) (queue : List Member) : Prop :=
  nodes.length + queue.length ≤ 512
    ∧ (∀ m ∈ queue, nodes[m.index.toNat]? = some m.node)
    ∧ (queue.map (fun m => m.node.minsym)).Nodup
    ∧ (queue.map (fun m => m.node.weight.toNat)).sum = total
    ∧ (∀ i n, nodes[i]? = some n → n.kind = .internal → Joins nodes i n)
    ∧ ∀ j < nodes.length, nodes.countP (isParentOf j) + (queue.map (fun m => m.index.toNat)).count j = 1

section
variable {total : Nat} {nodes : List Node} {queue : List Member}

theorem Merging.room (h : Merging total nodes queue) : nodes.length + queue.length ≤ 512 :=
  let ⟨h, _⟩ := h; h

theorem Merging.held (h : Merging total nodes queue) : ∀ m ∈ queue, nodes[m.index.toNat]? = some m.node :=
  let ⟨_, h, _⟩ := h; h

theorem Merging.distinct (h : Merging total nodes queue) : (queue.map (fun m => m.node.minsym)).Nodup :=
  let ⟨_, _, h, _⟩ := h; h

theorem Merging.weights (h : Merging total nodes queue) : (queue.map (fun m => m.node.weight.toNat)).sum = total :=
  let ⟨_, _, _, h, _⟩ := h; h

theorem Merging.joins (h : Merging total nodes queue) : ∀ i n, nodes[i]? = some n → n.kind = .internal → Joins nodes i n :=
  let ⟨_, _, _, _, h, _⟩ := h; h

theorem Merging.parents (h : Merging total nodes queue) :
    ∀ j < nodes.length, nodes.countP (isParentOf j) + (queue.map (fun m => m.index.toNat)).count j = 1 :=
  let ⟨_, _, _, _, _, h⟩ := h; h

end

theorem Merging.perm {total : Nat} {nodes : List Node} {queue queue' : List Member} (hp : queue.Perm queue')
    (h : Merging total nodes queue) : Merging total nodes queue' := by
  obtain ⟨room, held, distinct, weights, joins, parents⟩ := h
  exact ⟨hp.length_eq ▸ room, fun m hm => held m (hp.mem_iff.mpr hm), (hp.map _).nodup_iff.mp distinct,
    (hp.map fun m => m.node.weight.toNat).sum_eq.symm.trans weights, joins, fun j hj => (hp.map _).count_eq j ▸ parents j hj⟩

/-! ### It holds of the leaves -/

theorem leafMembers_map_node {α : Type} (f : Node → α) (leaves : List Node) : (leafMembers leaves).map (fun m => f m.node) = leaves.map f := by
  calc (leafMembers leaves).map (fun m => f m.node)
      = (leaves.zipIdx.map Prod.fst).map f := by simp only [leafMembers, List.map_map, Function.comp_def]
    _ = leaves.map f := by rw [List.zipIdx_map_fst]

theorem leafMembers_map_index {leaves : List Node} (h : leaves.length ≤ 512) :
    (leafMembers leaves).map (fun m => m.index.toNat) = List.range leaves.length := by
  refine List.ext_getElem (by simp [leafMembers]) fun i hi _ => ?_
  have hlt : i < leaves.length := by simpa [leafMembers] using hi
  have hm : i % 512 = i := by omega
  simp [leafMembers, hm]

theorem leafMembers_held {leaves : List Node} (h : leaves.length ≤ 512) {m : Member} (hm : m ∈ leafMembers leaves) :
    leaves[m.index.toNat]? = some m.node := by
  obtain ⟨⟨n, i⟩, hni, rfl⟩ := List.mem_map.mp hm
  have hn : leaves[i]? = some n := List.mem_zipIdx_iff_getElem?.mp hni
  have hlt := (List.getElem?_eq_some_iff.mp hn).1
  simpa [Nat.mod_eq_of_lt (show i < 512 by omega)] using hn

theorem leafNodes_not_internal {freq : ByteTable Count} {n : Node} (h : n ∈ leafNodes freq) : n.kind ≠ .internal := by
  obtain ⟨x, -, rfl⟩ := List.mem_map.mp h
  exact NodeKind.noConfusion

theorem leafNodes_map_minsym (freq : ByteTable Count) : (leafNodes freq).map Node.minsym = presentSymbols freq := by
  simp [leafNodes, leafNode, Function.comp_def]

/-- An absent symbol adds nothing to the sum of the counts. -/
theorem leafNodes_weights (freq : ByteTable Count) : ((leafNodes freq).map (fun n => n.weight.toNat)).sum = countTotal freq := by
  have hw (x : Byte) : (leafNode freq x).weight.toNat = (freq.get x).toNat := BitVec.toNat_setWidth_of_le (by decide)
  simp only [leafNodes, List.map_map, Function.comp_def, hw, presentSymbols, countTotal]
  induction allBytes with
  | nil => rfl
  | cons x xs ih =>
    by_cases hx : freq.get x = 0
    · rw [List.filter_cons_of_neg (by simpa using hx), ih]
      simp [hx]
    · rw [List.filter_cons_of_pos (by simpa using hx), List.map_cons, List.sum_cons, ih, List.map_cons, List.sum_cons]

theorem merging_leaves (freq : ByteTable Count) : Merging (countTotal freq) (leafNodes freq) (leafMembers (leafNodes freq)) := by
  have hn := length_presentSymbols_le freq
  have hlen := length_leafNodes freq
  refine ⟨?_, fun m hm => leafMembers_held (by omega) hm, ?_, ?_, fun i n hn hk => ?_, fun j hj => ?_⟩
  · rw [length_leafMembers]
    omega
  · rw [leafMembers_map_node Node.minsym, leafNodes_map_minsym]
    exact nodup_presentSymbols freq
  · rw [leafMembers_map_node fun n => n.weight.toNat, leafNodes_weights]
  · exact absurd hk (leafNodes_not_internal (List.mem_of_getElem? hn))
  · have h0 : (leafNodes freq).countP (isParentOf j) = 0 :=
      List.countP_eq_zero.mpr fun n hn hp => leafNodes_not_internal hn ((isParentOf_iff j n).mp hp).1
    rw [h0, leafMembers_map_index (by omega), List.count_eq_one_of_mem List.nodup_range (List.mem_range.mpr hj)]

/-! ### A round keeps it -/

theorem Joins.append {nodes : List Node} {i : Nat} {n : Node} (h : Joins nodes i n) (more : List Node) : Joins (nodes ++ more) i n := by
  obtain ⟨l, r, hl, hr, rest⟩ := h
  refine ⟨l, r, ?_, ?_, rest⟩
  · rw [List.getElem?_append_left (List.getElem?_eq_some_iff.mp hl).1, hl]
  · rw [List.getElem?_append_left (List.getElem?_eq_some_iff.mp hr).1, hr]

theorem combine_minsym_toNat (a b : Member) : (combine a b).minsym.toNat = min a.node.minsym.toNat b.node.minsym.toNat := by
  simp only [combine, BitVec.lt_def]
  split <;> omega

theorem combine_minsym_eq (a b : Member) : (combine a b).minsym = a.node.minsym ∨ (combine a b).minsym = b.node.minsym := by
  simp only [combine]
  split
  · exact .inl rfl
  · exact .inr rfl

theorem isParentOf_combine (j : Nat) (a b : Member) : isParentOf j (combine a b) = true ↔ a.index.toNat = j ∨ b.index.toNat = j := by
  simp [isParentOf_iff, combine]

section
variable {total : Nat} {nodes : List Node} {a b : Member} {rest : List Member}

theorem joinedMember_index (h : Merging total nodes (a :: b :: rest)) : (joinedMember nodes a b).index.toNat = nodes.length := by
  have hroom := h.room
  simp only [List.length_cons] at hroom
  rw [joinedMember, BitVec.toNat_ofNat]
  omega

theorem Merging.index_lt {queue : List Member} (h : Merging total nodes queue) {m : Member} (hm : m ∈ queue) :
    m.index.toNat < nodes.length :=
  (List.getElem?_eq_some_iff.mp (h.held m hm)).1

/-- Two members of the same index would hold the same node, and so have the same `minsym`. -/
theorem Merging.index_ne (h : Merging total nodes (a :: b :: rest)) : a.index ≠ b.index := by
  intro e
  have ha := h.held a (by simp)
  rw [e, h.held b (by simp)] at ha
  have hd := h.distinct
  simp [Option.some.inj ha] at hd

/-- No sum of weights within the sum of all counts leaves its width (41_tree_builder.md R137). -/
theorem Merging.combine_weight (ht : total < 2 ^ 72) (h : Merging total nodes (a :: b :: rest)) :
    (combine a b).weight.toNat = a.node.weight.toNat + b.node.weight.toNat := by
  have hw := h.weights
  simp only [List.map_cons, List.sum_cons] at hw
  exact BitVec.toNat_add_of_lt (by omega)

theorem Merging.combine_joins (ht : total < 2 ^ 72) (hab : ¬ keyLess b.node a.node = true) (h : Merging total nodes (a :: b :: rest)) :
    Joins nodes nodes.length (combine a b) := by
  have hd := h.distinct
  simp only [List.map_cons, List.nodup_cons, List.mem_cons, not_or] at hd
  obtain ⟨⟨hne, -⟩, -⟩ := hd
  have hless := keyLess_of_not_keyLess hne hab
  rw [keyLess_iff, BitVec.toNat_inj] at hless
  exact ⟨a.node, b.node, h.held a (by simp), h.held b (by simp), h.index_lt (by simp), h.index_lt (by simp), h.index_ne,
    h.combine_weight ht, combine_minsym_toNat a b, hless⟩

theorem Merging.join_joins (ht : total < 2 ^ 72) (hab : ¬ keyLess b.node a.node = true) (h : Merging total nodes (a :: b :: rest))
    {i : Nat} {n : Node} (hn : (nodes ++ [combine a b])[i]? = some n) (hk : n.kind = .internal) : Joins (nodes ++ [combine a b]) i n := by
  by_cases hi : i < nodes.length
  · rw [List.getElem?_append_left hi] at hn
    exact (h.joins i n hn hk).append _
  · obtain ⟨rfl, rfl⟩ : i = nodes.length ∧ n = combine a b := by
      rw [List.getElem?_append_right (by omega), List.getElem?_singleton] at hn
      split at hn
      · exact ⟨by omega, (Option.some.inj hn).symm⟩
      · cases hn
    exact (h.combine_joins ht hab).append _

theorem Merging.join_distinct (h : Merging total nodes (a :: b :: rest)) :
    ((joinedMember nodes a b :: rest).map (fun m => m.node.minsym)).Nodup := by
  have hd := h.distinct
  simp only [List.map_cons, List.nodup_cons, List.mem_cons, not_or] at hd ⊢
  obtain ⟨⟨-, ha⟩, hb, hrest⟩ := hd
  refine ⟨?_, hrest⟩
  obtain e | e := combine_minsym_eq a b
  · exact e ▸ ha
  · exact e ▸ hb

/-- The new node has no parent, `a` and `b` have got theirs, and for every other node nothing changes. -/
theorem Merging.join_parents (h : Merging total nodes (a :: b :: rest)) {j : Nat} (hj : j < (nodes ++ [combine a b]).length) :
    (nodes ++ [combine a b]).countP (isParentOf j) + ((joinedMember nodes a b :: rest).map (fun m => m.index.toNat)).count j = 1 := by
  have ha := h.index_lt (m := a) (by simp)
  have hb := h.index_lt (m := b) (by simp)
  have hab := mt BitVec.eq_of_toNat_eq h.index_ne
  simp only [List.map_cons, List.count_cons, List.countP_append, List.countP_singleton, isParentOf_combine, joinedMember_index h, beq_iff_eq]
  obtain hlt | rfl : j < nodes.length ∨ j = nodes.length := by
    rw [List.length_append, List.length_singleton] at hj
    omega
  · have hpar := h.parents j hlt
    simp only [List.map_cons, List.count_cons, beq_iff_eq] at hpar
    split_ifs at hpar ⊢ <;> omega
  · have h0 : nodes.countP (isParentOf nodes.length) = 0 := by
      refine List.countP_eq_zero.mpr fun n hn hp => ?_
      obtain ⟨i, hi⟩ := List.mem_iff_getElem?.mp hn
      have hlen := (List.getElem?_eq_some_iff.mp hi).1
      obtain ⟨hk, hc⟩ := (isParentOf_iff _ n).mp hp
      obtain ⟨l, r, -, -, hl, hr, -⟩ := h.joins i n hi hk
      omega
    have hrest : (rest.map (fun m => m.index.toNat)).count nodes.length = 0 := by
      refine List.count_eq_zero.mpr fun hm => ?_
      obtain ⟨m, hm, e⟩ := List.mem_map.mp hm
      have := h.index_lt (m := m) (by simp [hm])
      omega
    rw [h0, hrest, if_neg (by omega), if_pos rfl]

theorem Merging.join_room (h : Merging total nodes (a :: b :: rest)) :
    (nodes ++ [combine a b]).length + (joinedMember nodes a b :: rest).length ≤ 512 := by
  have hroom := h.room
  simp only [List.length_cons, List.length_append, List.length_nil] at hroom ⊢
  omega

theorem Merging.join_held (h : Merging total nodes (a :: b :: rest)) {m : Member} (hm : m ∈ joinedMember nodes a b :: rest) :
    (nodes ++ [combine a b])[m.index.toNat]? = some m.node := by
  obtain rfl | hm := List.mem_cons.mp hm
  · rw [joinedMember_index h, List.getElem?_concat_length]
    rfl
  · have hm' : m ∈ a :: b :: rest := by simp [hm]
    rw [List.getElem?_append_left (h.index_lt hm'), h.held m hm']

theorem Merging.join_weights (ht : total < 2 ^ 72) (h : Merging total nodes (a :: b :: rest)) :
    ((joinedMember nodes a b :: rest).map (fun m => m.node.weight.toNat)).sum = total := by
  have hw := h.weights
  have hc := h.combine_weight ht
  simp only [List.map_cons, List.sum_cons, joinedMember] at hw ⊢
  omega

/-- A round keeps it all, as long as no weight leaves its width. -/
theorem Merging.join (ht : total < 2 ^ 72) (hab : ¬ keyLess b.node a.node = true) (h : Merging total nodes (a :: b :: rest)) :
    Merging total (nodes ++ [combine a b]) (joinedMember nodes a b :: rest) :=
  ⟨h.join_room, fun _ hm => h.join_held hm, h.join_distinct, h.join_weights ht, fun _ _ hn hk => h.join_joins ht hab hn hk,
    fun _ hj => h.join_parents hj⟩

end

/-- 256 counts of 64 bits add up to less than a weight can say (41_tree_builder.md R137). -/
theorem countTotal_lt (freq : ByteTable Count) : countTotal freq < 2 ^ 72 := by
  have h := List.sum_le_card_nsmul (allBytes.map (fun x => (freq.get x).toNat)) (2 ^ 64 - 1) fun c hc => by
    obtain ⟨x, -, rfl⟩ := List.mem_map.mp hc
    have := (freq.get x).isLt
    omega
  rw [List.length_map, length_allBytes, smul_eq_mul] at h
  exact h.trans_lt (by decide)

theorem buildTree_merging (freq : ByteTable Count) : Merging (countTotal freq) (buildTree freq).nodes (buildTree freq).queue :=
  buildTree_rounds (merging_leaves freq) Merging.perm fun hab h => h.join (countTotal_lt freq) hab

/-! ### What the tree is -/

/-- Settles O28: every node that a round makes joins the two members popped, and later rounds only append. -/
theorem internalNodesJoinTwoEarlierNodes : Obligations.InternalNodesJoinTwoEarlierNodes := by
  intro s t i n g e hn hk
  obtain rfl := exec_build_next g e
  exact (buildTree_merging s.freq).joins i n hn hk

theorem countTotal_countBytes {bs : List Byte} (h : bs.length < 2 ^ 64) : countTotal (countBytes bs) = bs.length := by
  simp only [countTotal, toNat_get_countBytes h, sum_count_allBytes]

/-- In encode mode the counts of a valid table add up to `IN_LEN` (40_frequency_counter.md R121). -/
theorem State.Inv.countTotal_eq_inLen {s : State} (h : s.Inv) (hm : s.mode = .enc) (hf : s.fv = true) : countTotal s.freq = s.inLen.toNat := by
  obtain ⟨bs, hbs⟩ := h.inBytes
  rw [h.session.encFreq hm hf, State.input_eq hbs, countTotal_countBytes (length_lt_of_inBytes hbs), length_of_inBytes hbs]

/-- Settles O30: the queue's weights add up to all the counts throughout, and the root is the one member left. -/
theorem rootWeighsAllCounts : Obligations.RootWeighsAllCounts := by
  intro s t n g e hte hn
  obtain rfl := exec_build_next g e
  obtain ⟨m, hm⟩ := buildTree_queue (freq := s.freq) (by simpa using hte)
  have hmerging := buildTree_merging s.freq
  rw [hm] at hmerging
  have hweight : m.node.weight.toNat = countTotal s.freq := by simpa using hmerging.weights
  have hroot : (buildTree s.freq).nodes[m.index.toNat]? = some n := by simpa [hm, rootOf] using hn
  rw [hmerging.held m (by simp)] at hroot
  cases hroot
  obtain ⟨-, hfv, -⟩ := g
  exact ⟨hweight, fun h henc => hweight.trans (h.countTotal_eq_inLen henc hfv)⟩

/-- Counting the indices at which a list has an element with `p` counts those elements. -/
theorem countP_range_getElem? {α : Type} (p : α → Bool) (l : List α) :
    (List.range l.length).countP (fun i => l[i]?.any p) = l.countP p := by
  have hmap : (List.range l.length).map (l[·]?) = l.map some :=
    List.ext_getElem (by simp) fun i hi _ => by simp
  calc (List.range l.length).countP (fun i => l[i]?.any p)
      = ((List.range l.length).map (l[·]?)).countP (Option.any p) := by rw [List.countP_map]; rfl
    _ = l.countP p := by rw [hmap, List.countP_map]; rfl

/-- Settles O29: throughout, a node has one parent or is in the queue, never both; at the end the queue is the root alone. -/
theorem everyNodeButTheRootHasOneParent : Obligations.EveryNodeButTheRootHasOneParent := by
  intro s t j g e hj
  obtain rfl := exec_build_next g e
  have hne : presentSymbols s.freq ≠ [] := by
    intro h
    simp [buildTree_of_empty h] at hj
  obtain ⟨m, hm⟩ := buildTree_queue hne
  have hpar := (buildTree_merging s.freq).parents j hj
  have hroot : (buildState s).accept.root.toNat = m.index.toNat := by simp [hm, rootOf]
  rw [← List.countP_eq_length_filter, hroot]
  refine (countP_range_getElem? (isParentOf j) (buildTree s.freq).nodes).trans ?_
  simp only [hm, List.map_singleton, List.count_singleton, beq_iff_eq] at hpar
  split_ifs at hpar ⊢ <;> omega

end Sys2Proof.Machine
end

section
/-! ## Proofs: the code table that `DERIVE` makes, and the lookup `DecodeStep` (42_code_table.md) -/

namespace Sys2Proof.Machine

/-! ### The word of a leaf is the path to it -/

/-- The code word of the leaf that these branches lead to: the branches themselves, a 0 for the leaf that is the root (42_code_table.md R151,
R152). -/
def leafWord (path : List Bool) : List Bool :=
  if path = [] then [false] else path

@[simp] theorem leafWord_nil : leafWord [] = [false] := rfl

theorem leafWord_of_ne_nil {path : List Bool} (h : path ≠ []) : leafWord path = path := if_neg h

/-- A leaf recorded at `depth` has the word of the branches accumulated on the way. -/
theorem CodeTable.codeWord_record (t : CodeTable) (x : Byte) (code : Code) {depth : Nat} (hd : depth ≤ 255) :
    codeWord (t.record x code depth) x = leafWord (lowBits code depth) := by
  by_cases h0 : depth = 0
  · subst h0
    simp [CodeTable.record_zero, codeWord_eq, lowBits_eq]
  · have hl : (BitVec.ofNat 8 depth).toNat = depth := by
      rw [BitVec.toNat_ofNat]
      omega
    have hne : lowBits code depth ≠ [] := List.ne_nil_of_length_pos (by rw [length_lowBits]; omega)
    rw [CodeTable.record_pos _ _ _ h0, leafWord_of_ne_nil hne, codeWord_eq]
    simp only [ByteTable.get_put_same, hl]

/-- After the walk of a subtree, the word of each of its leaves is the path to the subtree followed by the path from there to the leaf. -/
theorem walk_path {nodes : List Node} {h i : Nat} {xs : List Byte} (b : LeavesBelow nodes h i xs) {fuel : Nat} (hf : h ≤ fuel)
    {code : Code} {depth : Nat} (hd : depth + h ≤ 256) (hc : ∀ k, depth ≤ k → code.getLsbD k = false)
    {t t' : CodeTable} (w : walk nodes fuel i code depth t = some t') {x : Byte} (hx : x ∈ xs) :
    ∃ p, PathTo nodes i p x ∧ p.length < h ∧ codeWord t' x = leafWord (lowBits code depth ++ p) := by
  induction h generalizing i xs fuel code depth t t' with
  | zero => exact b.elim
  | succ h ih =>
    obtain ⟨fuel, rfl⟩ : ∃ f, fuel = f + 1 := ⟨fuel - 1, by omega⟩
    obtain ⟨n, hn, ⟨hk, rfl⟩ | ⟨hk, l, r, rfl, bl, br⟩⟩ := b
    · obtain rfl : t.record n.sym code depth = t' := by simpa [walk, hn, hk] using w
      obtain rfl := List.mem_singleton.mp hx
      exact ⟨[], .leaf hn hk, Nat.succ_pos h, by rw [t.codeWord_record n.sym code (by omega), List.append_nil]⟩
    · have hh : 0 < h := Nat.pos_of_ne_zero fun e => by
        subst e
        exact bl
      have hcl : ∀ k, depth + 1 ≤ k → code.getLsbD k = false := fun k hk => hc k (by omega)
      have hcr := fun k => code_right_above (code := code) (depth := depth) hc (k := k)
      obtain ⟨t1, w1, -, -⟩ := walk_codes bl (fuel := fuel) (by omega) (depth := depth + 1) (by omega) hcl t
      obtain ⟨t2, w2, -, out2⟩ := walk_codes br (fuel := fuel) (by omega) (depth := depth + 1) (by omega) hcr t1
      obtain rfl : t2 = t' := by simpa [walk, hn, hk, w1, w2] using w
      by_cases hr : x ∈ r
      · obtain ⟨p, hp, hlen, hword⟩ := ih br (by omega) (by omega) hcr w2 hr
        rw [lowBits_right (by omega), List.append_assoc] at hword
        exact ⟨true :: p, .right hn hk hp, Nat.succ_lt_succ hlen, hword⟩
      · obtain ⟨p, hp, hlen, hword⟩ := ih bl (by omega) (by omega) hcl w1 ((List.mem_append.mp hx).resolve_right hr)
        rw [lowBits_left hc, List.append_assoc] at hword
        exact ⟨false :: p, .left hn hk hp, Nat.succ_lt_succ hlen, (out2 x hr).codeWord.trans hword⟩

/-- A present symbol is reached from the root by fewer branches than there are leaves, and its word is that path (42_code_table.md R151). -/
theorem codesOf_path {freq : ByteTable Count} {tab : CodeTable} (h : codesOf freq = some tab) {x : Byte} (hx : freq.get x ≠ 0) :
    ∃ p, PathTo (buildTree freq).nodes (rootOf 0 (buildTree freq).queue).toNat p x ∧ p.length < (presentSymbols freq).length
      ∧ codeWord tab x = leafWord p := by
  rw [← mem_presentSymbols] at hx
  have hne := List.ne_nil_of_mem hx
  have hpos := List.length_pos_iff.mpr hne
  have hcount := length_presentSymbols_le freq
  have hlen := buildTree_nodes_length hne
  obtain ⟨xs, hperm, b⟩ := buildTree_leavesBelow hne 0
  rw [codesOf, deriveCodes, if_neg (by simpa using hne)] at h
  exact walk_path b (by omega) (by omega) (by simp) h (hperm.mem_iff.mpr hx)

/-! ### What `DERIVE` leaves -/

/-- A session's `DERIVE` completes with the code table of `FREQ` (42_code_table.md R150). -/
theorem exec_derive_eq {s : State} (h : s.Inv) (g : Accepted .derive s) {tab : CodeTable} (ht : codesOf s.freq = some tab) :
    exec .derive s = .next { s with code := tab.code, clen := tab.clen, cv := true, lastref := .none } := by
  have ⟨_, htv, _⟩ := g
  rw [exec_derive g, deriveStage_eq ((deriveCodes_eq_codesOf h htv).trans ht)]
  rfl

/-- The tree a present symbol is in has the root that the invariant names. -/
theorem State.Inv.root_eq {s : State} (h : s.Inv) (htv : s.tv = true) {x : Byte} (hx : s.freq.get x ≠ 0) :
    s.root = rootOf 0 (buildTree s.freq).queue := by
  obtain ⟨-, -, -, hte, hroot⟩ := h.session.tree htv
  have hne := List.ne_nil_of_mem ((mem_presentSymbols s.freq x).mpr hx)
  exact hroot (by simpa [hte] using hne)

/-- Settles O33: the walk records at each leaf the branches it took, and the register of a word has no bit beyond the word. -/
theorem deriveRecordsPaths : Obligations.DeriveRecordsPaths := by
  intro s h g
  obtain ⟨tab, htab, hcoded, habsent⟩ := codesOf_codes s.freq
  refine ⟨tab.code, tab.clen, exec_derive_eq h g htab, habsent, fun x hx => ?_⟩
  obtain ⟨-, htv, -⟩ := g
  obtain ⟨hnode, -⟩ := h.session.tree htv
  obtain ⟨p, hpath, hlen, hword⟩ := codesOf_path htab hx
  have hcount := length_presentSymbols_le s.freq
  rw [← hnode, ← h.root_eq htv hx] at hpath
  refine ⟨p, hpath, by omega, fun hp => ?_⟩
  rw [leafWord_of_ne_nil hp] at hword
  have hbits := (hcoded x hx).accumulates
  rw [hword] at hbits
  exact ⟨by rw [← length_codeWord, hword], fun i => (BitVec.testBit_toNat _).symm.trans (hbits i)⟩

/-- `NLEAF` of a valid tree is the number of present symbols, which its register can hold (10_state.md R28). -/
theorem State.Inv.toNat_nleaf {s : State} (h : s.Inv) (htv : s.tv = true) : s.nleaf.toNat = (presentSymbols s.freq).length := by
  obtain ⟨-, -, hleaf, -⟩ := h.session.tree htv
  have hcount := length_presentSymbols_le s.freq
  rw [hleaf, BitVec.toNat_ofNat]
  omega

/-- Settles O34: with one leaf the path to it has no branch, so its word is the single bit 0. -/
theorem singleLeafGetsOneBitCode : Obligations.SingleLeafGetsOneBitCode := by
  intro s t h g hone e
  have ⟨_, htv, _⟩ := g
  rw [h.toNat_nleaf htv] at hone
  obtain ⟨x, hx⟩ := List.length_eq_one_iff.mp hone
  have hpresent (y : Byte) : s.freq.get y ≠ 0 ↔ y = x := by rw [← mem_presentSymbols, hx, List.mem_singleton]
  obtain ⟨tab, htab, hcoded, habsent⟩ := codesOf_codes s.freq
  rw [exec_derive_eq h g htab] at e
  cases e
  have hxp := (hpresent x).mpr rfl
  obtain ⟨p, -, hlen, hword⟩ := codesOf_path htab hxp
  obtain rfl : p = [] := List.length_eq_zero_iff.mp (by omega)
  rw [leafWord_nil] at hword
  have hbits := (hcoded x hxp).accumulates
  rw [hword] at hbits
  refine ⟨x, hxp, BitVec.eq_of_toNat_eq (hbits.inj (accumulates_nil.append false)), BitVec.eq_of_toNat_eq ?_, fun y hy => ?_⟩
  · show (tab.clen.get x).toNat = 1
    rw [← length_codeWord, hword, List.length_singleton]
  · exact habsent y (not_not.mp (mt (hpresent y).mp hy))

/-! ### The code table as a set of words -/

theorem take_lowBits {w : Nat} (v : BitVec w) {m n : Nat} (h : m ≤ n) : (lowBits v n).take m = lowBits v m := by
  rw [lowBits_eq, ← List.map_take, List.take_range, Nat.min_eq_left h, ← lowBits_eq]

/-- The word of `x` begins the word of `y` when the low bits of the code of `y` are the code of `x`. -/
theorem codeWord_prefix {t : CodeTable} {x y : Byte} (hlen : (t.clen.get x).toNat ≤ (t.clen.get y).toNat)
    (hcode : (t.code.get y).toNat % 2 ^ (t.clen.get x).toNat = (t.code.get x).toNat) : codeWord t x <+: codeWord t y := by
  have hlow : codeWord t x = lowBits (t.code.get y) (t.clen.get x).toNat := lowBits_congr fun k hk => by
    rw [← BitVec.testBit_toNat, ← BitVec.testBit_toNat, ← hcode, Nat.testBit_mod_two_pow, decide_eq_true hk, Bool.true_and]
  rw [hlow, ← take_lowBits _ hlen]
  exact List.take_prefix _ _

/-- Settles O36: a code that began another would be a word that begins another. -/
theorem codesArePrefixFree : Obligations.CodesArePrefixFree := by
  intro s h hv x y hxy hx hy ⟨hlen, hcode⟩
  exact codesOf_prefixFree (h.session.codes hv) hx hy hxy (codeWord_prefix (t := s.codeTable) hlen hcode)

theorem entry_of_decodeStep {t : CodeTable} {len code : Nat} {x : Byte} (h : decodeStep t len code = some x) :
    (t.clen.get x).toNat = len ∧ (t.code.get x).toNat = code := by
  have hx := List.find?_some h
  simp only [Bool.and_eq_true, decide_eq_true_eq] at hx
  obtain ⟨⟨hlen, -⟩, hcode⟩ := hx
  exact ⟨hlen, hcode⟩

/-- Settles O37: the lookup finds only an exact entry; an entry of some length is a present symbol's, and its word finds that symbol alone. -/
theorem decodeStepMatchesExactEntry : Obligations.DecodeStepMatchesExactEntry := by
  intro s h hv len code x hpos
  have htab := h.session.codes hv
  refine ⟨entry_of_decodeStep, ?_⟩
  rintro ⟨rfl, rfl⟩
  have hx : s.freq.get x ≠ 0 := present_of_codesOf htab fun e => by
    have e : s.clen.get x = 0 := e
    simp [e] at hpos
  have hfound := decodeStep_word htab hx (coded_of_codesOf htab hx).accumulates
  rwa [length_codeWord] at hfound

end Sys2Proof.Machine
end

section
/-! ## Proofs: the payload that does not fit, and the fault that no session raises (43_bit_packer.md) -/

namespace Sys2Proof.Machine

/-! ### Where the packer finds `OUT` full -/

/-- `Append` to a buffer of `OUT_CAP` bytes raises `E_CAP` (20_memory.md R64). -/
theorem OutBuffer.append_full {cap : Len} {o : OutBuffer} (h : o.len.toNat = cap.toNat) (b : Byte) :
    o.append cap b = .error ⟨.cap, cap⟩ := by
  have hlen : o.len = cap := BitVec.eq_of_toNat_eq h
  exact OutBuffer.append_error.mpr ⟨hlen, by rw [hlen]⟩

/-- The bit that completes a byte more than there is room for. -/
theorem Packer.Carries.emit_full {p : Packer} {bits : List Bool} (h : p.Carries bits) {cap : Len}
    (hl : bits.length = 8 * cap.toNat + 7) (bit : Bool) : p.emit cap bit = .error ⟨.cap, cap⟩ := by
  obtain ⟨hw, hn, -⟩ := h
  have hfull : p.n + 1 = 8 := by omega
  simp [Packer.emit, hfull, OutBuffer.append_full (cap := cap) (o := p.out) (by omega)]

/-- A partial last byte for which there is no room. -/
theorem Packer.Carries.flush_full {p : Packer} {bits : List Bool} (h : p.Carries bits) {cap : Len}
    (hl : bits.length / 8 = cap.toNat) (hr : bits.length % 8 ≠ 0) : p.flush cap = .error ⟨.cap, cap⟩ := by
  obtain ⟨hw, hn, -⟩ := h
  rw [Packer.flush, if_pos (by omega), OutBuffer.append_full (by omega)]

/-- The loop over more bits than `OUT` has room for stops at the bit that completes byte `OUT_CAP`. -/
theorem Packer.emitAll_full {cap : Len} {bits : List Bool} (h : 8 * cap.toNat + 7 < bits.length) :
    Packer.emitAll cap ⟨OutBuffer.empty, 0, 0⟩ bits = .error ⟨.cap, cap⟩ := by
  have hl : (bits.take (8 * cap.toNat + 7)).length = 8 * cap.toNat + 7 := List.length_take_of_le h.le
  obtain ⟨p, hp, hcarries⟩ := Packer.carries_start.emitAll (cap := cap) (bits.take (8 * cap.toNat + 7)) (by
    rw [List.nil_append, hl]
    omega)
  rw [← List.take_append_drop (8 * cap.toNat + 7) bits, Packer.emitAll_append, hp, List.drop_eq_getElem_cons h]
  simp only [Except.bind, Packer.emitAll, hcarries.emit_full hl]

/-- A payload that does not fit raises `E_CAP` with `OUT_CAP`: in the loop where it has a whole byte too many, else at the partial last byte. -/
theorem packBytes_full {cap : Len} {t : CodeTable} {bs : List Byte} (h : ∀ b ∈ bs, t.clen.get b ≠ 0)
    (hc : cap.toNat < (bitCount t bs + 7) / 8) : packBytes cap t bs = .error ⟨.cap, cap⟩ := by
  rw [← length_bitstream] at hc
  by_cases hloop : 8 * cap.toNat + 7 < (bitstream t bs).length
  · simp only [packBytes, packFrom_eq_emitAll cap h, Packer.emitAll_full hloop]
  · obtain ⟨p, hp, hcarries⟩ := Packer.carries_start.emitAll (cap := cap) (bitstream t bs) (by rw [List.nil_append]; omega)
    rw [List.nil_append] at hcarries
    simp only [packBytes, packFrom_eq_emitAll cap h, hp, hcarries.flush_full (cap := cap) (by omega) (by omega)]

/-- Settles O39: the packer raises `E_CAP`, and the stage hands that raise to the fault entry with the state it was given. -/
theorem packCapacityFault : Obligations.PackCapacityFault := by
  intro s bs g hbs hcodes hfull
  rw [exec_pack g, packStage_eq_raised hbs (packBytes_full (t := s.codeTable) hcodes hfull), Stage.finish_raised, faultState,
    BitVec.ofNat_toNat, BitVec.setWidth_eq]
  rfl

/-! ### `E_INTERNAL` -/

/-- Where every input byte has a code, the only fault of the packer is `E_CAP` (43_bit_packer.md R173, R174). -/
theorem packBytes_raises_cap {cap : Len} {t : CodeTable} {bs : List Byte} {e : Raise} (h : ∀ b ∈ bs, t.clen.get b ≠ 0)
    (he : packBytes cap t bs = .error e) : e.code = .cap := by
  by_cases hc : (bitCount t bs + 7) / 8 ≤ cap.toNat
  · obtain ⟨o, fbc, hok, -⟩ := packBytes_ok h hc
    simp [hok] at he
  · rw [packBytes_full h (Nat.lt_of_not_le hc)] at he
    cases he
    rfl

/-- In encode mode every byte of the input has a code: it was counted, and a symbol with a count is a leaf of the tree. -/
theorem State.Inv.input_coded {s : State} (h : s.Inv) (hm : s.mode = .enc) (hcv : s.cv = true) {bs : List Byte}
    (hbs : s.inBytes = some bs) : ∀ b ∈ bs, s.clen.get b ≠ 0 := by
  intro b hb
  have hfreq : s.freq = countBytes bs := by
    rw [h.session.encFreq hm (h.flags.tree (h.flags.codes hcv)), State.input_eq hbs]
  have hpresent : s.freq.get b ≠ 0 := by
    rw [← mem_presentSymbols, hfreq, mem_presentSymbols_countBytes (length_lt_of_inBytes hbs)]
    exact hb
  obtain ⟨hzero, -⟩ := codeTableEntriesWellFormed s h hcv b
  exact fun h0 => hpresent (hzero.mp h0)

/-- No fault that the stage raises is `E_INTERNAL`. -/
def Stage.NeverInternal (r : Stage) : Prop :=
  ∀ e u, r = .raised e u → e.code ≠ .internal

theorem Stage.neverInternal_done (s : State) : (Stage.done s).NeverInternal := fun _ _ h => Stage.noConfusion h

theorem Stage.NeverInternal.andThen {r : Stage} {f : State → Stage} (h : r.NeverInternal)
    (hf : ∀ v, r = .done v → (f v).NeverInternal) : (r.andThen f).NeverInternal := by
  intro e u he
  obtain he | ⟨v, hv, he⟩ := Stage.andThen_eq_raised.mp he
  · exact h e u he
  · exact hf v hv e u he

theorem countStage_neverInternal (s : State) : (countStage s).NeverInternal := fun e u h => absurd h (countStage_not_raised s e u)

theorem deriveStage_neverInternal (s : State) : (deriveStage s).NeverInternal := fun e u h => absurd h (deriveStage_not_raised s e u)

theorem packStage_neverInternal {s : State} (h : s.Inv) (g : Accepted .pack s) : (packStage s).NeverInternal := by
  intro e u he
  obtain ⟨-, hm, hcv, -⟩ := g
  unfold packStage at he
  split at he
  · cases he
  · rename_i bs hbs
    split at he
    · rename_i hpack
      cases he
      simp [packBytes_raises_cap (t := s.codeTable) (h.input_coded hm hcv hbs) hpack]
    · cases he

theorem hdrdecStage_neverInternal (s : State) : (hdrdecStage s).NeverInternal := by
  intro e u he
  unfold hdrdecStage at he
  split at he
  · cases he
  · split at he
    · rename_i hparse
      cases he
      obtain hc | hc | hc | hc := parseHeader_error hparse <;> simp [hc]
    · cases he

theorem unpackPayload_neverInternal (s : State) : (unpackPayload s).NeverInternal := by
  intro e u he
  unfold unpackPayload at he
  split at he
  · cases he
  · split at he
    · rename_i hbits
      cases he
      obtain hc | hc := unpackBits_error hbits <;> simp [hc]
    · cases he

theorem unpackStage_neverInternal (s : State) : (unpackStage s).NeverInternal := by
  refine Stage.NeverInternal.andThen (Stage.NeverInternal.andThen ?_ fun v _ => ?_) fun v _ => unpackPayload_neverInternal v
  · rw [ensureTree_eq]
    exact Stage.neverInternal_done _
  · unfold ensureCodes
    split
    · exact Stage.neverInternal_done v
    · exact deriveStage_neverInternal v

/-- The stages before it leave `COMPRESS` a state that `PACK` accepts, under the invariant. -/
theorem compressStage_neverInternal {s : State} (h : s.Inv) (g : s.phase = .notStarted) : (compressStage s).NeverInternal := by
  rw [compressStage_eq]
  refine (countStage_neverInternal s).andThen fun u hu => ?_
  have iu := countStage_inv h g hu
  obtain ⟨gu, hm⟩ := countStage_accepts_build h g hu
  have ⟨hp, hfv, htv⟩ := gu
  refine (Stage.neverInternal_done (buildState u)).andThen fun v hv => ?_
  have iv := buildStage_inv iu hp hfv htv hv
  cases hv
  have gv := buildState_accepts_derive iu gu
  have ⟨_, htree, hcodes⟩ := gv
  refine (deriveStage_neverInternal _).andThen fun w hw => ?_
  have iw := deriveStage_inv iv htree hcodes hw
  refine (packStage_neverInternal iw (deriveStage_accepts_pack iv gv hm hw)).andThen fun x _ => ?_
  exact Stage.neverInternal_done _

theorem bodyOf_neverInternal {i : Instr} {s : State} (h : s.Inv) (g : Accepted i s) : (bodyOf i s).NeverInternal := by
  cases i with
  | nop | clear | build | hdrenc => exact Stage.neverInternal_done _
  | count => exact countStage_neverInternal s
  | derive => exact deriveStage_neverInternal s
  | pack => exact packStage_neverInternal h g
  | hdrdec => exact hdrdecStage_neverInternal s
  | unpack => exact unpackStage_neverInternal s
  | compress => exact compressStage_neverInternal h g
  | decompress => exact (hdrdecStage_neverInternal s).andThen fun v _ => unpackStage_neverInternal v

/-- Of the bodies that complete, none but that of `CLEAR` writes `ERR`. -/
theorem err_of_bodyOf_done {i : Instr} {s u : State} (hi : i ≠ .clear) (h : bodyOf i s = .done u) : u.err = s.err := by
  have hkept := bodyOf_keeps_inputAndFault hi s u (.inl h)
  exact congrArg (fun p : Memory × Len × ErrCode × BitVec 64 => p.2.2.1) hkept

theorem exec_err_ne_internal {i : Instr} {s t : State} (h : s.Inv) (he : s.err ≠ .internal) (e : exec i s = .next t) :
    t.err ≠ .internal := by
  by_cases hi : i = .clear
  · subst hi
    rw [exec_clear] at e
    cases e
    exact fun hc => ErrCode.noConfusion hc
  · obtain ⟨-, rfl⟩ | ⟨-, u, hu, rfl⟩ | ⟨g, r, u, hu, rfl⟩ := exec_next e
    · exact he
    · rw [State.accept_err, err_of_bodyOf_done hi hu]
      exact he
    · exact bodyOf_neverInternal h g r u hu

theorem pushInput_err (s : State) (b : Byte) : (pushInput s b).err = s.err := by
  obtain ⟨-, e⟩ | ⟨-, -, e⟩ | ⟨-, -, e⟩ := pushInput_cases s b <;> rw [e] <;> rfl

theorem hostTransaction_err_ne_internal {s t : State} {op : HostOp} (h : s.Inv) (he : s.err ≠ .internal)
    (e : hostTransaction s op = .next t) : t.err ≠ .internal := by
  obtain ⟨-, rfl⟩ | ⟨b, i, -, -, hx⟩ | ⟨b, r, -, -, rfl⟩ | ⟨b, -, rfl⟩ | ⟨space, index, b, -, -, rfl⟩ | ⟨space, index, -, rfl⟩ :=
    hostTransaction_next h.flags.idle e
  · exact fun hc => ErrCode.noConfusion hc
  · exact exec_err_ne_internal h he hx
  · exact he
  · rw [pushInput_err]
    exact he
  · exact he
  · exact he

/-- Settles O40: only a fault entry writes a code to `ERR`, and the packer, the one loop that can raise `E_INTERNAL`, is run only on an input
whose bytes all have codes. -/
theorem internalFaultUnreachable : Obligations.InternalFaultUnreachable := by
  intro s s' h he e
  obtain ⟨-, rfl⟩ | ⟨op, ops, -, ht⟩ := step_next e
  · exact he
  · exact hostTransaction_err_ne_internal (h.withHostIn ops) he ht

end Sys2Proof.Machine
end

section
/-! ## Proofs: a header that was written is read back (45_header_codec.md) -/

namespace Sys2Proof.Machine

/-! ### The checks of a header -/

/-- A header is decoded exactly where the input passes every check, in this order (45_header_codec.md R202, R203). -/
theorem parseHeader_eq_ok {bs : List Byte} {h : Header} : parseHeader bs = .ok h ↔
    8 ≤ bs.length ∧ (be64At bs 0 ≠ 0 ∧ (be64At bs 0 - 1) % 9 = 0) ∧ 8 + be64At bs 0 ≤ bs.length ∧ (byteAt bs 8).toNat ≤ 8
      ∧ parseEntries bs 0 ((be64At bs 0 - 1) / 9) none (Vector.replicate 256 0) = .ok h.freq
      ∧ (bs.length = 8 + be64At bs 0 ↔ (byteAt bs 8).toNat = 0)
      ∧ h.fbc = BitVec.ofNat 4 (byteAt bs 8).toNat ∧ h.tsize = be64At bs 0 := by
  obtain ⟨freq, fbc, tsize⟩ := h
  unfold parseHeader
  simp only
  by_cases h1 : bs.length < 8
  · exact iff_of_false (by simp [h1]) (by omega)
  by_cases h2 : be64At bs 0 = 0 ∨ (be64At bs 0 - 1) % 9 ≠ 0
  · exact iff_of_false (by simp [h1, h2]) (by omega)
  by_cases h3 : bs.length - 8 < be64At bs 0
  · exact iff_of_false (by simp [h1, h2, h3]) (by omega)
  by_cases h4 : (byteAt bs 8).toNat > 8
  · exact iff_of_false (by simp [h1, h2, h3, h4]) (by omega)
  cases he : parseEntries bs 0 ((be64At bs 0 - 1) / 9) none (Vector.replicate 256 0) with
  | error r => simp [h1, h2, h3, h4]
  | ok f =>
    have hend : bs.length - 8 - be64At bs 0 = 0 ↔ bs.length = 8 + be64At bs 0 := by omega
    by_cases h5 : bs.length = 8 + be64At bs 0 ↔ (byteAt bs 8).toNat = 0
    · have hpass : 8 ≤ bs.length ∧ (be64At bs 0 ≠ 0 ∧ (be64At bs 0 - 1) % 9 = 0) ∧ 8 + be64At bs 0 ≤ bs.length
          ∧ (byteAt bs 8).toNat ≤ 8 := by
        omega
      simp [h1, h3, h4, hend, h5, hpass, eq_comm (a := fbc), eq_comm (a := tsize)]
    · simp [h1, h2, h3, h4, hend, h5]

/-- A header that is decoded has bit count 0 exactly where nothing follows it (45_header_codec.md R208). -/
theorem parseHeader_fbc {bs : List Byte} {h : Header} (e : parseHeader bs = .ok h) : bs.length = 8 + h.tsize ↔ h.fbc = 0 := by
  rw [parseHeader_eq_ok] at e
  obtain ⟨-, -, -, hle, -, hend, hfbc, hts⟩ := e
  rw [hts, hend, hfbc, BitVec.toNat_eq, BitVec.toNat_ofNat, Nat.mod_eq_of_lt (by omega)]
  rfl

/-! ### Big-endian fields -/

theorem length_be64 (v : BitVec 64) : (be64 v).length = 8 := rfl

/-- What one more byte does to the part of a number that has been read. -/
theorem div_mul_add_mod_byte (n : Nat) {j k : Nat} (h : j = k + 8) : n / 2 ^ j * 256 + n / 2 ^ k % 2 ^ 8 = n / 2 ^ k := by
  rw [h, Nat.pow_add, ← Nat.div_div_eq_div_mul]
  omega

theorem bigEndian_be64 (v : BitVec 64) : bigEndian (be64 v) = v.toNat := by
  have htop : v.toNat / 2 ^ 56 % 2 ^ 8 = v.toNat / 2 ^ 56 := by
    have := v.isLt
    omega
  simp only [bigEndian, be64, List.foldl_cons, List.foldl_nil, BitVec.extractLsb'_toNat, Nat.shiftRight_eq_div_pow]
  rw [Nat.zero_mul, Nat.zero_add, htop, div_mul_add_mod_byte _ (j := 56) (k := 48) rfl, div_mul_add_mod_byte _ (j := 48) (k := 40) rfl,
    div_mul_add_mod_byte _ (j := 40) (k := 32) rfl, div_mul_add_mod_byte _ (j := 32) (k := 24) rfl,
    div_mul_add_mod_byte _ (j := 24) (k := 16) rfl, div_mul_add_mod_byte _ (j := 16) (k := 8) rfl,
    div_mul_add_mod_byte _ (j := 8) (k := 0) rfl, Nat.pow_zero, Nat.div_one]

/-- A field that was written big-endian is read back from where it stands (00_scope.md R14). -/
theorem be64At_append {a : Nat} {pre : List Byte} (h : pre.length = a) (v : BitVec 64) (rest : List Byte) :
    be64At (pre ++ (be64 v ++ rest)) a = v.toNat := by
  rw [be64At, ← h, List.drop_left, List.take_left' (length_be64 v), bigEndian_be64]

theorem byteAt_append {a : Nat} {pre : List Byte} (h : pre.length = a) (b : Byte) (rest : List Byte) : byteAt (pre ++ b :: rest) a = b := by
  simp [byteAt, ← h]

/-! ### The entries -/

/-- The present symbols stand in ascending order (30_encoding.md R100). -/
theorem presentSymbols_ascending (freq : ByteTable Count) : (presentSymbols freq).Pairwise (· < ·) := by
  refine List.Pairwise.filter _ (List.pairwise_map.mpr (List.pairwise_lt_range.imp_of_mem fun ha hb hab => ?_))
  rw [List.mem_range] at ha hb
  rw [BitVec.lt_def, BitVec.toNat_ofNat, BitVec.toNat_ofNat]
  omega

/-- The table into which the counts of these symbols have been copied. -/
def copyCounts (freq : ByteTable Count) (xs : List Byte) (into : ByteTable Count) : ByteTable Count :=
  xs.foldl (fun t x => t.put x (freq.get x)) into

theorem get_copyCounts (freq : ByteTable Count) (xs : List Byte) (into : ByteTable Count) (y : Byte) :
    (copyCounts freq xs into).get y = if y ∈ xs then freq.get y else into.get y := by
  induction xs generalizing into with
  | nil => simp [copyCounts]
  | cons x xs ih =>
    refine (ih (into.put x (freq.get x))).trans ?_
    by_cases hx : x = y
    · simp [hx]
    · simp [ByteTable.get_put_other _ _ hx, Ne.symm hx]

theorem copyCounts_presentSymbols (freq : ByteTable Count) : copyCounts freq (presentSymbols freq) (Vector.replicate 256 0) = freq := by
  refine ByteTable.ext_get fun y => ?_
  rw [get_copyCounts, ByteTable.get_replicate]
  split
  case isTrue => rfl
  case isFalse hy => exact (not_not.mp (mt (mem_presentSymbols freq y).mpr hy)).symm

/-- The entry loop reads back the entries of symbols that ascend and are present (45_header_codec.md R202, R207). -/
theorem parseEntries_entries {freq : ByteTable Count} {xs pre : List Byte} {k : Nat} {prev : Option Byte} (hpre : pre.length = 9 + 9 * k)
    (hasc : xs.Pairwise (· < ·)) (hprev : ∀ p ∈ prev, ∀ x ∈ xs, p < x) (hpresent : ∀ x ∈ xs, freq.get x ≠ 0) (rest : List Byte)
    (into : ByteTable Count) :
    parseEntries (pre ++ (xs.flatMap (headerEntry freq) ++ rest)) k xs.length prev into = .ok (copyCounts freq xs into) := by
  induction xs generalizing pre k prev into with
  | nil => rfl
  | cons x xs ih =>
    obtain ⟨hx, hasc⟩ := List.pairwise_cons.mp hasc
    obtain ⟨hcount, hpresent⟩ := List.forall_mem_cons.mp hpresent
    have hnext : (pre ++ headerEntry freq x).length = 9 + 9 * (k + 1) := by
      rw [List.length_append, headerEntry, List.length_cons, length_be64, hpre]
      omega
    have hvalue : byteAt (pre ++ ((x :: xs).flatMap (headerEntry freq) ++ rest)) (9 + 9 * k) = x := byteAt_append hpre x _
    have hfield : be64At (pre ++ ((x :: xs).flatMap (headerEntry freq) ++ rest)) (10 + 9 * k) = (freq.get x).toNat := by
      have h := be64At_append (a := 10 + 9 * k) (pre := pre ++ [x]) (by simp [hpre]; omega) (freq.get x)
        (xs.flatMap (headerEntry freq) ++ rest)
      simpa [headerEntry] using h
    have horder : prev.any (fun p => x ≤ p) = false := by
      cases prev with
      | none => rfl
      | some p => simpa using hprev p rfl x List.mem_cons_self
    have hzero : (freq.get x).toNat ≠ 0 := fun h => hcount (BitVec.eq_of_toNat_eq h)
    rw [List.length_cons, parseEntries, hvalue, hfield, horder]
    simp only [Bool.false_or, decide_eq_true_eq, if_neg hzero, BitVec.ofNat_toNat, BitVec.setWidth_eq]
    have htail := ih hnext hasc (prev := some x) (by simpa using hx) hpresent (into.put x (freq.get x))
    simpa [copyCounts] using htail

/-- The header of a table is decoded to that table, whatever payload follows that fits the bit count (45_header_codec.md R207, R208). -/
theorem parseHeader_headerBytes (freq : ByteTable Count) {fbc : BitVec 4} {payload : List Byte} (hle : fbc.toNat ≤ 8)
    (hend : payload = [] ↔ fbc = 0) : parseHeader (headerBytes freq fbc ++ payload) = .ok ⟨freq, fbc, tableSize freq⟩ := by
  have hsmall := tableSize_le freq
  have hlen : (headerBytes freq fbc ++ payload).length = 8 + tableSize freq + payload.length := by
    rw [List.length_append, length_headerBytes]
  have hts : be64At (headerBytes freq fbc ++ payload) 0 = tableSize freq := by
    have h := be64At_append (a := 0) (pre := []) rfl (BitVec.ofNat 64 (tableSize freq))
      ([fbc.setWidth 8] ++ (presentSymbols freq).flatMap (headerEntry freq) ++ payload)
    rw [BitVec.toNat_ofNat, Nat.mod_eq_of_lt (by omega)] at h
    simpa [headerBytes] using h
  have hbyte : byteAt (headerBytes freq fbc ++ payload) 8 = fbc.setWidth 8 := by
    have h := byteAt_append (a := 8) (length_be64 (BitVec.ofNat 64 (tableSize freq))) (fbc.setWidth 8)
      ((presentSymbols freq).flatMap (headerEntry freq) ++ payload)
    simpa [headerBytes] using h
  have hfbc : (byteAt (headerBytes freq fbc ++ payload) 8).toNat = fbc.toNat := by
    rw [hbyte]
    exact BitVec.toNat_setWidth_of_le (by decide)
  have hcount : (tableSize freq - 1) / 9 = (presentSymbols freq).length := by
    unfold tableSize
    omega
  have hentries := parseEntries_entries (freq := freq) (k := 0) (prev := none) (pre := be64 (BitVec.ofNat 64 (tableSize freq)) ++ [fbc.setWidth 8])
    rfl (presentSymbols_ascending freq) (by simp) (fun x hx => (mem_presentSymbols freq x).mp hx) payload (Vector.replicate 256 0)
  rw [copyCounts_presentSymbols] at hentries
  have hpos : tableSize freq ≠ 0 ∧ (tableSize freq - 1) % 9 = 0 := by
    unfold tableSize
    omega
  have hpayload : payload.length = 0 ↔ fbc.toNat = 0 := by
    rw [List.length_eq_zero_iff, hend, BitVec.toNat_eq]
    rfl
  rw [parseHeader_eq_ok, hlen, hts, hfbc, hcount, Nat.add_eq_left]
  exact ⟨by omega, hpos, by omega, hle, by simpa [headerBytes] using hentries, hpayload, by simp, rfl⟩

end Sys2Proof.Machine
end

section
/-! ## Proofs: `UNPACK` on every payload (44_bit_unpacker.md) -/

namespace Sys2Proof.Machine

/-! ### The bits of a payload -/

/-- All 8 bits of every byte but the last, `FBC` bits of the last (44_bit_unpacker.md R187). -/
theorem payloadBits_concat (n : Nat) (bs : List Byte) (b : Byte) :
    payloadBits n (bs ++ [b]) = bs.flatMap (fun c => lowBits c 8) ++ lowBits b n := by
  induction bs with
  | nil => rfl
  | cons c bs ih =>
    cases bs with
    | nil => simp [payloadBits]
    | cons d bs => simpa [payloadBits] using ih

/-- A payload of which at least one bit is valid has bits to read. -/
theorem payloadBits_ne_nil {n : Nat} {bs : List Byte} (hn : n ≠ 0) (hbs : bs ≠ []) : payloadBits n bs ≠ [] := by
  obtain rfl | ⟨ps, b, rfl⟩ := List.eq_nil_or_concat' bs
  · exact absurd rfl hbs
  · intro h
    have hlen := congrArg List.length (List.append_eq_nil_iff.mp ((payloadBits_concat n ps b).symm.trans h)).2
    exact hn ((length_lowBits b n).symm.trans hlen)

/-- A buffer filled from index 0 reads as what it was filled with. -/
theorem Memory.read_writeN_nil (bs : List Byte) (a : Nat) : (Memory.writeN [] 0 bs).read a = bs[a]? := by
  rw [Memory.read_writeN]
  split
  · rfl
  · exact (List.getElem?_eq_none (by omega)).symm

/-! ### Bits that complete no code word -/

/-- Where no beginning of the bits is a code word the loop matches nothing, and their end finds the accumulator not empty
(44_bit_unpacker.md R189). -/
theorem unpackBits_incomplete {freq : ByteTable Count} {t : CodeTable} (h : codesOf freq = some t) (cap : Len) {seen todo : List Bool}
    (hne : seen ++ todo ≠ []) (hno : ∀ x n, freq.get x ≠ 0 → codeWord t x ≠ (seen ++ todo).take n) {code : Nat}
    (ha : Accumulates code seen) (o : OutBuffer) : unpackBits cap t code seen.length o todo = .error ⟨.bits, o.len⟩ := by
  induction todo generalizing seen code with
  | nil =>
    rw [List.append_nil] at hne
    simp [unpackBits, hne]
  | cons bit todo ih =>
    have ha' := ha.append bit
    have hlen : (seen ++ [bit]).length = seen.length + 1 := by simp
    have hnone : decodeStep t (seen.length + 1) (code ||| (bit.toNat <<< seen.length)) = none := by
      by_contra hn
      obtain ⟨y, hd⟩ := Option.ne_none_iff_exists'.mp hn
      rw [← hlen] at hd
      obtain ⟨hy, hw⟩ := eq_of_decodeStep h ha' hd
      exact hno y (seen.length + 1) hy (by rw [hw]; simp [List.take_append])
    rw [unpackBits_keepReading o _ hnone, ← hlen]
    exact ih (by simp) (by simpa using hno) ha'

/-! ### The payload of a session -/

/-- After a header is decoded the payload can be read; it is empty exactly where the header is the whole input, and then `FBC` is 0. -/
theorem State.Inv.payload {s : State} (h : s.Inv) (hm : s.mode = .dec) (hv : s.hv = true) :
    ∃ bs, s.payloadBytes = some bs ∧ (bs = [] ↔ s.payOff = s.inLen) ∧ (bs = [] ↔ s.fbc = 0) := by
  obtain ⟨input, hinput⟩ := h.inBytes
  obtain ⟨hparse, hoff⟩ := h.session.decHeader hm hv
  rw [State.input_eq hinput] at hparse
  have hlen := length_of_inBytes hinput
  obtain ⟨-, hfit⟩ := parseHeader_tsize hparse
  have hfbc := parseHeader_fbc hparse
  simp only [hlen] at hfit hfbc
  have hin := s.inLen.isLt
  have hpay : s.payOff.toNat = 8 + s.tsize.toNat := by
    rw [hoff, BitVec.toNat_ofNat]
    omega
  obtain ⟨bs, hbs⟩ := Option.isSome_iff_exists.mp
    (h.buffers.input.readN_isSome (a := s.payOff.toNat) (k := s.inLen.toNat - s.payOff.toNat) (by omega))
  have hnil : bs = [] ↔ s.inLen.toNat = 8 + s.tsize.toNat := by
    rw [← List.length_eq_zero_iff, Memory.length_of_readN hbs]
    omega
  refine ⟨bs, hbs, ?_, hnil.trans hfbc⟩
  rw [hnil, BitVec.toNat_eq]
  omega

/-! ### The symbols that the payload spells -/

/-- Where the bits spell symbols that fit, the stage completes with these symbols in `OUT` (44_bit_unpacker.md R185, R188). -/
theorem unpackStage_spelled {s : State} {bs : List Byte} {tab : CodeTable} {xs : List Byte} (h : s.Inv) (g : Accepted .unpack s)
    (hbs : s.payloadBytes = some bs) (htab : codesOf s.freq = some tab) (hbits : payloadBits s.fbc.toNat bs = xs.flatMap (codeWord tab))
    (hxs : ∀ x ∈ xs, s.freq.get x ≠ 0) (hroom : xs.length ≤ s.cfg.outCap.toNat) :
    ∃ node nleaf nnode root te, node = (buildTree s.freq).nodes
      ∧ unpackStage s = .done { s with node := node, nleaf := nleaf, nnode := nnode, root := root, te := te, tv := true,
                                       code := tab.code, clen := tab.clen, cv := true, outBuf := Memory.writeN [] 0 xs,
                                       outLen := BitVec.ofNat 64 xs.length, pv := true, phase := .ready } := by
  obtain ⟨node, nleaf, nnode, root, te, hnode, hstage⟩ := unpackStage_eq_unpackPayload h g htab
  have hloop : unpackBits s.cfg.outCap tab 0 0 OutBuffer.empty (payloadBits s.fbc.toNat bs)
      = .ok ⟨Memory.writeN [] 0 xs, BitVec.ofNat 64 xs.length⟩ := by
    rw [hbits, ← List.append_nil (xs.flatMap _), unpackBits_words htab _ hxs _ (by simpa [OutBuffer.empty] using hroom)]
    simp [unpackBits, OutBuffer.empty]
  have hdone := hstage.trans (unpackPayload_eq_done hbs hloop)
  exact ⟨node, nleaf, nnode, root, te, hnode, hdone⟩

/-- Settles O46: the loop reads one code word after the other and appends their symbols. -/
theorem unpackEmitsTheSymbolsSpelled : Obligations.UnpackEmitsTheSymbolsSpelled := by
  intro s bs tab xs h g hbs htab hbits hxs hroom
  obtain ⟨node, nleaf, nnode, root, te, hnode, hstage⟩ := unpackStage_spelled h g hbs htab hbits hxs hroom
  have hcap := s.cfg.outCap.isLt
  refine ⟨node, nleaf, nnode, root, te, _, _, by rw [exec_unpack g, hstage]; rfl, hnode, ?_, Memory.read_writeN_nil xs⟩
  rw [BitVec.toNat_ofNat]
  omega

/-! ### Where the bits run out -/

/-- Settles O47: after the words of the symbols no beginning of the rest is a match, so the accumulator is not empty when the bits end. -/
theorem unpackExhaustionFault : Obligations.UnpackExhaustionFault := by
  intro s t bs tab xs rest h g hbs htab hbits hxs hroom hne hno e
  obtain ⟨node, nleaf, nnode, root, te, -, hstage⟩ := unpackStage_eq_unpackPayload h g htab
  have hloop : unpackBits s.cfg.outCap tab 0 0 OutBuffer.empty (payloadBits s.fbc.toNat bs) = .error ⟨.bits, BitVec.ofNat 64 xs.length⟩ := by
    rw [hbits, unpackBits_words htab _ hxs _ (by simpa [OutBuffer.empty] using hroom)]
    refine (unpackBits_incomplete htab _ (seen := []) hne hno accumulates_nil _).trans ?_
    simp [OutBuffer.empty]
  rw [exec_unpack g, hstage.trans (unpackPayload_eq_raised hbs hloop), Stage.finish_raised] at e
  obtain ⟨-, hm, hh, hp⟩ := g
  have hf : s.fv = true := (h.flags.decHeader hm).mp hh
  have hcap := s.cfg.outCap.isLt
  have hlen : (BitVec.ofNat 64 xs.length).toNat = xs.length := by
    rw [BitVec.toNat_ofNat]
    omega
  cases e
  exact ⟨rfl, hlen, rfl, rfl, hf, rfl, rfl, hp, hh, rfl⟩

/-- Settles O49: an empty payload spells no symbol; under an empty table every bit is left over. -/
theorem unpackEmptyCases : Obligations.UnpackEmptyCases := by
  intro s t h g e
  have ⟨_, hm, hv, _⟩ := g
  obtain ⟨bs, hbs, hnil, hfbc⟩ := h.payload hm hv
  obtain ⟨tab, htab, -⟩ := codesOf_codes s.freq
  refine ⟨fun hend => ?_, fun hend hzero => ?_⟩
  · obtain rfl := hnil.mpr hend
    obtain ⟨node, nleaf, nnode, root, te, -, hstage⟩ :=
      unpackStage_spelled (xs := []) h g hbs htab rfl (by simp) (Nat.zero_le _)
    rw [exec_unpack g, hstage] at e
    cases e
    exact ⟨rfl, rfl, rfl, rfl, rfl⟩
  · have hne : payloadBits s.fbc.toNat bs ≠ [] :=
      payloadBits_ne_nil (fun h0 => hend (hnil.mp (hfbc.mpr (BitVec.eq_of_toNat_eq h0)))) (mt hnil.mp hend)
    obtain ⟨herr, hinfo, hphase, hlast, -, -, -, hpv, -⟩ :=
      unpackExhaustionFault s t bs tab [] _ h g hbs htab rfl (by simp) (Nat.zero_le _) hne (fun x _ hx => absurd (hzero x) hx) e
    exact ⟨hphase, herr, BitVec.eq_of_toNat_eq hinfo, hpv, hlast⟩

/-! ### Changes of the state that `UNPACK` hands through -/

/-- The same end of the stage, in the state changed by `f`. -/
def Stage.map (f : State → State) : Stage → Stage
  | .done s => .done (f s)
  | .raised e s => .raised e (f s)
  | .stuck e => .stuck e

theorem Stage.andThen_map {r : Stage} {f : State → State} {next : State → Stage}
    (h : ∀ u, r = .done u → next (f u) = (next u).map f) : (r.map f).andThen next = (r.andThen next).map f := by
  cases r with
  | done u => exact h u rfl
  | raised e u => rfl
  | stuck e => rfl

/-- The bits that `UNPACK` reads; none where a byte of the payload has no value. -/
def State.bitsRead (s : State) : Option (List Bool) :=
  s.payloadBytes.map (payloadBits s.fbc.toNat)

/-- What the tree and code stages do not write is as before them. -/
theorem ensureCodes_keeps {α : Type} {f : State → α} {s u : State} (hb : f (buildState s) = f s)
    (hd : ∀ v x y, f { v with code := x, clen := y, cv := true } = f v) (e : (ensureTree s).andThen ensureCodes = .done u) : f u = f s := by
  obtain ⟨v, hv, hu⟩ := Stage.andThen_eq_done.mp e
  have htree : f v = f s := by
    rw [ensureTree_eq] at hv
    split at hv <;> cases hv
    · rfl
    · exact hb
  unfold ensureCodes at hu
  split at hu
  · cases hu
    exact htree
  · obtain ⟨tab, -, rfl⟩ := deriveStage_done hu
    exact (hd v _ _).trans htree

/-- The loop looks at the bits, the code table and the capacity alone. -/
theorem unpackPayload_map {f : State → State} {u : State} (hbits : (f u).bitsRead = u.bitsRead) (hcap : (f u).cfg = u.cfg)
    (htab : (f u).codeTable = u.codeTable)
    (hf : ∀ x y, ({ f u with outBuf := x, outLen := y, pv := true, phase := .ready } : State)
      = f { u with outBuf := x, outLen := y, pv := true, phase := .ready }) : unpackPayload (f u) = (unpackPayload u).map f := by
  unfold State.bitsRead at hbits
  cases hu : u.payloadBytes with
  | none =>
    have hfu : (f u).payloadBytes = none := by simpa [hu] using hbits
    simp [unpackPayload, hu, hfu, Stage.map]
  | some bs =>
    obtain ⟨bs', hfu, heq⟩ : ∃ bs', (f u).payloadBytes = some bs' ∧ payloadBits (f u).fbc.toNat bs' = payloadBits u.fbc.toNat bs := by
      simpa [hu] using hbits
    cases hrun : unpackBits u.cfg.outCap u.codeTable 0 0 OutBuffer.empty (payloadBits u.fbc.toNat bs) with
    | error r =>
      rw [unpackPayload_eq_raised hu hrun, unpackPayload_eq_raised hfu (by rw [hcap, htab, heq, hrun])]
      rfl
    | ok out =>
      rw [unpackPayload_eq_done hu hrun, unpackPayload_eq_done hfu (by rw [hcap, htab, heq, hrun]), hf]
      rfl

/-- A change of what the tree and code stages do not look at is handed through the whole stage, if the loop hands it through. -/
theorem unpackStage_map {f : State → State} (hbuild : ∀ u, buildState (f u) = f (buildState u))
    (hderive : ∀ u, deriveStage (f u) = (deriveStage u).map f) (htv : ∀ u, (f u).tv = u.tv) (hcv : ∀ u, (f u).cv = u.cv) {s : State}
    (hpay : ∀ u, (ensureTree s).andThen ensureCodes = .done u → unpackPayload (f u) = (unpackPayload u).map f) :
    unpackStage (f s) = (unpackStage s).map f := by
  have htree : ensureTree (f s) = (ensureTree s).map f := by
    rw [ensureTree_eq, ensureTree_eq, htv]
    split
    · rfl
    · rw [hbuild]
      rfl
  have hcodes (u : State) : ensureCodes (f u) = (ensureCodes u).map f := by
    rw [ensureCodes, ensureCodes, hcv]
    split
    · rfl
    · exact hderive u
  rw [unpackStage, htree, Stage.andThen_map fun u _ => hcodes u, Stage.andThen_map hpay]
  rfl

/-! ### The last byte of the input -/

/-- The input buffer replaced. -/
def State.withInBuf (buf : Memory) (s : State) : State :=
  { s with inBuf := buf }

theorem deriveStage_withInBuf (buf : Memory) (s : State) : deriveStage (s.withInBuf buf) = (deriveStage s).map (State.withInBuf buf) := by
  have hcodes : deriveCodes (s.withInBuf buf).te (s.withInBuf buf).node (s.withInBuf buf).root = deriveCodes s.te s.node s.root := rfl
  unfold deriveStage
  rw [hcodes]
  split <;> rfl

/-- The bits `FBC` .. 7 of the last byte are not among the bits read (44_bit_unpacker.md R187). -/
theorem bitsRead_lastByte {s : State} {bs : List Byte} {b b' : Byte} (hbs : s.payloadBytes = some bs) (hlt : s.payOff.toNat < s.inLen.toNat)
    (hb : s.inBuf.read (s.inLen.toNat - 1) = some b) (hsame : ∀ k, k < s.fbc.toNat → b.getLsbD k = b'.getLsbD k) :
    (s.withInBuf (s.inBuf.write (s.inLen.toNat - 1) b')).bitsRead = s.bitsRead := by
  obtain ⟨hlen, hread⟩ := Memory.readN_eq_some.mp hbs
  obtain rfl | ⟨ps, c, rfl⟩ := List.eq_nil_or_concat' bs
  · rw [List.length_nil] at hlen
    omega
  · rw [List.length_append, List.length_singleton] at hlen
    have hlast : s.inLen.toNat - 1 = s.payOff.toNat + ps.length := by omega
    obtain rfl : c = b := by
      have := hread ps.length (by omega)
      rw [← hlast, hb] at this
      simpa using this.symm
    have hbs' : (s.withInBuf (s.inBuf.write (s.inLen.toNat - 1) b')).payloadBytes = some (ps ++ [b']) := by
      refine Memory.readN_eq_some.mpr ⟨List.length_append.trans hlen, fun i hi => ?_⟩
      have hi : i < s.inLen.toNat - s.payOff.toNat := hi
      show (s.inBuf.write (s.inLen.toNat - 1) b').read (s.payOff.toNat + i) = _
      by_cases h : i = ps.length
      · subst h
        rw [hlast, Memory.read_write_same]
        simp
      · rw [Memory.read_write_other _ _ (by omega), hread i hi, List.getElem?_append_left (by omega), List.getElem?_append_left (by omega)]
    have hfbc : (s.withInBuf (s.inBuf.write (s.inLen.toNat - 1) b')).fbc = s.fbc := rfl
    rw [State.bitsRead, State.bitsRead, hbs, hbs', hfbc, Option.map_some, Option.map_some, payloadBits_concat, payloadBits_concat,
      lowBits_congr hsame]

/-- Settles O50: the stage hands a change of the input through where the bits read are the same. -/
theorem unpackIgnoresPadding : Obligations.UnpackIgnoresPadding := by
  rintro s t b b' buf h g hlt hb hsame rfl e
  have ⟨_, hm, hv, _⟩ := g
  obtain ⟨bs, hbs, -⟩ := h.payload hm hv
  have hbits := bitsRead_lastByte hbs hlt hb hsame
  generalize s.inBuf.write (s.inLen.toNat - 1) b' = buf at hbits ⊢
  have hstage : unpackStage (s.withInBuf buf) = (unpackStage s).map (State.withInBuf buf) := by
    refine unpackStage_map (f := State.withInBuf buf) (fun _ => rfl) (deriveStage_withInBuf buf) (fun _ => rfl) (fun _ => rfl) fun u hu => ?_
    have hkept : ((u.withInBuf buf).bitsRead = u.bitsRead) = ((s.withInBuf buf).bitsRead = s.bitsRead) :=
      ensureCodes_keeps (f := fun u => (u.withInBuf buf).bitsRead = u.bitsRead) rfl (fun _ _ _ => rfl) hu
    exact unpackPayload_map (hkept ▸ hbits) rfl rfl fun _ _ => rfl
  show exec .unpack (s.withInBuf buf) = .next (t.withInBuf buf)
  rw [exec_unpack g, Stage.finish_next] at e
  rw [exec_unpack (s := s.withInBuf buf) g, hstage]
  obtain ⟨u, hu, rfl⟩ | ⟨r, u, hu, rfl⟩ := e <;> rw [hu] <;> rfl

/-! ### Whether the tree and the codes are there before -/

theorem unpackStage_accept (s : State) : unpackStage s.accept = (unpackStage s).map State.accept := by
  refine unpackStage_map (f := State.accept) (fun _ => rfl) (fun u => ?_) (fun _ => rfl) (fun _ => rfl) fun u _ =>
    unpackPayload_map rfl rfl rfl fun _ _ => rfl
  unfold deriveStage
  rw [State.accept_te, State.accept_node, State.accept_root]
  split <;> rfl

theorem Stage.finish_map_accept (r : Stage) : (r.map State.accept).finish = r.finish := by
  cases r <;> rfl

/-- `UNPACK` after an accepted command ends as its stage does in the state which that command's stage left. -/
theorem exec_unpack_accept {u : State} (g : Accepted .unpack u) : exec .unpack u.accept = (unpackStage u).finish := by
  rw [exec_unpack (s := u.accept) g, unpackStage_accept, Stage.finish_map_accept]

theorem runCommands_cons {i : Instr} {is : List Instr} {s t : State} (h : exec i s = .next t) :
    runCommands (i :: is) s = runCommands is t := by
  simp only [runCommands, h]

theorem runCommands_singleton (i : Instr) (s : State) : runCommands [i] s = exec i s := by
  simp only [runCommands]
  cases exec i s <;> rfl

/-- `UNPACK` builds the tree that `BUILD` would have built before it. -/
theorem unpackStage_buildState {s : State} (ht : s.tv = false) : unpackStage (buildState s) = unpackStage s := by
  simp [unpackStage, ensureTree_eq, ht]

/-- `DERIVE` before `UNPACK` leaves the answer as it is. -/
theorem runCommands_derive_unpack {s : State} (h : s.Inv) (g : Accepted .unpack s) (ht : s.tv = true) (hc : s.cv = false) :
    runCommands [.derive, .unpack] s = exec .unpack s := by
  have ⟨hp, hm, hv, hpv⟩ := g
  obtain ⟨tab, htab, -⟩ := codesOf_codes s.freq
  have hd := deriveStage_eq ((deriveCodes_eq_codesOf h ht).trans htab)
  have hu : unpackStage { s with code := tab.code, clen := tab.clen, cv := true } = unpackStage s := by
    simp [unpackStage, ensureTree_eq, ensureCodes, ht, hc, hd]
  rw [runCommands_cons (by rw [exec_derive ⟨hp, ht, hc⟩, hd, Stage.finish_done]), runCommands_singleton,
    exec_unpack_accept (by exact ⟨hp, hm, hv, hpv⟩), hu, exec_unpack g]

/-- Settles O51: a stage that ran before is skipped, and its state is the one the stage would have made. -/
theorem unpackRebuildsWhatIsMissing : Obligations.UnpackRebuildsWhatIsMissing := by
  intro s h g
  have ⟨hp, hm, hv, hpv⟩ := g
  refine ⟨fun ht => ?_, runCommands_derive_unpack h g⟩
  have gb : Accepted .build s := ⟨hp, (h.flags.decHeader hm).mp hv, ht⟩
  have hbuild : exec .build s = .next (buildState s).accept := exec_build gb
  have gu : Accepted .unpack (buildState s) := g
  have hunpack : exec .unpack (buildState s).accept = exec .unpack s := by
    rw [exec_unpack_accept gu, unpackStage_buildState ht, exec_unpack g]
  have ⟨_, htv, hcv⟩ := buildState_accepts_derive h gb
  refine ⟨by rw [runCommands_cons hbuild, runCommands_singleton, hunpack], ?_⟩
  rw [runCommands_cons hbuild, runCommands_derive_unpack (exec_inv h hbuild) gu htv hcv, hunpack]

end Sys2Proof.Machine
end

section
/-! ## Proofs: what was compressed is decompressed to the input (44_bit_unpacker.md R188) -/

namespace Sys2Proof.Machine

/-! ### The bits of a packed payload are the bitstream -/

theorem IsPackedByte.lowBits_eq_take {bits : List Bool} {v : Byte} (h : IsPackedByte bits 0 v) {n : Nat} (hn : n ≤ 8) (hl : n ≤ bits.length) :
    lowBits v n = bits.take n := by
  refine List.ext_getElem (by simpa using hl) fun k hk _ => ?_
  rw [length_lowBits] at hk
  have hbit : v.getLsbD k = bits[k] := by
    rw [h k (by omega), List.getD_eq_getElem _ _ (by omega)]
    simp
  simp [lowBits_eq, hbit]

/-- The packed bytes after the first are those of the bits after the first 8. -/
theorem IsPackedByte.drop {bits : List Bool} {a : Nat} {v : Byte} (h : IsPackedByte bits (a + 1) v) : IsPackedByte (bits.drop 8) a v :=
  fun j hj => by
    have e : 8 * (a + 1) + j = 8 + (8 * a + j) := by omega
    rw [h j hj, e, List.getD_eq_getElem?_getD, List.getD_eq_getElem?_getD, List.getElem?_drop]

/-- `FBC` of a stream of `n` bits (43_bit_packer.md R171). -/
def validInLast (n : Nat) : Nat :=
  if n = 0 then 0 else if n % 8 ≠ 0 then n % 8 else 8

theorem validInLast_le (n : Nat) : validInLast n ≤ 8 := by
  unfold validInLast
  split_ifs <;> omega

theorem validInLast_eq_zero_iff (n : Nat) : validInLast n = 0 ↔ n = 0 := by
  unfold validInLast
  split_ifs with h0 h8
  · simp [h0]
  · simp [h0, h8]
  · simp [h0]

/-- The bits read from the bytes of a packed stream are the stream (44_bit_unpacker.md R187, 30_encoding.md R104). -/
theorem payloadBits_packed {bits : List Bool} {bs : List Byte} (hlen : bs.length = (bits.length + 7) / 8)
    (hpacked : ∀ a v, bs[a]? = some v → IsPackedByte bits a v) : payloadBits (validInLast bits.length) bs = bits := by
  induction bs generalizing bits with
  | nil =>
    obtain rfl : bits = [] := List.length_eq_zero_iff.mp (by rw [List.length_nil] at hlen; omega)
    rfl
  | cons b bs ih =>
    have hfirst : IsPackedByte bits 0 b := hpacked 0 b rfl
    rw [List.length_cons] at hlen
    cases bs with
    | nil =>
      rw [List.length_nil] at hlen
      have hvalid : validInLast bits.length = bits.length := by
        unfold validInLast
        split_ifs <;> omega
      rw [hvalid, payloadBits, hfirst.lowBits_eq_take (by omega) (Nat.le_refl _), List.take_length]
    | cons c bs =>
      have hmore : 8 < bits.length := by
        rw [List.length_cons] at hlen
        omega
      have hvalid : validInLast bits.length = validInLast (bits.drop 8).length := by
        rw [List.length_drop]
        unfold validInLast
        split_ifs <;> omega
      have hrest := ih (bits := bits.drop 8) (by rw [List.length_drop]; omega) fun a v hv => (hpacked (a + 1) v hv).drop
      rw [payloadBits, hfirst.lowBits_eq_take (Nat.le_refl _) (by omega), hvalid, hrest, List.take_append_drop]

/-- A packer that completes has packed the whole bitstream. -/
theorem packBytes_eq_ok {cap : Len} {t : CodeTable} {bs : List Byte} {o : OutBuffer} {fbc : BitVec 4} (h : ∀ b ∈ bs, t.clen.get b ≠ 0)
    (e : packBytes cap t bs = .ok (o, fbc)) :
    o.len.toNat = ((bitstream t bs).length + 7) / 8 ∧ o.Packs (bitstream t bs) ∧ fbc.toNat = validInLast (bitstream t bs).length := by
  rw [length_bitstream]
  by_cases hc : (bitCount t bs + 7) / 8 ≤ cap.toNat
  · obtain ⟨o', fbc', e', hlen, hpacks, hfbc⟩ := packBytes_ok h hc
    obtain ⟨rfl, rfl⟩ := Prod.mk.inj (Except.ok.inj (e'.symm.trans e))
    exact ⟨hlen, hpacks, hfbc⟩
  · rw [packBytes_full h (Nat.lt_of_not_le hc)] at e
    cases e

/-! ### The artifact -/

/-- A session in which `COMPRESS` completed is one of encode mode with its input as before. -/
theorem compress_ready {s t : State} {input : List Byte} (h : Fresh s input) (e : exec .compress s = .next t) (hr : t.phase = .ready) :
    t.Inv ∧ t.mode = .enc ∧ t.inBytes = some input := by
  obtain ⟨hbuf, hlen⟩ := exec_keeps_input (by decide) e
  refine ⟨exec_inv h.inv e, ?_, ?_⟩
  · obtain ⟨hn, -⟩ | ⟨-, u, hu, rfl⟩ | ⟨-, r, u, -, rfl⟩ := exec_next e
    · exact absurd h.phase hn
    · have hu : compressStage s = .done u := hu
      rw [compressStage_eq] at hu
      obtain ⟨v, hv, hu⟩ := Stage.andThen_eq_done.mp hu
      obtain ⟨bs, -, rfl⟩ := countStage_done hv
      obtain ⟨w, hw, hu⟩ := Stage.andThen_eq_done.mp hu
      cases hw
      obtain ⟨x, hx, hu⟩ := Stage.andThen_eq_done.mp hu
      obtain ⟨tab, -, rfl⟩ := deriveStage_done hx
      obtain ⟨y, hy, hu⟩ := Stage.andThen_eq_done.mp hu
      obtain ⟨_, out, fbc, -, -, rfl⟩ := packStage_done hy
      cases hu
      rfl
    · cases hr
  · rw [← h.input, State.inBytes, State.inBytes, hbuf, hlen]

/-- The artifact of a completed compression is its header followed by a payload whose bits are the bitstream of the input
(20_memory.md R65, 43_bit_packer.md R175). -/
theorem State.Inv.artifact {t : State} {input : List Byte} (h : t.Inv) (hm : t.mode = .enc) (hr : t.phase = .ready)
    (hin : t.inBytes = some input) :
    ∃ payload, (∀ i, readArtifact t i = (headerBytes t.freq t.fbc ++ payload)[i]?)
      ∧ (headerBytes t.freq t.fbc ++ payload).length = t.hdrLen.toNat + t.outLen.toNat ∧ t.fbc.toNat ≤ 8 ∧ (payload = [] ↔ t.fbc = 0)
      ∧ payloadBits t.fbc.toNat payload = bitstream t.codeTable input := by
  have hh := hv_of_ready h hr hm
  have hp := h.flags.encHeader hm hh
  obtain ⟨payload, hpay⟩ := Option.isSome_iff_exists.mp (h.buffers.output.readN_isSome (a := 0) (k := t.outLen.toNat) (by omega))
  obtain ⟨hplen, hpread⟩ := Memory.readN_eq_some.mp hpay
  simp only [Nat.zero_add] at hpread
  obtain ⟨hbuf, -, hlen⟩ := h.session.encHeader hm hh
  have hhdr : t.hdrLen.toNat = (headerBytes t.freq t.fbc).length := by
    have := tableSize_le t.freq
    rw [hlen, length_headerBytes, BitVec.toNat_ofNat]
    omega
  have hpack := h.session.encPayload hm hp
  rw [State.input_eq hin] at hpack
  obtain ⟨hbytes, hpacks, hfbc⟩ := packBytes_eq_ok (t := t.codeTable) (h.input_coded hm (h.flags.encPayload hm hp) hin) hpack
  simp only at hbytes
  refine ⟨payload, fun i => ?_, ?_, hfbc ▸ validInLast_le _, ?_, ?_⟩
  · rw [readArtifact, hhdr, hbuf]
    split
    case isTrue hi => rw [Memory.read_writeN_nil, List.getElem?_append_left hi]
    case isFalse hi =>
      rw [List.getElem?_append_right (by omega)]
      split
      case isTrue hi' => exact hpread _ (by omega)
      case isFalse hi' => exact (List.getElem?_eq_none (by omega)).symm
  · rw [List.length_append, hhdr, hplen]
  · have hzero : t.fbc = 0 ↔ t.fbc.toNat = 0 := BitVec.toNat_eq
    rw [hzero, hfbc, validInLast_eq_zero_iff, ← List.length_eq_zero_iff, hplen, hbytes]
    omega
  · rw [hfbc]
    refine payloadBits_packed (hplen.trans hbytes) fun a v hv => ?_
    have ha : a < t.outLen.toNat := hplen ▸ (List.getElem?_eq_some_iff.mp hv).1
    obtain ⟨w, hw, hpw⟩ := hpacks a ha
    have hw : t.outBuf.read a = some w := hw
    rw [hpread a ha, hv] at hw
    cases hw
    exact hpw

/-- What the host reads from `ART` is what stands there. -/
theorem eq_of_hostRead_artbuf {t : State} {artifact written : List Byte} (hm : t.mode = .enc) (hr : t.phase = .ready)
    (hlen : artifact.length = written.length) (hview : ∀ i, readArtifact t i = written[i]?)
    (hread : ∀ i b, artifact[i]? = some b → hostRead t .artbuf i = some ⟨8, b⟩) : artifact = written := by
  refine List.ext_getElem hlen fun i hi hi' => ?_
  have h := hread i artifact[i] (List.getElem?_eq_getElem hi)
  simpa [hostRead, hm, hr, byteReply, hview, List.getElem?_eq_getElem hi'] using h.symm

/-! ### The way back -/

/-- The run of bytes after the first ones read. -/
theorem Memory.readN_drop {m : Memory} {n : Nat} {xs ys : List Byte} (h : m.readN 0 n = some (xs ++ ys)) :
    m.readN xs.length (n - xs.length) = some ys := by
  obtain ⟨hlen, hread⟩ := Memory.readN_eq_some.mp h
  rw [List.length_append] at hlen
  refine Memory.readN_eq_some.mpr ⟨by omega, fun i hi => ?_⟩
  have h := hread (xs.length + i) (by omega)
  rw [List.getElem?_append_right (by omega)] at h
  simpa using h

/-- A header and a payload that spells symbols which fit are decompressed to these symbols (46_sequencer.md R230). -/
theorem decompressStage_spelled {s : State} {freq : ByteTable Count} {fbc : BitVec 4} {payload : List Byte} {tab : CodeTable}
    {xs : List Byte} (h : Fresh s (headerBytes freq fbc ++ payload)) (hle : fbc.toNat ≤ 8) (hend : payload = [] ↔ fbc = 0)
    (htab : codesOf freq = some tab) (hbits : payloadBits fbc.toNat payload = xs.flatMap (codeWord tab)) (hxs : ∀ x ∈ xs, freq.get x ≠ 0)
    (hroom : xs.length ≤ s.cfg.outCap.toNat) :
    ∃ node nleaf nnode root te, decompressStage s =
      .done { s with mode := .dec, freq := freq, tsize := BitVec.ofNat 64 (tableSize freq), fbc := fbc,
                     payOff := BitVec.ofNat 64 (8 + tableSize freq), fv := true, hv := true, node := node, nleaf := nleaf, nnode := nnode,
                     root := root, te := te, tv := true, code := tab.code, clen := tab.clen, cv := true, outBuf := Memory.writeN [] 0 xs,
                     outLen := BitVec.ofNat 64 xs.length, pv := true, phase := .ready } := by
  have hdec := hdrdecStage_eq_done h.input (parseHeader_headerBytes freq hle hend)
  have hoff : (BitVec.ofNat 64 (8 + tableSize freq)).toNat = (headerBytes freq fbc).length := by
    have := tableSize_le freq
    rw [length_headerBytes, BitVec.toNat_ofNat]
    omega
  have hpay : s.inBuf.readN (BitVec.ofNat 64 (8 + tableSize freq)).toNat (s.inLen.toNat - (BitVec.ofNat 64 (8 + tableSize freq)).toNat)
      = some payload := by
    rw [hoff]
    exact Memory.readN_drop h.input
  obtain ⟨node, nleaf, nnode, root, te, -, hstage⟩ :=
    unpackStage_spelled (hdrdecStage_inv h.inv h.phase hdec) (hdrdecStage_accepts_unpack h.inv h.phase hdec) hpay htab hbits hxs hroom
  exact ⟨node, nleaf, nnode, root, te, by rw [decompressStage, hdec, Stage.andThen_done, hstage]⟩

/-- Settles O56: the artifact is a header and the bitstream of the input, and its codes are those of the table in the header. -/
theorem roundTrip : Obligations.RoundTrip := by
  intro s t u input artifact hs e hr hlen hread hu hroom
  obtain ⟨h, hm, hin⟩ := compress_ready hs e hr
  obtain ⟨payload, hview, hwritten, hle, hend, hbits⟩ := h.artifact hm hr hin
  obtain rfl := eq_of_hostRead_artbuf hm hr (hlen.trans hwritten.symm) hview hread
  have hcv := h.flags.encPayload hm (h.flags.encHeader hm (hv_of_ready h hr hm))
  have htab := h.session.codes hcv
  have hpresent : ∀ x ∈ input, t.freq.get x ≠ 0 := fun x hx => present_of_codesOf htab (h.input_coded hm hcv hin x hx)
  obtain ⟨node, nleaf, nnode, root, te, hstage⟩ := decompressStage_spelled hu hle hend htab hbits hpresent hroom
  have hcap := u.cfg.outCap.isLt
  have hout : (BitVec.ofNat 64 input.length).toNat = input.length := by
    rw [BitVec.toNat_ofNat]
    omega
  refine ⟨_, by rw [exec_decompress hu.phase, hstage, Stage.finish_done], rfl, hout, fun i b hb => ?_⟩
  have hi : i < input.length := (List.getElem?_eq_some_iff.mp hb).1
  simp only [hostRead, State.accept_pv, State.accept_outLen, State.accept_outBuf, hout, hi, Memory.read_writeN_nil, hb]
  rfl

end Sys2Proof.Machine
end

section
/-! ## Proofs: big-endian fields, written and read (00_scope.md R14) -/

namespace Sys2Proof.Machine

/-! ### The number that bytes spell -/

theorem bigEndian_concat (bs : List Byte) (b : Byte) : bigEndian (bs ++ [b]) = bigEndian bs * 256 + b.toNat :=
  List.foldl_concat _ _ _ _

theorem bigEndian_lt (bs : List Byte) : bigEndian bs < 256 ^ bs.length := by
  induction bs using List.reverseRecOn with
  | nil => decide
  | append_singleton bs b ih =>
    have hb := b.isLt
    rw [bigEndian_concat, List.length_append, List.length_singleton, Nat.pow_succ]
    omega

/-- Byte sequences of one length that spell the same number are the same. -/
theorem eq_of_bigEndian_eq {bs cs : List Byte} (hlen : bs.length = cs.length) (h : bigEndian bs = bigEndian cs) : bs = cs := by
  induction bs using List.reverseRecOn generalizing cs with
  | nil => exact (List.length_eq_zero_iff.mp hlen.symm).symm
  | append_singleton bs b ih =>
    obtain rfl | ⟨cs, c, rfl⟩ := List.eq_nil_or_concat' cs
    · simp at hlen
    · have hb := b.isLt
      have hc := c.isLt
      rw [bigEndian_concat, bigEndian_concat] at h
      obtain rfl : b = c := BitVec.eq_of_toNat_eq (by omega)
      rw [ih (by simpa using hlen) (by omega)]

/-- Writing the number that 8 bytes spell gives back those bytes. -/
theorem be64_bigEndian {bs : List Byte} (h : bs.length = 8) : be64 (BitVec.ofNat 64 (bigEndian bs)) = bs := by
  have hlt : bigEndian bs < 2 ^ 64 := by simpa [h] using bigEndian_lt bs
  refine eq_of_bigEndian_eq ((length_be64 _).trans h.symm) ?_
  rw [bigEndian_be64, BitVec.toNat_ofNat, Nat.mod_eq_of_lt hlt]

/-- Byte `a` of the 8 bytes written, most significant first, is digit 7 - `a` to the base 256. -/
theorem getElem?_be64 (v : BitVec 64) {a : Nat} (h : a < 8) : (be64 v)[a]?.map BitVec.toNat = some (v.toNat / 256 ^ (7 - a) % 256) := by
  have hbyte : (be64 v)[a]? = some (v.extractLsb' (8 * (7 - a)) 8) := by
    interval_cases a <;> rfl
  rw [hbyte, Option.map_some, BitVec.extractLsb'_toNat, Nat.shiftRight_eq_div_pow, Nat.pow_mul]

/-! ### The field that the statements read -/

theorem take_drop_eq_map_getD {bs : List Byte} {a n : Nat} (h : a + n ≤ bs.length) :
    (bs.drop a).take n = (List.range n).map (fun k => bs.getD (a + k) 0) := by
  refine List.ext_getElem (by simp; omega) fun k hk _ => ?_
  rw [List.length_take, List.length_drop] at hk
  rw [List.getElem_take, List.getElem_drop, List.getElem_map, List.getElem_range, List.getD_eq_getElem _ _ (by omega)]

/-- The number that `n` bytes spell, as the sum over their places. -/
theorem bigEndian_map_range (f : Nat → Byte) (n : Nat) :
    bigEndian ((List.range n).map f) = ((List.range n).map fun k => (f k).toNat * 2 ^ (8 * (n - 1 - k))).sum := by
  induction n with
  | zero => rfl
  | succ n ih =>
    have hshift : ((List.range n).map fun k => (f k).toNat * 2 ^ (8 * (n - k))).sum
        = ((List.range n).map fun k => (f k).toNat * 2 ^ (8 * (n - 1 - k))).sum * 256 := by
      rw [← List.sum_map_mul_right]
      refine congrArg List.sum (List.map_congr_left fun k hk => ?_)
      have hk := List.mem_range.mp hk
      rw [show 8 * (n - k) = 8 * (n - 1 - k) + 8 by omega, Nat.pow_add, Nat.mul_assoc]
    simp [List.range_succ, bigEndian_concat, ih, hshift]

theorem field64_eq_bigEndian (bs : List Byte) (a : Nat) :
    field64 bs a = bigEndian ((List.range 8).map fun k => bs.getD (a + k) 0) :=
  (bigEndian_map_range _ 8).symm

theorem field64_lt (bs : List Byte) (a : Nat) : field64 bs a < 2 ^ 64 := by
  rw [field64_eq_bigEndian]
  exact (bigEndian_lt _).trans_eq (by rw [List.length_map, List.length_range]; norm_num)

/-- `BE64` of a field that lies within the input (45_header_codec.md R204). -/
theorem be64At_eq_field64 {bs : List Byte} {a : Nat} (h : a + 8 ≤ bs.length) : be64At bs a = field64 bs a :=
  (congrArg bigEndian (take_drop_eq_map_getD h)).trans (field64_eq_bigEndian bs a).symm

theorem be64_field64 {bs : List Byte} {a : Nat} (h : a + 8 ≤ bs.length) : be64 (BitVec.ofNat 64 (field64 bs a)) = (bs.drop a).take 8 := by
  rw [field64_eq_bigEndian, be64_bigEndian (by simp), take_drop_eq_map_getD h]

end Sys2Proof.Machine
end

section
/-! ## Proofs: what `HDRENC` writes (45_header_codec.md R200, R201) -/

namespace Sys2Proof.Machine

theorem headerBytes_eq (freq : ByteTable Count) (fbc : BitVec 4) : headerBytes freq fbc =
    be64 (BitVec.ofNat 64 (tableSize freq)) ++ [fbc.setWidth 8] ++ (presentSymbols freq).flatMap (headerEntry freq) := rfl

theorem headerEntry_eq (freq : ByteTable Count) (x : Byte) : headerEntry freq x = x :: be64 (freq.get x) := rfl

theorem tableSize_eq (freq : ByteTable Count) : tableSize freq = 1 + 9 * (presentSymbols freq).length := rfl

theorem length_headerEntry (freq : ByteTable Count) (x : Byte) : (headerEntry freq x).length = 9 := rfl

theorem length_entries (freq : ByteTable Count) (xs : List Byte) : (xs.flatMap (headerEntry freq)).length = 9 * xs.length := by
  simp only [List.length_flatMap, length_headerEntry, List.map_const', List.sum_replicate, smul_eq_mul, Nat.mul_comm]

/-- Byte `a` of the first field of a header is byte `a` of table_size (30_encoding.md R97). -/
theorem headerBytes_tsize (freq : ByteTable Count) (fbc : BitVec 4) {a : Nat} (h : a < 8) :
    (headerBytes freq fbc)[a]? = (be64 (BitVec.ofNat 64 (tableSize freq)))[a]? := by
  rw [headerBytes_eq, List.append_assoc, List.getElem?_append_left (by rwa [length_be64])]

theorem headerBytes_fbc (freq : ByteTable Count) (fbc : BitVec 4) : (headerBytes freq fbc)[8]? = some (fbc.setWidth 8) := by
  rw [headerBytes_eq, List.append_assoc, List.getElem?_append_right (by rw [length_be64])]
  rfl

/-- The entry of the `k`-th present symbol begins at byte 9 + 9 `k` (30_encoding.md R97). -/
theorem headerBytes_split {freq : ByteTable Count} {k : Nat} {x : Byte} (h : (presentSymbols freq)[k]? = some x) (fbc : BitVec 4) :
    ∃ pre rest, headerBytes freq fbc = pre ++ (headerEntry freq x ++ rest) ∧ pre.length = 9 + 9 * k := by
  obtain ⟨hk, hx⟩ := List.getElem?_eq_some_iff.mp h
  have hsplit : presentSymbols freq = (presentSymbols freq).take k ++ x :: (presentSymbols freq).drop (k + 1) := by
    rw [← hx, ← List.drop_eq_getElem_cons hk, List.take_append_drop]
  refine ⟨be64 (BitVec.ofNat 64 (tableSize freq)) ++ [fbc.setWidth 8] ++ ((presentSymbols freq).take k).flatMap (headerEntry freq),
    ((presentSymbols freq).drop (k + 1)).flatMap (headerEntry freq), ?_, ?_⟩
  · simp only [List.append_assoc, ← List.flatMap_cons, ← List.flatMap_append, ← hsplit, headerBytes_eq]
  · simp only [List.length_append, length_be64, length_entries, List.length_take, List.length_singleton]
    omega

theorem headerBytes_entry {freq : ByteTable Count} {k : Nat} {x : Byte} (h : (presentSymbols freq)[k]? = some x) (fbc : BitVec 4)
    {i : Nat} (hi : i < 9) : (headerBytes freq fbc)[9 + 9 * k + i]? = (headerEntry freq x)[i]? := by
  obtain ⟨pre, rest, hsplit, hpre⟩ := headerBytes_split h fbc
  have hentry := length_headerEntry freq x
  rw [hsplit, List.getElem?_append_right (by omega), hpre, Nat.add_sub_cancel_left, List.getElem?_append_left (by omega)]

/-- Settles O41: `HDR` holds the header bytes, and the layout is read off them. -/
theorem hdrencWritesTheLayout : Obligations.HdrencWritesTheLayout := by
  rintro s present rfl g
  have hsmall := tableSize_le s.freq
  have hlen : (BitVec.ofNat 12 (8 + tableSize s.freq)).toNat = 8 + tableSize s.freq := by
    rw [BitVec.toNat_ofNat]
    omega
  have htsize : (BitVec.ofNat 64 (tableSize s.freq)).toNat = tableSize s.freq := by
    rw [BitVec.toNat_ofNat]
    omega
  refine ⟨_, _, _, (exec_hdrenc g).trans rfl, htsize.trans (tableSize_eq s.freq), hlen.trans ?_, fun a ha => ?_, ?_,
    fun k x hk => ⟨?_, fun a ha => ?_⟩, fun a ha => ?_⟩
  · have hcount : tableSize s.freq = 1 + 9 * (allBytes.filter (fun x => s.freq.get x ≠ 0)).length := rfl
    omega
  · rw [Memory.read_writeN_nil, headerBytes_tsize _ _ ha, getElem?_be64 _ ha]
  · rw [Memory.read_writeN_nil, headerBytes_fbc]
  · rw [Memory.read_writeN_nil]
    exact headerBytes_entry hk s.fbc (i := 0) (by decide)
  · have hentry := headerBytes_entry hk s.fbc (i := a + 1) (by omega)
    rw [Memory.read_writeN_nil, show 10 + 9 * k + a = 9 + 9 * k + (a + 1) by omega, hentry, headerEntry_eq, List.getElem?_cons_succ,
      getElem?_be64 _ ha]
  · have ha := hlen.symm.trans_le ha
    rw [Memory.read_writeN_nil, List.getElem?_eq_none (by rwa [length_headerBytes])]

end Sys2Proof.Machine
end

section
/-! ## Proofs: the entries that `HDRDEC` reads (45_header_codec.md R202, R207) -/

namespace Sys2Proof.Machine

/-! ### The entry loop -/

/-- The value of the entry before entry `k`, which the loop compares with (45_header_codec.md R202). -/
def previousValue (bs : List Byte) (k : Nat) : Option Byte :=
  if k = 0 then none else some (entryValue bs (k - 1))

theorem previousValue_zero (bs : List Byte) : previousValue bs 0 = none := rfl

theorem previousValue_succ (bs : List Byte) (k : Nat) : previousValue bs (k + 1) = some (entryValue bs k) :=
  if_neg (Nat.succ_ne_zero k)

/-- The table after the first `n` entries (45_header_codec.md R202). -/
def entryTable (bs : List Byte) (n : Nat) : ByteTable Count :=
  (List.range n).foldl (fun t j => t.put (entryValue bs j) (BitVec.ofNat 64 (entryCount bs j))) (Vector.replicate 256 0)

theorem entryTable_zero (bs : List Byte) : entryTable bs 0 = Vector.replicate 256 0 := rfl

theorem entryTable_succ (bs : List Byte) (n : Nat) :
    entryTable bs (n + 1) = (entryTable bs n).put (entryValue bs n) (BitVec.ofNat 64 (entryCount bs n)) :=
  (congrArg (List.foldl _ _) List.range_succ).trans (List.foldl_concat _ _ _ _)

/-- The check of one entry is the loop's (45_header_codec.md R207). -/
theorem entryBad_iff (bs : List Byte) (k : Nat) :
    entryBad bs k ↔ (previousValue bs k).any (fun p => entryValue bs k ≤ p) = true ∨ entryCount bs k = 0 := by
  have hspelled : entryBad bs k ↔ (0 < k ∧ (entryValue bs k).toNat ≤ (entryValue bs (k - 1)).toNat) ∨ entryCount bs k = 0 := Iff.rfl
  rw [hspelled]
  cases k with
  | zero => simp [previousValue_zero]
  | succ k => simp [previousValue_succ, BitVec.le_def]

variable {bs : List Byte}

/-- One round of the loop, on an entry within the input (45_header_codec.md R202). -/
theorem parseEntries_succ {k : Nat} (hlen : 9 + 9 * (k + 1) ≤ bs.length) (n : Nat) (freq : ByteTable Count) :
    parseEntries bs k (n + 1) (previousValue bs k) freq =
      if (previousValue bs k).any (fun p => entryValue bs k ≤ p) || entryCount bs k = 0 then .error ⟨.hdrEntry, BitVec.ofNat 64 (9 + 9 * k)⟩
      else parseEntries bs (k + 1) n (previousValue bs (k + 1)) (freq.put (entryValue bs k) (BitVec.ofNat 64 (entryCount bs k))) := by
  have hcount : be64At bs (10 + 9 * k) = entryCount bs k := be64At_eq_field64 (by omega)
  rw [← hcount, previousValue_succ]
  rfl

theorem parseEntries_of_bad {k n : Nat} (hn : 0 < n) (hlen : 9 + 9 * (k + n) ≤ bs.length) (h : entryBad bs k) (freq : ByteTable Count) :
    parseEntries bs k n (previousValue bs k) freq = .error ⟨.hdrEntry, BitVec.ofNat 64 (9 + 9 * k)⟩ := by
  obtain ⟨n, rfl⟩ := Nat.exists_eq_succ_of_ne_zero hn.ne'
  rw [parseEntries_succ (by omega), if_pos (by simpa using (entryBad_iff bs k).mp h)]

theorem parseEntries_of_good {k n : Nat} (hlen : 9 + 9 * (k + (n + 1)) ≤ bs.length) (h : ¬ entryBad bs k) :
    parseEntries bs k (n + 1) (previousValue bs k) (entryTable bs k)
      = parseEntries bs (k + 1) n (previousValue bs (k + 1)) (entryTable bs (k + 1)) := by
  rw [entryTable_succ, parseEntries_succ (by omega), if_neg (by simpa using mt (entryBad_iff bs k).mpr h)]

/-- Entries that pass their checks bring the loop to the next ones. -/
theorem parseEntries_skip {k n : Nat} (hlen : 9 + 9 * (k + n) ≤ bs.length) (h : ∀ j, j < k → ¬ entryBad bs j) :
    parseEntries bs 0 (k + n) none (Vector.replicate 256 0) = parseEntries bs k n (previousValue bs k) (entryTable bs k) := by
  induction k generalizing n with
  | zero => rw [Nat.zero_add, previousValue_zero, entryTable_zero]
  | succ k ih =>
    rw [Nat.add_right_comm, Nat.add_assoc] at hlen ⊢
    rw [ih hlen fun j hj => h j (by omega), parseEntries_of_good hlen (h k (by omega))]

/-- The first entry that breaks a rule is the one reported (45_header_codec.md R207). -/
theorem parseEntries_first_bad {n k : Nat} (hlen : 9 + 9 * n ≤ bs.length) (hk : k < n) (hbad : entryBad bs k)
    (h : ∀ j, j < k → ¬ entryBad bs j) :
    parseEntries bs 0 n none (Vector.replicate 256 0) = .error ⟨.hdrEntry, BitVec.ofNat 64 (9 + 9 * k)⟩ := by
  obtain ⟨m, rfl⟩ := Nat.exists_eq_add_of_le hk.le
  rw [parseEntries_skip hlen h, parseEntries_of_bad (by omega) hlen hbad]

theorem parseEntries_all_good {n : Nat} (hlen : 9 + 9 * n ≤ bs.length) (h : ∀ j, j < n → ¬ entryBad bs j) :
    parseEntries bs 0 n none (Vector.replicate 256 0) = .ok (entryTable bs n) :=
  parseEntries_skip (n := 0) hlen h

/-- Entries that are read all pass their checks. -/
theorem not_entryBad_of_parseEntries {n : Nat} {freq : ByteTable Count} (hlen : 9 + 9 * n ≤ bs.length)
    (h : parseEntries bs 0 n none (Vector.replicate 256 0) = .ok freq) : ∀ k, k < n → ¬ entryBad bs k := by
  intro k
  induction k using Nat.strong_induction_on with
  | _ k ih =>
    intro hk hbad
    rw [parseEntries_first_bad hlen hk hbad fun j hj => ih j hj (hj.trans hk)] at h
    cases h

/-! ### The table that is read -/

/-- Entries that pass their checks have rising values. -/
theorem entryValue_lt {n : Nat} (h : ∀ j, j < n → ¬ entryBad bs j) {i j : Nat} (hij : i < j) (hj : j < n) :
    entryValue bs i < entryValue bs j := by
  have hstep : ∀ k, k + 1 < n → entryValue bs k < entryValue bs (k + 1) := fun k hk =>
    Nat.not_le.mp fun hle => h (k + 1) hk (.inl ⟨Nat.succ_pos k, hle⟩)
  induction j, hij using Nat.le_induction with
  | base => exact hstep i hj
  | succ j _ ih => exact BitVec.lt_trans (ih (by omega)) (hstep j hj)

theorem entryTable_get_other {n : Nat} {x : Byte} (h : ∀ j, j < n → entryValue bs j ≠ x) : (entryTable bs n).get x = 0 := by
  induction n with
  | zero => exact ByteTable.get_replicate 0 x
  | succ n ih =>
    rw [entryTable_succ, ByteTable.get_put_other _ _ (h n (by omega)), ih fun j hj => h j (by omega)]

theorem entryTable_get_entry {n : Nat} (h : ∀ j, j < n → ¬ entryBad bs j) {j : Nat} (hj : j < n) :
    (entryTable bs n).get (entryValue bs j) = BitVec.ofNat 64 (entryCount bs j) := by
  induction n with
  | zero => omega
  | succ n ih =>
    rw [entryTable_succ]
    obtain rfl | hjn := Nat.eq_or_lt_of_le (Nat.lt_succ_iff.mp hj)
    · exact ByteTable.get_put_same _ _ _
    · have hlt := entryValue_lt h hjn (Nat.lt_succ_self n)
      rw [ByteTable.get_put_other _ _ (BitVec.ne_of_lt hlt).symm, ih (fun i hi => h i (by omega)) hjn]

theorem entryCount_lt (bs : List Byte) (k : Nat) : entryCount bs k < 2 ^ 64 := field64_lt bs _

theorem toNat_entryTable_get {n : Nat} (h : ∀ j, j < n → ¬ entryBad bs j) {j : Nat} (hj : j < n) :
    ((entryTable bs n).get (entryValue bs j)).toNat = entryCount bs j := by
  rw [entryTable_get_entry h hj, BitVec.toNat_ofNat, Nat.mod_eq_of_lt (entryCount_lt bs j)]

/-- The symbols that the table has are the values of the entries, in their order. -/
theorem presentSymbols_entryTable {n : Nat} (h : ∀ j, j < n → ¬ entryBad bs j) :
    presentSymbols (entryTable bs n) = (List.range n).map (entryValue bs) := by
  have hasc : ((List.range n).map (entryValue bs)).Pairwise (· < ·) :=
    List.pairwise_map.mpr (List.pairwise_lt_range.imp_of_mem fun _ hb hab => entryValue_lt h hab (List.mem_range.mp hb))
  refine (presentSymbols_ascending _).eq_of_mem_iff hasc fun x => ?_
  rw [mem_presentSymbols, List.mem_map]
  constructor
  · intro hx
    by_contra hno
    exact hx (entryTable_get_other fun j hj hv => hno ⟨j, List.mem_range.mpr hj, hv⟩)
  · rintro ⟨j, hj, rfl⟩ hzero
    have hj := List.mem_range.mp hj
    have hcount := toNat_entryTable_get h hj
    exact h j hj (.inr (by rw [← hcount, hzero]; rfl))

end Sys2Proof.Machine
end

section
/-! ## Proofs: `HDRDEC` on every input (45_header_codec.md R202 to R209) -/

namespace Sys2Proof.Machine

/-! ### The sizes -/

theorem sizesGood.tsize_eq {bs : List Byte} (h : sizesGood bs) : field64 bs 0 = 1 + 9 * entryTotal bs := by
  obtain ⟨-, hmod, -⟩ := h
  have htotal : entryTotal bs = (field64 bs 0 - 1) / 9 := rfl
  omega

theorem sizesGood.entries_within {bs : List Byte} (h : sizesGood bs) : 9 + 9 * entryTotal bs ≤ bs.length := by
  have hts := h.tsize_eq
  have hfit := h.2.2
  omega

section

variable {bs : List Byte}

/-! ### The first check that fails -/

/-- The checks of the parse in order; what follows the entries is handed to them by `bind` (45_header_codec.md R203). -/
theorem parseHeader_eq (bs : List Byte) : parseHeader bs =
    if bs.length < 8 then .error ⟨.hdrTrunc, BitVec.ofNat 64 bs.length⟩
    else if be64At bs 0 = 0 ∨ (be64At bs 0 - 1) % 9 ≠ 0 then .error ⟨.hdrTsize, 0⟩
    else if bs.length - 8 < be64At bs 0 then .error ⟨.hdrTrunc, BitVec.ofNat 64 bs.length⟩
    else if (bs.getD 8 0).toNat > 8 then .error ⟨.hdrFbc, 8⟩
    else (parseEntries bs 0 ((be64At bs 0 - 1) / 9) none (Vector.replicate 256 0)).bind fun freq =>
      if (bs.length - 8 - be64At bs 0 = 0 ↔ (bs.getD 8 0).toNat = 0) then .ok ⟨freq, BitVec.ofNat 4 (bs.getD 8 0).toNat, be64At bs 0⟩
      else .error ⟨.hdrFbc, 8⟩ := by
  unfold parseHeader
  simp only [Bool.or_eq_true, decide_eq_true_eq, bne_iff_ne, ne_eq, decide_eq_decide, ite_not]
  cases parseEntries bs 0 ((be64At bs 0 - 1) / 9) none (Vector.replicate 256 0) <;> rfl

theorem parseHeader_of_short (h : bs.length < 8) : parseHeader bs = .error ⟨.hdrTrunc, BitVec.ofNat 64 bs.length⟩ := by
  rw [parseHeader_eq, if_pos h]

theorem parseHeader_of_bad_tsize (h8 : 8 ≤ bs.length) (h : field64 bs 0 = 0 ∨ (field64 bs 0 - 1) % 9 ≠ 0) :
    parseHeader bs = .error ⟨.hdrTsize, 0⟩ := by
  rw [parseHeader_eq, be64At_eq_field64 (a := 0) h8, if_neg (Nat.not_lt.mpr h8), if_pos h]

theorem parseHeader_of_truncated (h8 : 8 ≤ bs.length) (hpos : field64 bs 0 ≠ 0) (hmod : (field64 bs 0 - 1) % 9 = 0)
    (h : bs.length < 8 + field64 bs 0) : parseHeader bs = .error ⟨.hdrTrunc, BitVec.ofNat 64 bs.length⟩ := by
  rw [parseHeader_eq, be64At_eq_field64 (a := 0) h8, if_neg (Nat.not_lt.mpr h8), if_neg (not_or.mpr ⟨hpos, not_not.mpr hmod⟩), if_pos (by omega)]

/-- Where the sizes are good the bit count is looked at, then the entries, then the bit count against the payload. -/
theorem parseHeader_of_sizesGood (h : sizesGood bs) : parseHeader bs =
    if (bs.getD 8 0).toNat > 8 then .error ⟨.hdrFbc, 8⟩
    else (parseEntries bs 0 (entryTotal bs) none (Vector.replicate 256 0)).bind fun freq =>
      if (bs.length = 8 + field64 bs 0 ↔ bs.getD 8 0 = 0) then .ok ⟨freq, BitVec.ofNat 4 (bs.getD 8 0).toNat, field64 bs 0⟩
      else .error ⟨.hdrFbc, 8⟩ := by
  obtain ⟨h8, hmod, hfit⟩ := h
  have htotal : (field64 bs 0 - 1) / 9 = entryTotal bs := rfl
  have hend : bs.length - 8 - field64 bs 0 = 0 ↔ bs.length = 8 + field64 bs 0 := by omega
  have hzero : (bs.getD 8 0).toNat = 0 ↔ bs.getD 8 0 = 0 := BitVec.toNat_inj (y := 0#8)
  rw [parseHeader_eq, be64At_eq_field64 (a := 0) h8, if_neg (Nat.not_lt.mpr h8), if_neg (by omega), if_neg (by omega), htotal]
  simp only [hend, hzero]

theorem parseHeader_of_bad_fbc (h : sizesGood bs) (hfbc : 8 < (bs.getD 8 0).toNat) : parseHeader bs = .error ⟨.hdrFbc, 8⟩ := by
  rw [parseHeader_of_sizesGood h, if_pos hfbc]

theorem parseHeader_of_bad_entry (h : sizesGood bs) (hfbc : (bs.getD 8 0).toNat ≤ 8) {k : Nat} (hk : k < entryTotal bs)
    (hbad : entryBad bs k) (hfirst : ∀ j, j < k → ¬ entryBad bs j) :
    parseHeader bs = .error ⟨.hdrEntry, BitVec.ofNat 64 (9 + 9 * k)⟩ := by
  rw [parseHeader_of_sizesGood h, if_neg (Nat.not_lt.mpr hfbc), parseEntries_first_bad h.entries_within hk hbad hfirst]
  rfl

/-- Where the entries are good too, the bit count against the payload decides. -/
theorem parseHeader_of_good_entries (h : sizesGood bs) (hfbc : (bs.getD 8 0).toNat ≤ 8) (hgood : ∀ j, j < entryTotal bs → ¬ entryBad bs j) :
    parseHeader bs =
      if (bs.length = 8 + field64 bs 0 ↔ bs.getD 8 0 = 0) then
        .ok ⟨entryTable bs (entryTotal bs), BitVec.ofNat 4 (bs.getD 8 0).toNat, field64 bs 0⟩
      else .error ⟨.hdrFbc, 8⟩ := by
  rw [parseHeader_of_sizesGood h, if_neg (Nat.not_lt.mpr hfbc), parseEntries_all_good h.entries_within hgood]
  rfl

/-- A header that is decoded has passed the checks, and what it holds is what stands at the layout's places. -/
theorem checks_of_parseHeader {h : Header} (e : parseHeader bs = .ok h) :
    sizesGood bs ∧ (bs.getD 8 0).toNat ≤ 8 ∧ (∀ j, j < entryTotal bs → ¬ entryBad bs j)
      ∧ h = ⟨entryTable bs (entryTotal bs), BitVec.ofNat 4 (bs.getD 8 0).toNat, field64 bs 0⟩ := by
  obtain ⟨h8, hmod, hfit, hfbc, hentries, -⟩ := parseHeader_eq_ok.mp e
  rw [be64At_eq_field64 (a := 0) h8] at hmod hfit hentries
  have hsize : sizesGood bs := ⟨h8, by omega, hfit⟩
  have hgood := not_entryBad_of_parseEntries hsize.entries_within hentries
  rw [parseHeader_of_good_entries hsize hfbc hgood] at e
  split at e
  · exact ⟨hsize, hfbc, hgood, (Except.ok.inj e).symm⟩
  · cases e

/-! ### Encoding what was decoded -/

/-- The entry that `HDRENC` writes for a symbol of a decoded table is the one it was read from. -/
theorem headerEntry_entryTable {n : Nat} (hlen : 9 + 9 * n ≤ bs.length) (h : ∀ j, j < n → ¬ entryBad bs j) {j : Nat} (hj : j < n) :
    headerEntry (entryTable bs n) (entryValue bs j) = (bs.drop (9 + 9 * j)).take 9 := by
  have hvalue : (bs.drop (9 + 9 * j)).take 1 = [entryValue bs j] := take_drop_eq_map_getD (by omega)
  have hcount : be64 (BitVec.ofNat 64 (entryCount bs j)) = (bs.drop (10 + 9 * j)).take 8 := be64_field64 (by omega)
  rw [headerEntry_eq, entryTable_get_entry h hj, hcount, List.take_add (i := 1) (j := 8), hvalue, List.drop_drop]
  rw [show 9 + 9 * j + 1 = 10 + 9 * j by omega]
  rfl

theorem entries_entryTable {n : Nat} (hlen : 9 + 9 * n ≤ bs.length) (h : ∀ j, j < n → ¬ entryBad bs j) :
    (presentSymbols (entryTable bs n)).flatMap (headerEntry (entryTable bs n)) = (bs.drop 9).take (9 * n) := by
  have hupto : ∀ m, m ≤ n → (List.range m).flatMap (fun j => headerEntry (entryTable bs n) (entryValue bs j)) = (bs.drop 9).take (9 * m) := by
    intro m hm
    induction m with
    | zero => rfl
    | succ m ih =>
      rw [List.range_succ, List.flatMap_append, ih (by omega), List.flatMap_singleton, headerEntry_entryTable hlen h (by omega),
        Nat.mul_succ, List.take_add, List.drop_drop]
  rw [presentSymbols_entryTable h, List.flatMap_map]
  exact hupto n (Nat.le_refl n)

theorem headerBytes_of_parseHeader {h : Header} (e : parseHeader bs = .ok h) : headerBytes h.freq h.fbc = bs.take (8 + h.tsize) := by
  obtain ⟨hsize, hfbc, hgood, rfl⟩ := checks_of_parseHeader e
  have hlen := hsize.entries_within
  have hts := hsize.tsize_eq
  have hcount : tableSize (entryTable bs (entryTotal bs)) = field64 bs 0 := by
    rw [tableSize_eq, presentSymbols_entryTable hgood, List.length_map, List.length_range, hts]
  have hfield : be64 (BitVec.ofNat 64 (field64 bs 0)) = bs.take 8 := be64_field64 (a := 0) hsize.1
  have hbits : (BitVec.ofNat 4 (bs.getD 8 0).toNat).setWidth 8 = bs.getD 8 0 := by
    apply BitVec.eq_of_toNat_eq
    rw [BitVec.toNat_setWidth, BitVec.toNat_ofNat]
    omega
  have hbyte : (bs.drop 8).take 1 = [bs.getD 8 0] := take_drop_eq_map_getD (by omega)
  rw [headerBytes_eq, hcount, hfield, hbits, ← hbyte, entries_entryTable hlen hgood, hts, ← Nat.add_assoc, List.take_add, List.take_add (i := 8)]

/-! ### The command -/

/-- A fault of the header is the fault entry, in the session's direction DEC (60_exceptions.md R274). -/
theorem exec_hdrdec_of_error {s : State} (g : s.phase = .notStarted) (hin : s.inBytes = some bs) {code : ErrCode} {info : Nat}
    (h : parseHeader bs = .error ⟨code, BitVec.ofNat 64 info⟩) :
    exec .hdrdec s = .next (faultState { s with mode := .dec } code info) := by
  rw [exec_hdrdec g, hdrdecStage_eq_raised hin h]
  rfl

end

/-! ### The statements -/

/-- Settles O45: the header of a table is read back, and the bytes read are the header of what was read. -/
theorem headerDecodeAndEncodeAgree : Obligations.HeaderDecodeAndEncodeAgree :=
  ⟨fun freq _ _ hle hend => parseHeader_headerBytes freq hle hend, fun _ _ e => headerBytes_of_parseHeader e⟩

/-- Settles O42: each size check that fails ends the parse with its fault. -/
theorem hdrdecSizeFaults : Obligations.HdrdecSizeFaults := fun _ _ g hin =>
  ⟨fun h => exec_hdrdec_of_error g hin (parseHeader_of_short h),
    fun h8 h => exec_hdrdec_of_error g hin (parseHeader_of_bad_tsize h8 h),
    fun h8 hpos hmod h => exec_hdrdec_of_error g hin (parseHeader_of_truncated h8 hpos hmod h)⟩

/-- Settles O43: where the sizes are good, the first of the later checks that fails ends the parse with its fault. -/
theorem hdrdecFieldFaults : Obligations.HdrdecFieldFaults := fun _ _ g hin hsize =>
  ⟨fun h => exec_hdrdec_of_error g hin (parseHeader_of_bad_fbc hsize h),
    fun _ hfbc hk hbad hfirst => exec_hdrdec_of_error g hin (parseHeader_of_bad_entry hsize hfbc hk hbad hfirst),
    fun hfbc hgood hend => exec_hdrdec_of_error g hin ((parseHeader_of_good_entries hsize hfbc hgood).trans (if_neg hend))⟩

/-- Settles O44: the stage stores what the parse read, and the input's length keeps every sum within its register. -/
theorem hdrdecDecodesTheHeader : Obligations.HdrdecDecodesTheHeader := by
  intro s bs g hin hsize hfbc hgood hend
  have hparse := (parseHeader_of_good_entries hsize hfbc hgood).trans (if_pos hend)
  have hlen := length_lt_of_inBytes hin
  obtain ⟨-, -, hfit⟩ := hsize
  have htsize : (BitVec.ofNat 64 (field64 bs 0)).toNat = field64 bs 0 := by
    rw [BitVec.toNat_ofNat]
    omega
  have hoffset : (BitVec.ofNat 64 (8 + field64 bs 0)).toNat = 8 + field64 bs 0 := by
    rw [BitVec.toNat_ofNat]
    omega
  have hbits : (BitVec.ofNat 4 (bs.getD 8 0).toNat).toNat = (bs.getD 8 0).toNat := by
    rw [BitVec.toNat_ofNat]
    omega
  exact ⟨_, _, _, _, by rw [exec_hdrdec g, hdrdecStage_eq_done hin hparse]; rfl, htsize, hoffset, hbits,
    fun _ hj => toNat_entryTable_get hgood hj, fun _ hx => entryTable_get_other hx⟩

end Sys2Proof.Machine
end

section
/-! ## Proofs: the sequencer (46_sequencer.md) -/

namespace Sys2Proof.Machine

/-! ### Refusals, and `NOP` -/

/-- Settles O5: a command's guard is its row of the guard table, and with the guard false the issue is the refusal. -/
theorem guardFalseRefuses : Obligations.GuardFalseRefuses := by
  intro i s hn
  rw [exec_eq_issue, issue_of_not_guard (mt (guardOf_iff i s).mp hn)]
  rfl

/-- Settles O6: the body of `NOP` hands its state to the acceptance. -/
theorem nopWritesOnlyLastref : Obligations.NopWritesOnlyLastref :=
  ⟨decode_encode .nop, exec_nop⟩

/-! ### No command looks at `LASTREF` -/

theorem deriveStage_accept (s : State) : deriveStage s.accept = (deriveStage s).map State.accept := by
  unfold deriveStage
  rw [State.accept_te, State.accept_node, State.accept_root]
  split <;> rfl

theorem countStage_accept (s : State) : countStage s.accept = (countStage s).map State.accept := by
  unfold countStage
  rw [State.accept_inBytes]
  split <;> rfl

theorem packStage_accept (s : State) : packStage s.accept = (packStage s).map State.accept := by
  unfold packStage
  rw [State.accept_inBytes, State.accept_cfg, State.accept_codeTable]
  split
  · rfl
  · split <;> rfl

theorem hdrdecStage_accept (s : State) : hdrdecStage s.accept = (hdrdecStage s).map State.accept := by
  unfold hdrdecStage
  rw [State.accept_inBytes]
  split
  · rfl
  · split <;> rfl

theorem compressStage_accept (s : State) : compressStage s.accept = (compressStage s).map State.accept := by
  rw [compressStage, countStage_accept, Stage.andThen_map fun _ _ => rfl, Stage.andThen_map fun u _ => deriveStage_accept u,
    Stage.andThen_map fun u _ => packStage_accept u, Stage.andThen_map fun _ _ => rfl]
  rfl

theorem decompressStage_accept (s : State) : decompressStage s.accept = (decompressStage s).map State.accept := by
  rw [decompressStage, hdrdecStage_accept, Stage.andThen_map fun u _ => unpackStage_accept u]
  rfl

/-- The body of a command runs the same whether or not `LASTREF` is set to 0 before it. -/
theorem bodyOf_accept (i : Instr) (s : State) : bodyOf i s.accept = (bodyOf i s).map State.accept := by
  cases i with
  | nop | clear | build | hdrenc => rfl
  | count => exact countStage_accept s
  | derive => exact deriveStage_accept s
  | pack => exact packStage_accept s
  | hdrdec => exact hdrdecStage_accept s
  | unpack => exact unpackStage_accept s
  | compress => exact compressStage_accept s
  | decompress => exact decompressStage_accept s

theorem guardOf_accept (i : Instr) (s : State) : guardOf i s.accept = guardOf i s := by
  cases i <;> rfl

/-- A command answers the same whether or not `LASTREF` is set to 0 before it: each of its ends writes `LASTREF`. -/
theorem exec_accept (i : Instr) (s : State) : exec i s.accept = exec i s := by
  rw [exec_eq_issue, exec_eq_issue, issue, issue, guardOf_accept, bodyOf_accept, Stage.finish_map_accept]
  rfl

/-- Where the first of two commands completes, the second goes on from the state that its body left. -/
theorem runCommands_of_done {i : Instr} {s u : State} (g : Accepted i s) (h : bodyOf i s = .done u) (j : Instr) (is : List Instr) :
    runCommands (i :: j :: is) s = runCommands (j :: is) u := by
  have hi : exec i s = .next u.accept := by
    rw [exec_eq_issue, issue_of_guard ((guardOf_iff i s).mpr g), h, Stage.finish_done]
  rw [runCommands_cons hi]
  simp only [runCommands, exec_accept]

/-! ### The stages of `COMPRESS` before `PACK` -/

theorem packStage_accepts_hdrenc {s u : State} (h : s.Inv) (g : Accepted .pack s) (e : packStage s = .done u) : Accepted .hdrenc u := by
  obtain ⟨hp, hm, -, hpv⟩ := g
  have hhv := mt (h.flags.encHeader hm) (by simp [hpv])
  obtain ⟨bs, out, fbc, -, -, rfl⟩ := packStage_done e
  exact ⟨hp, hm, rfl, by simpa using hhv⟩

/-- The tree of a session always has a code table, so the walk of `DERIVE` does not leave the tree (41_tree_builder.md R134). -/
theorem deriveStage_completes {s : State} (h : s.Inv) (ht : s.tv = true) : ∃ u, deriveStage s = .done u := by
  obtain ⟨tab, htab, -⟩ := codesOf_codes s.freq
  exact ⟨_, deriveStage_eq ((deriveCodes_eq_codesOf h ht).trans htab)⟩

/-- In a fresh session the first three stages of `COMPRESS` complete, each where its own command is accepted, and leave a state that `PACK`
accepts (46_sequencer.md R229). -/
theorem compressStage_reaches_pack {s : State} (h : s.Inv) (g : s.phase = .notStarted) :
    ∃ u w, countStage s = .done u ∧ Accepted .build u ∧ Accepted .derive (buildState u) ∧ deriveStage (buildState u) = .done w
      ∧ w.Inv ∧ Accepted .pack w ∧ compressStage s = (packStage w).andThen hdrencStage := by
  obtain ⟨bs, hbs⟩ := h.inBytes
  have hu := countStage_eq hbs
  generalize ({ s with freq := countBytes bs, mode := .enc, fv := true, phase := .processing } : State) = u at hu
  obtain ⟨gu, hm⟩ := countStage_accepts_build h g hu
  have ⟨hp, hfv, htv⟩ := gu
  have iv := buildStage_inv (countStage_inv h g hu) hp hfv htv rfl
  have gv := buildState_accepts_derive (countStage_inv h g hu) gu
  have ⟨_, htree, hcodes⟩ := gv
  obtain ⟨w, hw⟩ := deriveStage_completes iv htree
  refine ⟨u, w, hu, gu, gv, hw, deriveStage_inv iv htree hcodes hw, deriveStage_accepts_pack iv gv hm hw, ?_⟩
  rw [compressStage_eq, hu, Stage.andThen_done, buildStage, Stage.andThen_done, hw, Stage.andThen_done]

/-! ### Every command and every transaction is answered -/

/-- The stage completes or raises a fault of the data; the machine does not stop in it. -/
def Stage.NeverStuck (r : Stage) : Prop :=
  ∀ f, r ≠ .stuck f

theorem Stage.neverStuck_done (s : State) : (Stage.done s).NeverStuck := fun _ h => Stage.noConfusion h

theorem Stage.NeverStuck.andThen {r : Stage} {next : State → Stage} (h : r.NeverStuck)
    (hn : ∀ u, r = .done u → (next u).NeverStuck) : (r.andThen next).NeverStuck := by
  intro f hf
  obtain hf | ⟨u, hu, hf⟩ := Stage.andThen_eq_stuck.mp hf
  · exact h f hf
  · exact hn u hu f hf

theorem Stage.NeverStuck.answers {r : Stage} (h : r.NeverStuck) : ∃ t, r.finish = .next t := by
  cases r with
  | done u => exact ⟨_, rfl⟩
  | raised e u => exact ⟨_, rfl⟩
  | stuck f => exact absurd rfl (h f)

theorem packStage_neverStuck {s : State} (h : s.Inv) : (packStage s).NeverStuck := by
  obtain ⟨bs, hbs⟩ := h.inBytes
  cases hp : packBytes s.cfg.outCap s.codeTable bs with
  | error r => simp [Stage.NeverStuck, packStage_eq_raised hbs hp]
  | ok o => simp [Stage.NeverStuck, packStage_eq_done hbs hp]

theorem hdrdecStage_neverStuck {s : State} (h : s.Inv) : (hdrdecStage s).NeverStuck := by
  obtain ⟨bs, hbs⟩ := h.inBytes
  cases hp : parseHeader bs with
  | error r => simp [Stage.NeverStuck, hdrdecStage_eq_raised hbs hp]
  | ok hdr => simp [Stage.NeverStuck, hdrdecStage_eq_done hbs hp]

theorem unpackPayload_neverStuck {s : State} {bs : List Byte} (hbs : s.payloadBytes = some bs) : (unpackPayload s).NeverStuck := by
  cases hu : unpackBits s.cfg.outCap s.codeTable 0 0 OutBuffer.empty (payloadBits s.fbc.toNat bs) with
  | error r => simp [Stage.NeverStuck, unpackPayload_eq_raised hbs hu]
  | ok o => simp [Stage.NeverStuck, unpackPayload_eq_done hbs hu]

theorem unpackStage_neverStuck {s : State} (h : s.Inv) (g : Accepted .unpack s) : (unpackStage s).NeverStuck := by
  have ⟨_, hm, hv, _⟩ := g
  obtain ⟨bs, hbs, -⟩ := h.payload hm hv
  obtain ⟨tab, htab, -⟩ := codesOf_codes s.freq
  obtain ⟨node, nleaf, nnode, root, te, -, hstage⟩ := unpackStage_eq_unpackPayload h g htab
  rw [hstage]
  exact unpackPayload_neverStuck hbs

/-- In a session no accepted command stops the machine: every byte it reads has a value and every walk stays in the tree. -/
theorem bodyOf_neverStuck {i : Instr} {s : State} (h : s.Inv) (g : Accepted i s) : (bodyOf i s).NeverStuck := by
  cases i with
  | nop | clear | build | hdrenc => exact Stage.neverStuck_done _
  | count =>
    obtain ⟨bs, hbs⟩ := h.inBytes
    rw [bodyOf, countStage_eq hbs]
    exact Stage.neverStuck_done _
  | derive =>
    obtain ⟨-, htv, -⟩ := g
    obtain ⟨u, hu⟩ := deriveStage_completes h htv
    rw [bodyOf, hu]
    exact Stage.neverStuck_done u
  | pack => exact packStage_neverStuck h
  | hdrdec => exact hdrdecStage_neverStuck h
  | unpack => exact unpackStage_neverStuck h g
  | compress =>
    obtain ⟨u, w, -, -, -, -, iw, -, hstage⟩ := compressStage_reaches_pack h g
    rw [bodyOf, hstage]
    exact (packStage_neverStuck iw).andThen fun x _ => Stage.neverStuck_done _
  | decompress =>
    exact (hdrdecStage_neverStuck h).andThen fun u hu =>
      unpackStage_neverStuck (hdrdecStage_inv h g hu) (hdrdecStage_accepts_unpack h g hu)

theorem exec_answers {s : State} (h : s.Inv) (i : Instr) : ∃ t, exec i s = .next t := by
  by_cases g : Accepted i s
  · rw [exec_eq_issue, issue_of_guard ((guardOf_iff i s).mpr g)]
    exact (bodyOf_neverStuck h g).answers
  · exact ⟨_, guardFalseRefuses i s g⟩

theorem writeCommand_answers {s : State} (h : s.Inv) (b : Byte) : ∃ t, writeCommand s b = .next t := by
  unfold writeCommand
  split
  · exact ⟨_, rfl⟩
  · exact exec_answers h _

theorem hostWrite_answers {s : State} (h : s.Inv) (space : Space) (index : Nat) (b : Byte) : ∃ t, hostWrite s space index b = .next t := by
  obtain ⟨-, -, e⟩ | ⟨-, -, e⟩ | ⟨-, e⟩ := hostWrite_cases s space index b
  · exact e ▸ writeCommand_answers h b
  · exact ⟨_, e⟩
  · exact ⟨_, e⟩

theorem hostTransaction_answers {s : State} (h : s.Inv) (op : HostOp) : ∃ t, hostTransaction s op = .next t := by
  rw [hostTransaction_of_not_busy h.flags.idle]
  cases op with
  | reset => exact ⟨_, rfl⟩
  | read space index => exact ⟨_, rfl⟩
  | write space index b => exact hostWrite_answers h space index b

/-- Settles O11: the step is idle or one transaction, and the one transaction with work to do, a command, never stops under the invariant. -/
theorem stepAlwaysAnswers : Obligations.StepAlwaysAnswers := by
  intro s h
  cases hi : s.hostIn with
  | nil => exact ⟨s, step_of_nil hi⟩
  | cons op ops =>
    rw [step_of_cons hi]
    exact hostTransaction_answers (h.withHostIn ops) op

/-! ### `COMPRESS` -/

/-- Settles O52: the first three stages complete; `PACK` completes and `HDRENC` follows it, or `PACK` raises a fault and nothing follows. -/
theorem compressIsItsFiveStages : Obligations.CompressIsItsFiveStages := by
  intro s t h g e
  obtain ⟨u, w, hu, gu, gv, hw, iw, gw, hstage⟩ := compressStage_reaches_pack h g
  have hrun (is : List Instr) : runCommands (.count :: .build :: .derive :: .pack :: is) s = runCommands (.pack :: is) w := by
    rw [runCommands_of_done (i := .count) g hu, runCommands_of_done (i := .build) gu rfl, runCommands_of_done (i := .derive) gv hw]
  have ⟨_, hm, hcv, hpv⟩ := gw
  have htv := iw.flags.codes hcv
  have hfv := iw.flags.tree htv
  rw [exec_compress g, hstage] at e
  cases hpack : packStage w with
  | done x =>
    rw [hpack, Stage.andThen_done] at e
    have hfive : runCommands [.count, .build, .derive, .pack, .hdrenc] s = .next t := by
      rw [hrun, runCommands_of_done (i := .pack) gw hpack, runCommands_singleton, exec_hdrenc (packStage_accepts_hdrenc iw gw hpack), e]
    obtain ⟨bs, out, fbc, -, -, rfl⟩ := packStage_done hpack
    cases e
    exact .inl ⟨rfl, hfive, hm, hfv, htv, hcv, rfl, rfl⟩
  | raised r x =>
    rw [hpack, Stage.andThen_raised] at e
    have hfour : runCommands [.count, .build, .derive, .pack] s = .next t := by
      rw [hrun, runCommands_singleton, exec_pack gw, hpack, e]
    obtain rfl := packStage_raised hpack
    have hhv := mt (iw.flags.encHeader hm) (by simp [hpv])
    cases e
    exact .inr ⟨rfl, hfour, hm, hfv, htv, hcv, hpv, by simpa using hhv⟩
  | stuck f =>
    rw [hpack] at e
    cases e

/-- A code word has at most 255 bits, so 32 bytes for each input byte hold the bitstream (42_code_table.md R151). -/
theorem bitCount_le (t : CodeTable) (bs : List Byte) : bitCount t bs ≤ 255 * bs.length := by
  have hword : ∀ n ∈ bs.map (fun b => (t.clen.get b).toNat), n ≤ 255 := by
    intro n hn
    obtain ⟨b, -, rfl⟩ := List.mem_map.mp hn
    have := (t.clen.get b).isLt
    omega
  have hsum := List.sum_le_card_nsmul _ _ hword
  rwa [List.length_map, smul_eq_mul, Nat.mul_comm] at hsum

/-- The header of a counted input has 9 bytes and 9 for each distinct byte (45_header_codec.md R201). -/
theorem tableSize_countBytes {bs : List Byte} (h : bs.length < 2 ^ 64) : tableSize (countBytes bs) = 1 + 9 * bs.dedup.length := by
  rw [tableSize_eq, (presentSymbols_countBytes_perm h).length_eq]

/-- With 32 bytes of `OUT` for each byte of the input, every byte of it has a code and the packer finds room for all the bits. -/
theorem compress_completes {s : State} {bs : List Byte} (hs : Fresh s bs) (hroom : 32 * bs.length ≤ s.cfg.outCap.toNat) :
    ∃ t, exec .compress s = .next t ∧ t.phase = .ready := by
  obtain ⟨u, w, hu, -, -, hw, iw, gw, hstage⟩ := compressStage_reaches_pack hs.inv hs.phase
  have hkept : Keeps (fun s => (s.inBytes, s.cfg)) s u := countStage_keeps s (fun _ => rfl) u (.inl hu)
  have hkept' : Keeps (fun s => (s.inBytes, s.cfg)) (buildState u) w := deriveStage_keeps _ (fun _ _ => rfl) w (.inl hw)
  obtain ⟨hin, hcfg⟩ := Prod.mk.inj (hkept'.trans hkept)
  rw [hs.input] at hin
  rw [← hcfg] at hroom
  have ⟨_, hm, hcv, _⟩ := gw
  have hbits := bitCount_le w.codeTable bs
  obtain ⟨out, fbc, hpack, -⟩ := packBytes_ok (t := w.codeTable) (iw.input_coded hm hcv hin) (cap := w.cfg.outCap) (by omega)
  exact ⟨_, by rw [exec_compress hs.phase, hstage, packStage_eq_done hin hpack]; rfl, rfl⟩

/-- Settles O54: with that much room `COMPRESS` completes, and what it leaves is what the invariant says of valid state. -/
theorem compressCompletes : Obligations.CompressCompletes := by
  intro s bs hs hroom
  obtain ⟨t, e, hr⟩ := compress_completes hs hroom
  obtain ⟨it, hm, hin⟩ := compress_ready hs e hr
  have hhv := hv_of_ready it hr hm
  have hpv := it.flags.encHeader hm hhv
  have hcv := it.flags.encPayload hm hpv
  have hlen := length_lt_of_inBytes hin
  have hfreq : t.freq = countBytes bs := State.input_eq hin ▸ it.session.encFreq hm (it.flags.tree (it.flags.codes hcv))
  have hpack := State.input_eq hin ▸ it.session.encPayload hm hpv
  obtain ⟨hout, -⟩ := packBytes_eq_ok (t := t.codeTable) (it.input_coded hm hcv hin) hpack
  obtain ⟨-, -, hhdr⟩ := it.session.encHeader hm hhv
  obtain ⟨hbuf, hinLen⟩ := exec_keeps_input (by decide) e
  obtain ⟨-, -, -, -, -, herr⟩ := hs.inv.flags.notStarted.mp hs.phase
  obtain ⟨hte, htf⟩ : t.err = s.err ∧ t.finfo = s.finfo :=
    (exec_faultWrite (by decide) e).resolve_right fun hf => by simp [hr] at hf
  obtain ⟨hlast, -⟩ := exec_lastref e
  have hpay : t.payOff = (takeOperands .compress t s).payOff := congrArg State.payOff (exec_frame e)
  refine ⟨t, e, hr, hm, hte.trans herr, hlast hs.phase, hbuf, hinLen, hpay, htf, fun x => ?_, ?_, ?_⟩
  · rw [hfreq, toNat_get_countBytes hlen]
  · rw [← length_bitstream]
    exact hout
  · have hsmall := tableSize_le t.freq
    have hsize := hfreq ▸ tableSize_countBytes hlen
    rw [hhdr, BitVec.toNat_ofNat]
    omega

/-! ### `DECOMPRESS` -/

/-- Settles O53: a header that is decoded leaves a state that `UNPACK` accepts; a header fault ends the command before `UNPACK`. -/
theorem decompressIsItsTwoStages : Obligations.DecompressIsItsTwoStages := by
  intro s t h g e
  rw [exec_decompress g, decompressStage] at e
  cases hdec : hdrdecStage s with
  | done u =>
    have gu := hdrdecStage_accepts_unpack h g hdec
    have iu := hdrdecStage_inv h g hdec
    have ⟨_, hm, hhv, hpv⟩ := gu
    have hfv := (iu.flags.decHeader hm).mp hhv
    rw [hdec, Stage.andThen_done] at e
    have hrun : runCommands [.hdrdec, .unpack] s = .next t := by
      rw [runCommands_of_done (i := .hdrdec) g hdec, runCommands_singleton, exec_unpack gu, e]
    obtain ⟨tab, htab, -⟩ := codesOf_codes u.freq
    obtain ⟨node, nleaf, nnode, root, te, -, hstage⟩ := unpackStage_eq_unpackPayload iu gu htab
    rw [hstage] at e
    obtain ⟨x, hx, rfl⟩ | ⟨r, x, hx, rfl⟩ := Stage.finish_next.mp e
    · obtain ⟨bs, out, -, -, rfl⟩ := unpackPayload_done hx
      exact .inl ⟨hfv, hhv, rfl, rfl, hm, hrun, .inl ⟨rfl, rfl⟩⟩
    · obtain rfl := unpackPayload_raised hx
      exact .inl ⟨hfv, hhv, rfl, rfl, hm, hrun, .inr ⟨rfl, hpv⟩⟩
  | raised r u =>
    obtain rfl := hdrdecStage_raised hdec
    obtain ⟨hfv, htv, hcv, hpv, hhv, -⟩ := h.flags.notStarted.mp g
    rw [hdec, Stage.andThen_raised] at e
    have hexec : exec .hdrdec s = .next t := by rw [exec_hdrdec g, hdec, e]
    cases e
    exact .inr ⟨hfv, hhv, htv, hcv, hpv, rfl, rfl, hexec⟩
  | stuck f =>
    rw [hdec] at e
    cases e

/-- Settles O55: the header is decoded to its table and bit count, and the payload spells the symbols. -/
theorem decompressCompletes : Obligations.DecompressCompletes := by
  intro s freq fbc payload tab xs hs hle hend htab hbits hxs hroom
  obtain ⟨node, nleaf, nnode, root, te, hstage⟩ := decompressStage_spelled hs hle hend htab hbits hxs hroom
  obtain ⟨-, -, -, -, -, herr⟩ := hs.inv.flags.notStarted.mp hs.phase
  have hcap := s.cfg.outCap.isLt
  have hout : (BitVec.ofNat 64 xs.length).toNat = xs.length := by
    rw [BitVec.toNat_ofNat]
    omega
  exact ⟨_, (exec_decompress hs.phase).trans (congrArg Stage.finish hstage), rfl, rfl, herr, rfl, rfl, rfl, rfl, rfl, rfl, rfl, rfl, hout,
    Memory.read_writeN_nil xs⟩

end Sys2Proof.Machine
end

section
/-! ## Proofs: what a fault keeps, and how a faulted session ends -/

namespace Sys2Proof.Machine

/-! ### A faulted session -/

/-- Outside `LASTREF`, the queue of transactions and the reply, `t` is `s`: a step that keeps this keeps the whole session. -/
abbrev SameSession (s t : State) : Prop :=
  t = { s with lastref := t.lastref, hostIn := t.hostIn, reply := t.reply }

/-- A faulted session refuses every command but `NOP`, which writes `LASTREF` alone, and `CLEAR` (46_sequencer.md R226, R227). -/
theorem exec_sameSession {i : Instr} {s t : State} (hi : i ≠ .clear) (hp : s.phase = .faulted) (e : exec i s = .next t) : SameSession s t := by
  by_cases hn : i = .nop
  · subst hn
    cases e
    rfl
  · have hg : ¬ Accepted i s := fun g => not_faulted_of_accepted hn hi g hp
    rw [guardFalseRefuses i s hg] at e
    cases e
    rfl

theorem pushInput_of_started {s : State} (hp : s.phase ≠ .notStarted) (b : Byte) : pushInput s b = s.refuse .frozen := by
  obtain ⟨-, e⟩ | ⟨hn, -⟩ | ⟨hn, -⟩ := pushInput_cases s b
  · exact e
  · exact absurd hn hp
  · exact absurd hn hp

theorem hostTransaction_sameSession {s t : State} {op : HostOp} (h : s.Inv) (hp : s.phase = .faulted) (hn : ¬ endsSession op = true)
    (e : hostTransaction s op = .next t) : SameSession s t := by
  obtain ⟨rfl, -⟩ | ⟨b, i, rfl, hd, he⟩ | ⟨b, r, -, -, rfl⟩ | ⟨b, -, rfl⟩ | ⟨space, index, b, -, -, rfl⟩ | ⟨space, index, -, rfl⟩ :=
    hostTransaction_next h.flags.idle e
  · exact absurd rfl hn
  · exact exec_sameSession (ne_clear_of_not_endsSession hd hn) hp he
  · rfl
  · rw [pushInput_of_started (by simp [hp]) b]
    rfl
  · rfl
  · rfl

/-- Reset and a `CMD` write of `CLEAR` have one effect. -/
theorem hostTransaction_of_endsSession {s : State} {op : HostOp} (hb : s.busy = false) (he : endsSession op = true) :
    hostTransaction s op = .next s.cleared := by
  rw [hostTransaction_of_not_busy hb]
  cases op with
  | reset => rfl
  | read space index => cases he
  | write space index b =>
    obtain ⟨⟨rfl, rfl⟩, rfl⟩ : (space = .reg ∧ index = 0) ∧ b = encode .clear := by simpa [endsSession, encode] using he
    simp only [hostWrite, writeCommand, decode_encode, exec_clear]

/-- Settles O13, by the transactions: those that end the session clear it, every other one is refused, reads, or has no effect. -/
theorem faultedLeftOnlyByClearOrReset : Obligations.FaultedLeftOnlyByClearOrReset := by
  intro s s' h hp e
  obtain ⟨hnil, rfl⟩ | ⟨op, ops, ho, ht⟩ := step_next e
  · exact ⟨fun _ => rfl, fun hend => by simp [State.aboutToEnd, hnil] at hend⟩
  · rw [aboutToEnd_cons ho]
    refine ⟨fun hn => ?_, fun hend => ?_⟩
    · have hsame := hostTransaction_sameSession (h.withHostIn ops) hp hn ht
      exact hsame
    · rw [hostTransaction_of_endsSession (by exact h.flags.idle) hend] at ht
      cases ht
      rw [ho]
      rfl

/-! ### The fault entry -/

/-- A body that completes leaves the session without a fault: only the fault entry writes `ERR`, and `CLEAR` resets it. -/
theorem bodyOf_done_err {i : Instr} {s u : State} (hs : s.err = .none) (e : bodyOf i s = .done u) : u.err = .none := by
  by_cases hi : i = .clear
  · subst hi
    cases e
    rfl
  · have hkept := bodyOf_keeps_inputAndFault hi s u (.inl e)
    simp only [Keeps, State.inputAndFault, Prod.mk.injEq] at hkept
    obtain ⟨-, -, herr, -⟩ := hkept
    exact herr.trans hs

/-- A command that takes the session to `FAULTED` was accepted, its body raised the fault, and the fault entry followed. -/
theorem exec_enters_fault {i : Instr} {s t : State} (h : s.Inv) (hp : s.phase ≠ .faulted) (e : exec i s = .next t)
    (hf : t.phase = .faulted) : Accepted i s ∧ ∃ r u, bodyOf i s = .raised r u ∧ t = u.enterFault r := by
  obtain ⟨-, rfl⟩ | ⟨-, u, hu, rfl⟩ | hraised := exec_next e
  · exact absurd hf hp
  · have hs : s.err = .none := not_not.mp (mt h.flags.faulted.mpr hp)
    exact absurd (bodyOf_done_err hs hu) ((exec_inv h e).flags.faulted.mp hf)
  · exact hraised

/-- Only the bit loop of `UNPACK` raises a fault, and by then the tree and the code table are valid (44_bit_unpacker.md R186). -/
theorem unpackStage_raised {s u : State} {r : Raise} (h : s.Inv) (g : Accepted .unpack s) (e : unpackStage s = .raised r u) :
    u.fv = true ∧ u.hv = true ∧ u.tv = true ∧ u.cv = true ∧ u.pv = false := by
  obtain ⟨tab, htab, -⟩ := codesOf_codes s.freq
  obtain ⟨node, nleaf, nnode, root, te, -, hstage⟩ := unpackStage_eq_unpackPayload h g htab
  obtain rfl := unpackPayload_raised (hstage.symm.trans e)
  obtain ⟨-, hm, hhv, hpv⟩ := g
  exact ⟨(h.flags.decHeader hm).mp hhv, hhv, rfl, rfl, hpv⟩

/-- Settles O59: what each body that can raise a fault leaves as it raises it; for the composite commands, O52 and O53. -/
theorem faultKeepsCompletedStages : Obligations.FaultKeepsCompletedStages := by
  intro s t i h e hp hf
  obtain ⟨g, r, u, hu, rfl⟩ := exec_enters_fault h hp e hf
  refine ⟨(exec_inv h e).flags.faulted.mp hf, rfl, ?_⟩
  cases i with
  | nop | clear | build | hdrenc => cases hu
  | count => exact countStage_not_raised s r u hu
  | derive => exact deriveStage_not_raised s r u hu
  | pack =>
    obtain rfl := packStage_raised hu
    obtain ⟨-, -, -, hpv⟩ := g
    exact ⟨rfl, hpv⟩
  | hdrdec =>
    obtain rfl := hdrdecStage_raised hu
    rfl
  | unpack =>
    have hflags := unpackStage_raised h g hu
    exact hflags
  | compress =>
    obtain ⟨hr, -⟩ | ⟨-, -, -, hflags⟩ := compressIsItsFiveStages s _ h g e
    · cases hr
    · exact hflags
  | decompress =>
    obtain ⟨hfv, hhv, htv, hcv, -, -, ⟨hr, -⟩ | ⟨-, hpv⟩⟩ | ⟨hfv, hhv, htv, hcv, hpv, -⟩ := decompressIsItsTwoStages s _ h g e
    · cases hr
    · exact .inr ⟨hfv, hhv, htv, hcv, hpv⟩
    · exact .inl ⟨hfv, hhv, htv, hcv, hpv⟩

end Sys2Proof.Machine
end

section
/-! ## Proofs: reads after reset, and the engine while `BUSY` = 1 (70_reset_and_hazards.md R301, R302, R308) -/

namespace Sys2Proof.Machine

/-! ### After reset -/

/-- With every valid flag at 0 and `PHASE` not `FAULTED`, only the two registers that are always readable answer. -/
theorem hostRead_reset_isSome (space : Space) (i : Nat) :
    (hostRead State.reset space i).isSome = true ↔ space = .reg ∧ (i = 1 ∨ i = 3) := by
  obtain ⟨hinv, -⟩ := resetMeetsInvariant
  rw [readAnsweredExactlyWhenReadable State.reset space i (hinv State.reset.cfg)]
  cases space <;> simp [State.reset]

/-- Settles O8: `STATUS` and `IN_LEN` are read at their reset values, and any other read that answered would be one of these two. -/
theorem readsAfterReset : Obligations.ReadsAfterReset := by
  intro space i
  split_ifs with hstatus hlen
  · obtain ⟨rfl, rfl⟩ := hstatus
    rfl
  · obtain ⟨rfl, rfl⟩ := hlen
    rfl
  · rw [← Option.not_isSome_iff_eq_none, hostRead_reset_isSome]
    rintro ⟨rfl, rfl | rfl⟩
    · exact hstatus ⟨rfl, rfl⟩
    · exact hlen ⟨rfl, rfl⟩

/-! ### While `BUSY` = 1 -/

theorem HostOp.quiet_iff (op : HostOp) : op.quiet = true ↔ op = .reset ∨ op = .read .reg 1 := by
  cases op <;> simp [HostOp.quiet]

theorem hostTransaction_of_busy {s : State} {op : HostOp} (hb : s.busy = true) (hq : ¬ op.quiet = true) :
    hostTransaction s op = .fault .hostNotQuiet := by
  simp [hostTransaction, hb, hq]

theorem hostTransaction_reset (s : State) : hostTransaction s .reset = .next s.cleared := by
  simp [hostTransaction, HostOp.quiet]

theorem hostTransaction_read_status (s : State) :
    hostTransaction s (.read .reg 1) = .next { s with reply := some ⟨32, s.status⟩ } := by
  simp [hostTransaction, HostOp.quiet, hostRead, readRegister]

/-- Settles O23: the two quiet accesses are answered whatever `BUSY` is, and the busy engine stops on every other one. -/
theorem busyEngineTakesOnlyStatusReadAndReset : Obligations.BusyEngineTakesOnlyStatusReadAndReset := by
  intro s op hb
  refine ⟨?_, hostTransaction_read_status s, hostTransaction_reset s⟩
  rw [← not_or, ← HostOp.quiet_iff]
  refine ⟨fun hstop hq => ?_, hostTransaction_of_busy hb⟩
  obtain rfl | rfl := op.quiet_iff.mp hq
  · rw [hostTransaction_reset] at hstop
    cases hstop
  · rw [hostTransaction_read_status] at hstop
    cases hstop

end Sys2Proof.Machine
end
